-- ==== Sys2Proof/Word.lean ====
section
/-! DEFINITION. The byte: the one word this block handles (00_scope R9, 20_memory R63). -/

namespace Sys2Proof

/-- An 8-bit unsigned value, bit 0 the least significant (00_scope R9). -/
abbrev Byte := BitVec 8

end Sys2Proof
end

