-- ==== Sys2Proof/Config.lean ====
section
/-! DEFINITION. What is fixed when the block is constructed (00_scope R6, 10_state R26 to R32), the answers the outside
world gives (20_memory R55 to R59), and the free values that stand for answers nobody has fixed. -/

namespace Sys2Proof

/-- The bus variant `BUS` (00_scope R3). -/
inductive Bus where
  | i2c
  | spi
  deriving DecidableEq, Repr

/-- `BURST_ENCODING` (00_scope R6, 92 D12). CFG never changes after construction, so any encoding function is given by
its 18 byte sequences at this CFG. DESIGN CHOICE (log 10). -/
inductive BurstEncoding where
  /-- The default table of 30_encoding R84. -/
  | standard
  /-- Another encoding: the byte sequences it gives for this block's CFG, in R83's order. -/
  | table (entries : List (List Byte))
  deriving DecidableEq, Repr

/-- The construction parameters of 00_scope R6, without CFG. Durations are in nanoseconds: DESIGN CHOICE (log 8). -/
structure Params where
  bus : Bus
  width : Nat
  height : Nat
  hasResetLine : Bool
  burst : BurstEncoding
  fgRef : Byte
  bgRef : Byte
  tRstLow : Nat
  tRstWait : Nat
  tSettle : Nat
  startupImage : Option (List Byte)
  /-- `none` is an infinite capacity, the default (40_batcher R102). -/
  cap : Option Nat
  deriving DecidableEq, Repr

/-- ControllerConfiguration: the configuration registers (10_state R27). -/
structure ControllerConfig where
  clockDivide : Byte
  multiplex : Byte
  displayOffset : Byte
  startLine : BitVec 6
  segmentRemap : BitVec 1
  scanRemap : BitVec 1
  comPins : BitVec 2
  contrast : Byte
  addrMode : BitVec 2
  startPage : Byte
  endPage : Byte
  startCol : Byte
  endCol : Byte
  precharge : Byte
  vcomh : Byte
  chargePump : BitVec 1
  deriving DecidableEq, Repr

/-- The CFG argument (10_state R27): `none` where the field takes the default the source gives. -/
structure ConfigArgs where
  clockDivide : Byte
  multiplex : Option Byte
  displayOffset : Byte
  startLine : BitVec 6
  segmentRemap : BitVec 1
  scanRemap : BitVec 1
  comPins : BitVec 2
  contrast : Byte
  addrMode : BitVec 2
  startPage : Option Byte
  endPage : Option Byte
  startCol : Option Byte
  endCol : Option Byte
  precharge : Byte
  vcomh : Byte
  chargePump : BitVec 1
  deriving DecidableEq, Repr

/-- What a transport call gives back: an answer, or nothing, ever (20_memory R62). -/
inductive Reply (α : Type) where
  | answer (a : α)
  | never
  deriving DecidableEq, Repr, Inhabited

/-- The answer of `BusWrite` (20_memory R56). With `fail k` the device received the first `k` bytes. -/
inductive WriteAnswer where
  | ok
  | fail (k : Nat)
  deriving DecidableEq, Repr, Inhabited

/-- The answer of a select-line or reset-line drive (20_memory R58, R59). -/
inductive DriveAnswer where
  | ok
  | fail
  deriving DecidableEq, Repr, Inhabited

/-- The answer `(sw, sh, px)` of `GetPixels` (20_memory R52). -/
structure Snapshot where
  width : Nat
  height : Nat
  px : List Byte
  deriving DecidableEq, Repr, Inhabited

/-- Free values: the n-th answer drawn, where `State.env` does not fix it (20_memory R55; log 2). Nothing constrains them. -/
opaque Config.freeReady : Nat → Reply Bool
/-- Free value: an answer of `BusWrite` (20_memory R56; log 2). -/
opaque Config.freeWrite : Nat → Reply WriteAnswer
/-- Free value: an answer of a line drive (20_memory R58, R59; log 2). -/
opaque Config.freeDrive : Nat → Reply DriveAnswer
/-- Free value: a snapshot of the pixel source (20_memory R52; log 2). -/
opaque Config.freeSnapshot : Nat → Snapshot

end Sys2Proof
end

