-- ==== Sys2Proof/Machine/Params.lean ====
section
/-! DEFINITION. What follows from the construction parameters: the page count, the configuration registers' defaults
(10_state R26 to R29), the configuration burst (30_encoding R83 to R87) and which parameter sets are legal (00_scope R6, R8). -/

namespace Sys2Proof

/-- `P = H / 8` (00_scope R8, 10_state R26). -/
def Params.pages (p : Params) : Nat := p.height / 8

/-- The DeviceBuffer's size, `W * P` bytes (10_state R37). -/
def Params.bufLen (p : Params) : Nat := p.width * p.pages

/-- `zeros(n)` (00_scope R10). -/
def zeros (n : Nat) : List Byte := List.replicate n 0

/-- CFG's fields with the source's defaults where the argument gives none (10_state R26, R27, R29). -/
def ConfigArgs.resolve (a : ConfigArgs) (p : Params) : ControllerConfig where
  clockDivide := a.clockDivide
  multiplex := a.multiplex.getD (BitVec.ofNat 8 (p.height - 1))
  displayOffset := a.displayOffset
  startLine := a.startLine
  segmentRemap := a.segmentRemap
  scanRemap := a.scanRemap
  comPins := a.comPins
  contrast := a.contrast
  addrMode := a.addrMode
  startPage := a.startPage.getD 0
  endPage := a.endPage.getD (BitVec.ofNat 8 (p.pages - 1))
  startCol := a.startCol.getD 0
  endCol := a.endCol.getD (BitVec.ofNat 8 (p.width - 1))
  precharge := a.precharge
  vcomh := a.vcomh
  chargePump := a.chargePump

/-- `chargePumpSetting` (10_state R28). -/
def ControllerConfig.chargePumpSetting (c : ControllerConfig) : Byte :=
  if c.chargePump = 1 then 0x14 else 0x10

/-- The argument of the common-pin command: `0x02 | comPins[0] << 4 | comPins[1] << 5` (30_encoding R84). -/
def ControllerConfig.comPinsArg (c : ControllerConfig) : Byte :=
  0x02 ||| ((c.comPins.extractLsb' 0 1).setWidth 8 <<< 4) ||| ((c.comPins.extractLsb' 1 1).setWidth 8 <<< 5)

/-- The default `BURST_ENCODING` table (30_encoding R84). PRESUMED: the spec marks every opcode byte, and the packing of
entries 5 and 8, as general knowledge (log 9). -/
def ControllerConfig.standardBurst (c : ControllerConfig) : List (List Byte) :=
  [ [0xAE],
    [0xD5, c.clockDivide],
    [0xA8, c.multiplex],
    [0xD3, c.displayOffset],
    [0x40 ||| c.startLine.setWidth 8],
    [if c.segmentRemap = 1 then 0xA1 else 0xA0],
    [if c.scanRemap = 1 then 0xC8 else 0xC0],
    [0xDA, c.comPinsArg],
    [0x81, c.contrast],
    [0x20, c.addrMode.setWidth 8],
    [0x22, c.startPage, c.endPage],
    [0x21, c.startCol, c.endCol],
    [0xD9, c.precharge],
    [0xDB, c.vcomh],
    [0x2E],
    [0xA6],
    [0x8D, c.chargePumpSetting],
    [0xAF] ]

/-- `BURST_ENCODING(CFG)`: the 18 entries of 30_encoding R83. -/
def burstEntries (p : Params) (c : ControllerConfig) : List (List Byte) :=
  match p.burst with
  | .standard => c.standardBurst
  | .table entries => entries

/-- `burst(CFG) = e1 ++ ... ++ e18` (41_device R140). -/
def burst (p : Params) (c : ControllerConfig) : List Byte := (burstEntries p c).flatten

/-- `initialImage()` (41_device R142). -/
def initialImage (p : Params) : List Byte :=
  match p.startupImage with
  | some img => if img.length = p.bufLen then img else zeros p.bufLen
  | none => zeros p.bufLen

/-- A finite CAP is at least `max(len(burst), W * P) + 1` (00_scope R6, 40_batcher R102). -/
def capLegal (p : Params) (c : ControllerConfig) : Bool :=
  match p.cap with
  | none => true
  | some n => decide (max (burst p c).length p.bufLen + 1 ≤ n)

/-- The CFG bytes that an entry of any burst encoding keeps, with the entry's place from 0 (30_encoding R86): the multiplex
ratio in entry 3, the windows in entries 11 and 12, the charge-pump argument in entry 17. -/
def ControllerConfig.keptBytes (c : ControllerConfig) : List (Nat × List Byte) :=
  [ (2, [c.multiplex]), (10, [c.startPage, c.endPage]), (11, [c.startCol, c.endCol]), (16, [c.chargePumpSetting]) ]

/-- A burst encoding has 18 non-empty entries (30_encoding R83, 92 D12), and keeps CFG's bytes of R86 in their entries, in
their order. DEDUCED for how an entry keeps them (log 10). -/
def burstLegal (p : Params) (c : ControllerConfig) : Bool :=
  decide ((burstEntries p c).length = 18)
    && (burstEntries p c).all (fun e => !e.isEmpty)
    && c.keptBytes.all (fun k => k.2.isSublist ((burstEntries p c).getD k.1 []))

/-- The constraints of 00_scope R6 and the legal values of 10_state R27: a set outside them is refused (R8). -/
abbrev Params.Legal (p : Params) (c : ControllerConfig) : Prop :=
  1 ≤ p.width ∧ p.width ≤ 256 ∧ 8 ≤ p.height ∧ p.height ≤ 256 ∧ p.height % 8 = 0
    ∧ p.fgRef ≠ p.bgRef ∧ 3000 ≤ p.tRstLow ∧ 100000000 ≤ p.tRstWait
    ∧ c.addrMode ≠ 3 ∧ burstLegal p c = true ∧ capLegal p c = true

end Sys2Proof
end

