-- ==== Sys2Proof/Machine/State.lean ====
section
/-! DEFINITION. The state of one block (10_state, the record `x`) with its ports, and the state after construction
(70_reset R200). INVENTORY.md's '## State' lists every field with its rule. -/

namespace Sys2Proof.Machine

/-- `x.dev` (10_state R23). -/
inductive DeviceState where
  | unknown
  | initializing
  | ready
  | aborted
  deriving DecidableEq, Repr

/-- The tag of a run (00_scope R10). -/
inductive Tag where
  | cmd
  | data
  deriving DecidableEq, Repr

/-- A run: a tag and its byte buffer, the I2C control byte included (10_state R33, R34). -/
structure Run where
  tag : Tag
  bytes : List Byte
  deriving DecidableEq, Repr

/-- `x.dc` (10_state R40). -/
inductive SelectLevel where
  | unknown
  | low
  | high
  deriving DecidableEq, Repr

/-- `x.rst` (10_state R41). -/
inductive ResetLevel where
  | unknown
  | asserted
  | released
  deriving DecidableEq, Repr

/-- The kinds of ordered wait (20_memory R60). -/
inductive DelayKind where
  | rstLow
  | rstWait
  | settle
  deriving DecidableEq, Repr

/-- One event of the trace, with its arguments and its answer (20_memory R55). -/
inductive Event where
  | busReady (usable : Bool)
  | busWrite (bytes : List Byte) (a : WriteAnswer)
  | selectCmd (a : DriveAnswer)
  | selectData (a : DriveAnswer)
  | assertReset (a : DriveAnswer)
  | releaseReset (a : DriveAnswer)
  | delay (kind : DelayKind) (min : Nat)
  | getPixels (snap : Snapshot)
  | surfaceClear
  deriving DecidableEq, Repr

/-- A transport call that waits for its answer (20_memory R62). -/
inductive Call where
  | busReady
  | busWrite (bytes : List Byte)
  | selectCmd
  | selectData
  | assertReset
  | releaseReset
  deriving DecidableEq, Repr

/-- The status an operation answers (60_exceptions R170). -/
inductive Status where
  | ok
  | errUnavailable
  | errEmpty
  | errIo
  | errState
  | errGeometry
  | errIllegal
  | errOverflow
  deriving DecidableEq, Repr

/-- What the state output port shows at one moment: `x.dev` (10_state R23) and the busy indication (R22). -/
structure PortSample where
  dev : DeviceState
  busy : Bool
  deriving DecidableEq, Repr

/-- The answers the transport and the pixel source are going to give, first one first; past a list's end the answers are
the free values of Config (20_memory R55; DESIGN CHOICE, log 2). -/
structure Env where
  ready : List (Reply Bool)
  writes : List (Reply WriteAnswer)
  drives : List (Reply DriveAnswer)
  pixels : List Snapshot
  deriving DecidableEq, Repr

/-- The DeviceBuffer space (20_memory R51): the listed bytes, by rising address, none of them `Memory.unlisted`. -/
abbrev Memory := List Host.Cell

/-- The state of a block: the record `x` of 10_state, its parameters, its ports, and the model's own fields. -/
structure State where
  /-- The construction parameters (00_scope R6). -/
  par : Params
  /-- The configuration registers (10_state R27). -/
  cfg : ControllerConfig
  /-- `x.dev` (10_state R23). -/
  dev : DeviceState
  /-- `x.busy` (10_state R22). -/
  busy : Bool
  /-- `x.runs`, oldest first (10_state R33). -/
  runs : List Run
  /-- `x.cur` (10_state R33). -/
  cur : Option Run
  /-- `x.buf` (10_state R37). -/
  buf : Memory
  /-- `x.dc` (10_state R40). -/
  dc : SelectLevel
  /-- `x.rst` (10_state R41). -/
  rst : ResetLevel
  /-- `x.trace`, oldest first (10_state R42). -/
  trace : List Event
  /-- The host request stream: bytes that arrived and are not consumed (20_memory R50, 30_encoding R74). -/
  rx : List Byte
  /-- The bytes the response port delivered, oldest first (30_encoding R77). -/
  responses : List Byte
  /-- MODEL's own: what the state output port showed at each event of `trace` (log 6). -/
  samples : List PortSample
  /-- MODEL's own: the call that was never answered (20_memory R62; log 3). -/
  waiting : Option Call
  /-- MODEL's own: the answers to come (log 2). -/
  env : Env
  /-- MODEL's own: how many answers were drawn, the argument of the free values (log 2). -/
  draws : Nat
  deriving DecidableEq, Repr

/-- Reasons to stop with a fault. There are none: the block has no traps (60_exceptions R179), every failure is a status
that an operation answers, and every buffer and pixel index is in range (93 U15). -/
inductive Fault where
  deriving DecidableEq, Repr

/-- Reasons to refuse. -/
inductive Refusal where
  /-- Raised by an arm of `exec` for an instruction without a meaning; no arm raises it. Safe: the run stops. -/
  | notModelled (mnemonic : String)
  deriving DecidableEq, Repr

/-- The parameter set of `State.reset` (log 1): 128×64, a geometry that 00_scope R7 names, under I2C with a reset line. -/
def resetParams : Params where
  bus := .i2c
  width := 128
  height := 64
  hasResetLine := true
  burst := .standard
  fgRef := 0xFF
  bgRef := 0x00
  tRstLow := 3000
  tRstWait := 100000000
  tSettle := 0
  startupImage := none
  cap := none

/-- The CFG argument of `State.reset`: the tunables of the spec's CFG_A (95_test_vectors). PRESUMED (log 1). -/
def resetConfigArgs : ConfigArgs where
  clockDivide := 0x80
  multiplex := none
  displayOffset := 0x00
  startLine := 0
  segmentRemap := 1
  scanRemap := 1
  comPins := 1
  contrast := 0x8F
  addrMode := 0
  startPage := none
  endPage := none
  startCol := none
  endCol := none
  precharge := 0xF1
  vcomh := 0x40
  chargePump := 1

/-- The reset values of 70_reset R200 over given parameters. The buffer lists no byte: `zeros(W * P)` (10_state R37). -/
def State.fresh (p : Params) (c : ControllerConfig) : State where
  par := p
  cfg := c
  dev := .unknown
  busy := false
  runs := []
  cur := none
  buf := []
  dc := .unknown
  rst := .unknown
  trace := []
  rx := []
  responses := []
  samples := []
  waiting := none
  env := { ready := [], writes := [], drives := [], pixels := [] }
  draws := 0

/-- The block right after construction (70_reset R200) from the parameter set of log 1. -/
def State.reset : State := State.fresh resetParams (resetConfigArgs.resolve resetParams)

end Sys2Proof.Machine
end

