-- ==== Sys2Proof/Machine/Flags.lean ====
section
/-! DEFINITION. The block has no condition flags (10_state R25). What stands in their place is computed here: the status
byte (60_exceptions R170), the device state's code (10_state R23), and the tests on the batch that decide a status. -/

namespace Sys2Proof.Machine

/-- The status codes (60_exceptions R170). -/
def Status.code : Status → Byte
  | .ok => 0x00
  | .errUnavailable => 0x01
  | .errEmpty => 0x02
  | .errIo => 0x03
  | .errState => 0x04
  | .errGeometry => 0x05
  | .errIllegal => 0x06
  | .errOverflow => 0x07

/-- The 2-bit code on the state output port (10_state R23). -/
def DeviceState.code : DeviceState → BitVec 2
  | .unknown => 0
  | .initializing => 1
  | .ready => 2
  | .aborted => 3

/-- The batch: `x.runs`, then `x.cur` (10_state R33, R35). -/
def State.batch (s : State) : List Run := s.runs ++ s.cur.toList

/-- `pending(x)` (10_state R36). -/
def State.pending (s : State) : Bool := !s.runs.isEmpty || s.cur.isSome

/-- `pendingBytes(x)`, control bytes included (10_state R36). -/
def State.pendingBytes (s : State) : Nat := (s.batch.map (fun r => r.bytes.length)).sum

/-- `n > CAP` (40_batcher R102). -/
def exceedsCap (p : Params) (n : Nat) : Bool :=
  match p.cap with
  | none => false
  | some c => decide (c < n)

end Sys2Proof.Machine
end

