-- ==== Sys2Proof/Machine/Operands.lean ====
section
/-! DEFINITION. The operand forms: a tagged payload and the run it makes (10_state R34, 40_batcher R101), and the pixels
of a snapshot (20_memory R53, 42_transcoder R150). -/

namespace Sys2Proof.Machine

/-- `ctrl(tag)`: the I2C control byte (30_encoding R80). -/
def ctrl : Tag → Byte
  | .cmd => 0x00
  | .data => 0x40

/-- `startBytes(tag)`: what a new run's byte buffer starts with (40_batcher R101). -/
def startBytes (b : Bus) (t : Tag) : List Byte :=
  match b with
  | .i2c => [ctrl t]
  | .spi => []

/-- `frame_t(bs)`: the bytes on the bus of a run with payload `bs` (41_device R145). -/
def frameBytes (b : Bus) (t : Tag) (bs : List Byte) : List Byte := startBytes b t ++ bs

/-- `payload(run)`: the run's bytes without the control byte (10_state R34). -/
def Run.payload (b : Bus) (r : Run) : List Byte :=
  match b with
  | .i2c => r.bytes.drop 1
  | .spi => r.bytes

/-- The select-line level of a tag: low selects command, high selects data (00_scope R13, 30_encoding R81). -/
def tagLevel : Tag → SelectLevel
  | .cmd => .low
  | .data => .high

/-- `PixRead(i)` (20_memory R53). DISPLAY reads no index past the snapshot's end (R153; log 11). -/
def pixRead (px : List Byte) (i : Nat) : Byte := px.getD i 0

/-- `|a - b|` over unbounded integers (00_scope R9). -/
def distance (a b : Byte) : Nat := ((a.toNat : Int) - (b.toNat : Int)).natAbs

/-- `on(p)`: strictly closer to the foreground reference (42_transcoder R150). -/
def pixelOn (p : Params) (v : Byte) : Bool := decide (distance v p.fgRef < distance v p.bgRef)

/-- `surface dimensions must exactly match the panel geometry` (42_transcoder R153). -/
def snapshotFits (p : Params) (snap : Snapshot) : Bool :=
  decide (snap.width = p.width) && decide (snap.height = p.height)
    && decide (snap.px.length = p.width * p.height)

end Sys2Proof.Machine
end

