-- ==== Sys2Proof/Machine/Ops.lean ====
section
/-! DEFINITION. The named operations every meaning is made of: the DeviceBuffer's bytes (20_memory R51), the state's
updates, the transport and pixel-source primitives (20_memory R55 to R62), the response (30_encoding R77), and the entry
to Aborted (60_exceptions R176), which is the nearest thing this block has to taking an exception (R179). -/

namespace Sys2Proof.Machine

/-! ## The DeviceBuffer space -/

/-- What a byte that is not listed reads as: the reset contents, zero (10_state R37). -/
def Memory.unlisted : Byte := 0

/-- `MemRead(a, 1)` (00_scope R11, 20_memory R51). -/
def Memory.read : Memory → Nat → Byte
  | [], _ => Memory.unlisted
  | (b, w) :: m, a => if a = b then w else Memory.read m a

/-- A cell in front of a list, unless its value is what an unlisted byte reads as. -/
def Memory.cons (a : Nat) (v : Byte) (m : Memory) : Memory :=
  if v = Memory.unlisted then m else (a, v) :: m

/-- `MemWrite(a, 1, v)`, in the canonical form (20_memory R51). -/
def Memory.write : Memory → Nat → Byte → Memory
  | [], a, v => Memory.cons a v []
  | (b, w) :: m, a, v =>
    if a < b then Memory.cons a v ((b, w) :: m)
    else if a = b then Memory.cons a v m
    else (b, w) :: Memory.write m a v

/-- The canonical form: addresses at least `lo` and strictly rising, no value that an unlisted byte reads as. -/
def Memory.wfFrom (lo : Nat) : Memory → Bool
  | [] => true
  | (a, v) :: m => decide (lo ≤ a) && decide (v ≠ Memory.unlisted) && Memory.wfFrom (a + 1) m

/-- The canonical form of a memory. -/
def Memory.wf (m : Memory) : Bool := Memory.wfFrom 0 m

/-- Every listed address lies in the space, `0 .. n-1`. -/
def Memory.within (n : Nat) (m : Memory) : Bool := m.all (fun c => decide (c.1 < n))

/-- The memory that holds a byte sequence from address `a` on. -/
def Memory.ofBytesFrom (a : Nat) : List Byte → Memory
  | [] => []
  | b :: bs => Memory.write (Memory.ofBytesFrom (a + 1) bs) a b

/-- The memory that holds a byte sequence from address 0 on. -/
def Memory.ofBytes (bs : List Byte) : Memory := Memory.ofBytesFrom 0 bs

/-- The `n` bytes from address `a` on. -/
def Memory.bytesFrom (m : Memory) (a : Nat) : Nat → List Byte
  | 0 => []
  | n + 1 => Memory.read m a :: Memory.bytesFrom m (a + 1) n

/-- `addr(page, column) = page * W + column` (20_memory R51). -/
def bufAddr (p : Params) (page column : Nat) : Nat := page * p.width + column

/-- `x.buf` as the sequence of its `W * P` bytes (10_state R37). -/
def State.bufBytes (s : State) : List Byte := Memory.bytesFrom s.buf 0 s.par.bufLen

/-! ## Updates of the state -/

/-- `x.dev <- d`. -/
def State.setDev (s : State) (d : DeviceState) : State := { s with dev := d }

/-- `x.runs <- rs; x.cur <- c`. -/
def State.setBatch (s : State) (rs : List Run) (c : Option Run) : State := { s with runs := rs, cur := c }

/-- `x.buf <- bs`, all bytes in one step (20_memory R65, 42_transcoder R156). -/
def State.setBuf (s : State) (bs : List Byte) : State := { s with buf := Memory.ofBytes bs }

/-- The level the block last drove on the select line (10_state R40). -/
def State.setDc (s : State) (l : SelectLevel) : State := { s with dc := l }

/-- The level the block last drove on the reset line (10_state R41). -/
def State.setRst (s : State) (l : ResetLevel) : State := { s with rst := l }

/-- One event at the trace's end (10_state R42), with what the state output port shows meanwhile (log 6). -/
def State.emit (s : State) (e : Event) : State :=
  { s with trace := s.trace ++ [e], samples := s.samples ++ [{ dev := s.dev, busy := s.busy }] }

/-- The call waits for ever (20_memory R62): nothing else changes, and no event is complete (log 3, log 4). -/
def State.hang (s : State) (c : Call) : State := { s with waiting := some c }

/-- The answers still to come, after one was drawn (log 2). -/
def State.drawn (s : State) (e : Env) : State := { s with env := e, draws := s.draws + 1 }

/-- A request is accepted: the block is busy (10_state R22). -/
def State.accept (s : State) : State := { s with busy := true }

/-- The response is delivered and the block is no longer busy (10_state R22, 30_encoding R77). -/
def State.respond (s : State) (st : Status) : State :=
  { s with busy := false, responses := s.responses ++ [st.code] }

/-- The request port's stream after a frame was taken from it (30_encoding R74). -/
def State.setRx (s : State) (bs : List Byte) : State := { s with rx := bs }

/-! ## Procedures that may wait for ever -/

/-- How a procedure ends: with a result, or held for ever at a call that is not answered (20_memory R62). -/
inductive Res (α : Type) where
  | done (a : α) (s : State)
  | hung (s : State)
  deriving DecidableEq, Repr

/-- What follows a procedure runs only if it ended. -/
def Res.andThen {α β : Type} (r : Res α) (k : α → State → Res β) : Res β :=
  match r with
  | .done a s => k a s
  | .hung s => .hung s

/-- The state a procedure left. -/
def Res.state {α : Type} : Res α → State
  | .done _ s => s
  | .hung s => s

/-! ## Drawing an answer (20_memory R55; log 2) -/

/-- The next answer of `BusReady`. -/
def drawReady (s : State) : Reply Bool × State :=
  match s.env.ready with
  | r :: rs => (r, s.drawn { s.env with ready := rs })
  | [] => (Config.freeReady s.draws, s.drawn s.env)

/-- The next answer of `BusWrite`. -/
def drawWrite (s : State) : Reply WriteAnswer × State :=
  match s.env.writes with
  | r :: rs => (r, s.drawn { s.env with writes := rs })
  | [] => (Config.freeWrite s.draws, s.drawn s.env)

/-- The next answer of a line drive. -/
def drawDrive (s : State) : Reply DriveAnswer × State :=
  match s.env.drives with
  | r :: rs => (r, s.drawn { s.env with drives := rs })
  | [] => (Config.freeDrive s.draws, s.drawn s.env)

/-- The next snapshot of the pixel source. -/
def drawSnapshot (s : State) : Snapshot × State :=
  match s.env.pixels with
  | x :: xs => (x, s.drawn { s.env with pixels := xs })
  | [] => (Config.freeSnapshot s.draws, s.drawn s.env)

/-! ## The primitives -/

/-- `BusReady()` (20_memory R57). -/
def busReady (s : State) : Res Bool :=
  match (drawReady s).1 with
  | .answer b => .done b ((drawReady s).2.emit (.busReady b))
  | .never => .hung ((drawReady s).2.hang .busReady)

/-- A failed write delivered a prefix of the bytes: `0 ≤ k ≤ len(bytes)` (20_memory R56; log 2). -/
def clampAnswer (bytes : List Byte) : WriteAnswer → WriteAnswer
  | .ok => .ok
  | .fail k => .fail (min k bytes.length)

/-- `BusWrite(bytes)` (20_memory R56). -/
def busWrite (bytes : List Byte) (s : State) : Res WriteAnswer :=
  match (drawWrite s).1 with
  | .answer a => .done (clampAnswer bytes a) ((drawWrite s).2.emit (.busWrite bytes (clampAnswer bytes a)))
  | .never => .hung ((drawWrite s).2.hang (.busWrite bytes))

/-- The event of a select-line drive for a tag (20_memory R58). -/
def selectEvent : Tag → DriveAnswer → Event
  | .cmd, a => .selectCmd a
  | .data, a => .selectData a

/-- The call of a select-line drive for a tag (20_memory R58). -/
def selectCall : Tag → Call
  | .cmd => .selectCmd
  | .data => .selectData

/-- The select line's level after a drive: unknown if the drive failed (10_state R40). -/
def levelAfterSelect (t : Tag) : DriveAnswer → SelectLevel
  | .ok => tagLevel t
  | .fail => .unknown

/-- `SelectCmd()` before a Cmd run, `SelectData()` before a Data run (20_memory R58, 40_batcher R112). -/
def selectLine (t : Tag) (s : State) : Res DriveAnswer :=
  match (drawDrive s).1 with
  | .answer a => .done a (((drawDrive s).2.setDc (levelAfterSelect t a)).emit (selectEvent t a))
  | .never => .hung ((drawDrive s).2.hang (selectCall t))

/-- `AssertReset()` (20_memory R59, 10_state R41). -/
def assertReset (s : State) : Res DriveAnswer :=
  match (drawDrive s).1 with
  | .answer .ok => .done .ok (((drawDrive s).2.setRst .asserted).emit (.assertReset .ok))
  | .answer .fail => .done .fail (((drawDrive s).2.setRst .unknown).emit (.assertReset .fail))
  | .never => .hung ((drawDrive s).2.hang .assertReset)

/-- `ReleaseReset()` (20_memory R59, 10_state R41). -/
def releaseReset (s : State) : Res DriveAnswer :=
  match (drawDrive s).1 with
  | .answer .ok => .done .ok (((drawDrive s).2.setRst .released).emit (.releaseReset .ok))
  | .answer .fail => .done .fail (((drawDrive s).2.setRst .unknown).emit (.releaseReset .fail))
  | .never => .hung ((drawDrive s).2.hang .releaseReset)

/-- `Delay(kind, min)`: an ordered event that never fails (20_memory R60). -/
def delay (k : DelayKind) (min : Nat) (s : State) : State := s.emit (.delay k min)

/-- `GetPixels()` (20_memory R52). -/
def getPixels (s : State) : Snapshot × State :=
  ((drawSnapshot s).1, (drawSnapshot s).2.emit (.getPixels (drawSnapshot s).1))

/-- `SurfaceClear()`: no answer, always completes (20_memory R61). -/
def surfaceClear (s : State) : State := s.emit .surfaceClear

/-! ## An operation from acceptance to response -/

/-- The end of an operation: its response, or no response ever, with the block busy (10_state R22, 20_memory R62). -/
def conclude : Res Status → State
  | .done st s => s.respond st
  | .hung s => s

/-- One operation: accepted, run to completion, answered (00_scope R12, 10_state R22). -/
def runOperation (op : State → Res Status) (s : State) : Host.Outcome State Fault Refusal :=
  .next (conclude (op s.accept))

/-- Entry to Aborted: the failed INIT's status is the only record of the cause (60_exceptions R176). -/
def abortInit (st : Status) (s : State) : Res Status := .done st (s.setDev .aborted)

end Sys2Proof.Machine
end

