-- ==== Sys2Proof/Machine/Batcher.lean ====
section
/-! DEFINITION. The Transmission Batcher (40_batcher): its shared procedures and the meanings of APPEND_CMD, APPEND_DATA,
SET_CMD, SET_DATA, SEND and BATCH_RESET. -/

namespace Sys2Proof.Machine

/-- A new run starts if none is open or the open one has the other tag (40_batcher R100). -/
def startsRun (t : Tag) (s : State) : Bool :=
  match s.cur with
  | none => true
  | some r => decide (r.tag ≠ t)

/-- How many bytes an append adds to the batch, the new run's control byte included (40_batcher R100). -/
def addedBytes (t : Tag) (bs : List Byte) (s : State) : Nat :=
  bs.length + if startsRun t s then (startBytes s.par.bus t).length else 0

/-- The batch after `bs` was added under `t` (40_batcher R100). -/
def extendBatch (t : Tag) (bs : List Byte) (s : State) : State :=
  match s.cur with
  | none => s.setBatch s.runs (some { tag := t, bytes := frameBytes s.par.bus t bs })
  | some r =>
    if r.tag = t then s.setBatch s.runs (some { tag := t, bytes := r.bytes ++ bs })
    else s.setBatch (s.runs ++ [r]) (some { tag := t, bytes := frameBytes s.par.bus t bs })

/-- `append(tag, bs)` (40_batcher R100, R102). -/
def append (t : Tag) (bs : List Byte) (s : State) : Status × State :=
  if bs = [] then (.ok, s)
  else if exceedsCap s.par (s.pendingBytes + addedBytes t bs s) then (.errOverflow, s)
  else (.ok, extendBatch t bs s)

/-- `batchReset()` (40_batcher R107). -/
def batchReset (s : State) : State := s.setBatch [] none

/-- `finalize()` (40_batcher R109). -/
def finalize (s : State) : State :=
  match s.cur with
  | none => s
  | some r => s.setBatch (s.runs ++ [r]) none

/-- `need`: the bytes a SET's payload takes alone (40_batcher R105). -/
def neededBytes (b : Bus) (t : Tag) (bs : List Byte) : Nat :=
  if bs = [] then 0 else bs.length + (startBytes b t).length

/-- SET_CMD and SET_DATA: batch reset, then append; refused whole if the payload alone exceeds CAP (40_batcher R105, R106). -/
def setBatchTo (t : Tag) (bs : List Byte) (s : State) : Status × State :=
  if exceedsCap s.par (neededBytes s.par.bus t bs) then (.errOverflow, s)
  else append t bs (batchReset s)

/-- Under SPI one select-line drive before the run's write, under I2C none (40_batcher R111, R112). -/
def driveFor (t : Tag) (s : State) : Res DriveAnswer :=
  match s.par.bus with
  | .i2c => .done .ok s
  | .spi => selectLine t s

/-- The writes of SEND's loop, oldest run first; the first failure ends it (40_batcher R110, R113). -/
def sendRuns : List Run → State → Res Status
  | [], s => .done .ok (batchReset s)
  | r :: rs, s =>
    (driveFor r.tag s).andThen fun d s =>
      match d with
      | .fail => .done .errIo (batchReset s)
      | .ok =>
        (busWrite r.bytes s).andThen fun a s =>
          match a with
          | .fail _ => .done .errIo (batchReset s)
          | .ok => sendRuns rs s

/-- `send()` (40_batcher R110). -/
def send (s : State) : Res Status :=
  (busReady s).andThen fun usable s =>
    if usable = false then .done .errUnavailable s
    else if s.pending = false then .done .errEmpty s
    else sendRuns (finalize s).runs (finalize s)

/-- `flush(tag, bs)`: one whole batch sent, host bytes discarded (40_batcher R118). -/
def flush (t : Tag) (bs : List Byte) (s : State) : Res Status :=
  send (append t bs (batchReset s)).2

/-- APPEND_CMD (40_batcher R103). -/
def execAppendCmd (payload : List Byte) (s : State) : Host.Outcome State Fault Refusal :=
  runOperation (fun s => .done (append .cmd payload s).1 (append .cmd payload s).2) s

/-- APPEND_DATA (40_batcher R104). -/
def execAppendData (payload : List Byte) (s : State) : Host.Outcome State Fault Refusal :=
  runOperation (fun s => .done (append .data payload s).1 (append .data payload s).2) s

/-- SET_CMD (40_batcher R105). -/
def execSetCmd (payload : List Byte) (s : State) : Host.Outcome State Fault Refusal :=
  runOperation (fun s => .done (setBatchTo .cmd payload s).1 (setBatchTo .cmd payload s).2) s

/-- SET_DATA (40_batcher R106). -/
def execSetData (payload : List Byte) (s : State) : Host.Outcome State Fault Refusal :=
  runOperation (fun s => .done (setBatchTo .data payload s).1 (setBatchTo .data payload s).2) s

/-- SEND (40_batcher R110). -/
def execSend (s : State) : Host.Outcome State Fault Refusal := runOperation send s

/-- BATCH_RESET (40_batcher R115). -/
def execBatchReset (s : State) : Host.Outcome State Fault Refusal :=
  runOperation (fun s => .done .ok (batchReset s)) s

end Sys2Proof.Machine
end

