-- ==== Sys2Proof/Machine/Device.lean ====
section
/-! DEFINITION. The Device State Machine (41_device): the meaning of INIT. -/

namespace Sys2Proof.Machine

/-- The physical reset pulse, only if a reset line is configured (41_device R132). -/
def resetPulse (s : State) : Res Status :=
  if s.par.hasResetLine = false then .done .ok s
  else
    (assertReset s).andThen fun a s =>
      match a with
      | .fail => .done .errIo s
      | .ok =>
        (releaseReset (delay .rstLow s.par.tRstLow s)).andThen fun a s =>
          match a with
          | .fail => .done .errIo s
          | .ok => .done .ok s

/-- One stage of INIT's chain: any status but OK aborts (41_device R130, R139). -/
def Res.orAbort (r : Res Status) (k : State → Res Status) : Res Status :=
  r.andThen fun st s => if st = .ok then k s else abortInit st s

/-- INIT's usability check (41_device R134). -/
def usabilityCheck (s : State) : Res Status :=
  (busReady s).andThen fun usable s => .done (if usable then .ok else .errUnavailable) s

/-- INIT's pseudocode (41_device R131). -/
def initSequence (s : State) : Res Status :=
  if s.dev ≠ .unknown then .done .errState s
  else
    (usabilityCheck (s.setDev .initializing)).orAbort fun s =>
    (resetPulse s).orAbort fun s =>
    (flush .cmd (burst s.par s.cfg) (delay .rstWait s.par.tRstWait s)).orAbort fun s =>
    (flush .data (s.setBuf (initialImage s.par)).bufBytes (s.setBuf (initialImage s.par))).orAbort fun s =>
    .done .ok ((delay .settle s.par.tSettle s).setDev .ready)

/-- INIT (41_device R131). -/
def execInit (s : State) : Host.Outcome State Fault Refusal := runOperation initSequence s

end Sys2Proof.Machine
end

