-- ==== Sys2Proof/Syntax.lean ====
section
/-! DEFINITION. The host operations (30_encoding R73) and the assembler's lines (R78, R79), as data. -/

namespace Sys2Proof

/-- The nine host operations (30_encoding R73). A list operand is the payload `B[0..LEN-1]` of a format FB frame. -/
inductive Instr where
  | appendCmd (payload : List Byte)
  | appendData (payload : List Byte)
  | setCmd (payload : List Byte)
  | setData (payload : List Byte)
  | send
  | batchReset
  | init
  | display
  | clear
  deriving DecidableEq, Repr

/-- The nine legal OP names (30_encoding R73). -/
inductive Opcode where
  | appendCmd
  | appendData
  | setCmd
  | setData
  | send
  | batchReset
  | init
  | display
  | clear
  deriving DecidableEq, Repr

/-- The two frame formats (30_encoding R71): `f0` has no operand, `fb` carries a byte list. -/
inductive Format where
  | f0
  | fb
  deriving DecidableEq, Repr

/-- What an assembly line may name (30_encoding R78, R79): an operation, or one of the three pseudo-instructions. -/
inductive Mnemonic where
  | op (o : Opcode)
  | empty
  | sendCmd
  | sendData
  deriving DecidableEq, Repr

/-- One assembly line: a mnemonic and its byte operands (30_encoding R78). -/
structure AsmLine where
  mnemonic : Mnemonic
  operands : List Byte
  deriving DecidableEq, Repr

end Sys2Proof
end

