-- ==== Sys2Proof/WellFormed.lean ====
section
/-! DEFINITION. Which operations a request frame can carry: LEN is 16 bits (30_encoding R72). -/

namespace Sys2Proof

/-- The payload of an operation; the operations of format F0 have none. -/
def Instr.payload : Instr → List Byte
  | .appendCmd bs => bs
  | .appendData bs => bs
  | .setCmd bs => bs
  | .setData bs => bs
  | .send => []
  | .batchReset => []
  | .init => []
  | .display => []
  | .clear => []

/-- LEN is an unsigned 16-bit number, so a payload has at most 65535 bytes (30_encoding R72). -/
abbrev Instr.WellFormed (i : Instr) : Prop := i.payload.length ≤ 65535

end Sys2Proof
end

