-- ==== Sys2Proof/Decode.lean ====
section
/-! DEFINITION. Request frames (30_encoding R70 to R76): the decoder, the encoder, the assembler (R78, R79), and the
reading of an opcode-table row. -/

namespace Sys2Proof

/-- The OP byte of each legal operation (30_encoding R73). -/
def Opcode.byte : Opcode → Byte
  | .appendCmd => 0x01
  | .appendData => 0x02
  | .setCmd => 0x03
  | .setData => 0x04
  | .send => 0x05
  | .batchReset => 0x06
  | .init => 0x10
  | .display => 0x11
  | .clear => 0x12

/-- The rows of 30_encoding R73's table, in its order. -/
def Opcode.table : List Opcode :=
  [.appendCmd, .appendData, .setCmd, .setData, .send, .batchReset, .init, .display, .clear]

/-- The operation an OP byte names; `none` for an illegal one (30_encoding R75). -/
def Opcode.ofByte (b : Byte) : Option Opcode := Opcode.table.find? (fun o => o.byte == b)

/-- OP values 0x01 to 0x04 use format FB, every other one format F0 (30_encoding R71). -/
def Opcode.format : Opcode → Format
  | .appendCmd => .fb
  | .appendData => .fb
  | .setCmd => .fb
  | .setData => .fb
  | .send => .f0
  | .batchReset => .f0
  | .init => .f0
  | .display => .f0
  | .clear => .f0

/-- The operation of an opcode and a payload; a format F0 operation takes none. -/
def Opcode.build (o : Opcode) (payload : List Byte) : Instr :=
  match o with
  | .appendCmd => .appendCmd payload
  | .appendData => .appendData payload
  | .setCmd => .setCmd payload
  | .setData => .setData payload
  | .send => .send
  | .batchReset => .batchReset
  | .init => .init
  | .display => .display
  | .clear => .clear

/-- The opcode of an operation. -/
def Instr.opcode : Instr → Opcode
  | .appendCmd _ => .appendCmd
  | .appendData _ => .appendData
  | .setCmd _ => .setCmd
  | .setData _ => .setData
  | .send => .send
  | .batchReset => .batchReset
  | .init => .init
  | .display => .display
  | .clear => .clear

/-- `LEN = zext_16(byte1) | (zext_16(byte2) << 8)` (30_encoding R72). -/
def lenOf (byte1 byte2 : Byte) : Nat :=
  (byte1.setWidth 16 ||| (byte2.setWidth 16 <<< 8)).toNat

/-- What the front of the request stream holds (30_encoding R74, R75). -/
inductive Decoded where
  /-- A whole legal frame, and the bytes after it. -/
  | frame (i : Instr) (rest : List Byte)
  /-- An illegal OP byte, a frame of its own, and the bytes after it. -/
  | illegal (op : Byte) (rest : List Byte)
  /-- The frame's bytes have not all arrived. -/
  | incomplete
  deriving DecidableEq, Repr

/-- The part of a format FB frame after OP: LEN and the payload (30_encoding R71, R74). -/
def decodeList (o : Opcode) : List Byte → Decoded
  | byte1 :: byte2 :: body =>
    if lenOf byte1 byte2 ≤ body.length then
      .frame (o.build (body.take (lenOf byte1 byte2))) (body.drop (lenOf byte1 byte2))
    else .incomplete
  | _ => .incomplete

/-- Reads the first frame of a byte stream (30_encoding R74). It looks at no state (R75, R76). -/
def decode : List Byte → Decoded
  | [] => .incomplete
  | op :: tail =>
    match Opcode.ofByte op with
    | none => .illegal op tail
    | some o =>
      match o.format with
      | .f0 => .frame (o.build []) tail
      | .fb => decodeList o tail

/-- LEN[7:0] of a payload length (30_encoding R71). -/
def lenLow (n : Nat) : Byte := BitVec.ofNat 8 n

/-- LEN[15:8] of a payload length (30_encoding R71). -/
def lenHigh (n : Nat) : Byte := BitVec.ofNat 8 (n / 256)

/-- The request frame of an operation (30_encoding R71). -/
def encode (i : Instr) : List Byte :=
  match i.opcode.format with
  | .f0 => [i.opcode.byte]
  | .fb => i.opcode.byte :: lenLow i.payload.length :: lenHigh i.payload.length :: i.payload

/-- The length of an operation's frame: 1 byte, or 3 + LEN (30_encoding R71). -/
def Instr.frameLength (i : Instr) : Nat :=
  match i.opcode.format with
  | .f0 => 1
  | .fb => 3 + i.payload.length

/-! ## The assembler (30_encoding R78, R79) -/

/-- The operations a line stands for; `none` for operands on an operation that takes none, or too many. -/
def assembleLine (l : AsmLine) : Option (List Instr) :=
  if 65535 < l.operands.length then none
  else
    match l.mnemonic with
    | .op o =>
      match o.format with
      | .f0 => if l.operands = [] then some [o.build []] else none
      | .fb => some [o.build l.operands]
    | .empty => if l.operands = [] then some [.batchReset] else none
    | .sendCmd => some [.setCmd l.operands, .send]
    | .sendData => some [.setData l.operands, .send]

/-- The request bytes of a program of lines; `none` if a line is no line. -/
def assemble : List AsmLine → Option (List Byte)
  | [] => some []
  | l :: ls =>
    match assembleLine l, assemble ls with
    | some is, some bytes => some (is.flatMap encode ++ bytes)
    | _, _ => none

/-- The name of an operation in assembly text (30_encoding R73). -/
def Opcode.text : Opcode → String
  | .appendCmd => "APPEND_CMD"
  | .appendData => "APPEND_DATA"
  | .setCmd => "SET_CMD"
  | .setData => "SET_DATA"
  | .send => "SEND"
  | .batchReset => "BATCH_RESET"
  | .init => "INIT"
  | .display => "DISPLAY"
  | .clear => "CLEAR"

/-- The name that begins an assembly line (30_encoding R78, R79). -/
def Mnemonic.text : Mnemonic → String
  | .op o => o.text
  | .empty => "EMPTY"
  | .sendCmd => "SEND_CMD"
  | .sendData => "SEND_DATA"

/-- One hexadecimal digit. -/
def hexDigit (n : Nat) : String :=
  (["0", "1", "2", "3", "4", "5", "6", "7", "8", "9", "A", "B", "C", "D", "E", "F"]).getD n ""

/-- A byte operand as text, `0x` and two digits (30_encoding R78). -/
def byteText (b : Byte) : String := "0x" ++ hexDigit (b.toNat / 16) ++ hexDigit (b.toNat % 16)

/-- An assembly line as text: the mnemonic, then its operands with commas between (30_encoding R78). -/
def AsmLine.text (l : AsmLine) : String :=
  match l.operands with
  | [] => l.mnemonic.text
  | b :: bs => l.mnemonic.text ++ " " ++ bs.foldl (fun t c => t ++ ", " ++ byteText c) (byteText b)

/-! ## Rows of the opcode table -/

/-- The bytes of a word of `nbits` bits, byte 0 first: the request stream's order (20_memory R63). -/
def wordBytes (nbits w : Nat) : List Byte :=
  (List.range (max 1 ((nbits + 7) / 8))).map (fun k => BitVec.ofNat 8 (w >>> (8 * k)))

/-- The bytes with as many zero bytes after them as the frame they begin still lacks. -/
def padFrame : List Byte → List Byte
  | [] => []
  | op :: tail =>
    match (Opcode.ofByte op).map Opcode.format with
    | some .fb =>
      op :: (tail ++ List.replicate (2 + lenOf (tail.getD 0 0) (tail.getD 1 0) - tail.length) 0)
    | _ => op :: tail

/-- The frame a table row's word stands for, the bits above `nbits` zero. -/
def tableFrame (nbits w : Nat) : List Byte := padFrame (wordBytes nbits w)

/-- The operation the decoder reads from a table row's word. -/
def decodeTableWord (nbits w : Nat) : Option Instr :=
  match decode (tableFrame nbits w) with
  | .frame i _ => some i
  | .illegal _ _ => none
  | .incomplete => none

end Sys2Proof
end

