-- ==== Sys2Proof/Machine/Fetch.lean ====
section
/-! DEFINITION. The host request port (30_encoding R70 to R76): when it holds requests, the illegal frame, construction
(70_reset R200), and how a frame is placed at the port's front. -/

namespace Sys2Proof.Machine

/-- While the block is busy the port holds every request (10_state R22). -/
def portHeld (s : State) : Bool := s.busy

/-- An illegal frame answers `ERR_ILLEGAL` and changes nothing else (30_encoding R75). -/
def illegalFrame (s : State) : Host.Outcome State Fault Refusal :=
  runOperation (fun s => .done .errIllegal s) s

/-- Bytes the host sends arrive behind those already on the port (30_encoding R70). An act of the host, no step (log 5). -/
def State.deliver (s : State) (bs : List Byte) : State := s.setRx (s.rx ++ bs)

/-- A frame at the front of the request stream, with the port not held (log 5). -/
def State.placeFrame (s : State) (bs : List Byte) : State :=
  { s with rx := bs ++ s.rx, busy := false, waiting := none }

/-- Construction from an argument set; a set that breaks a constraint makes no block (00_scope R8, 70_reset R200). -/
def State.construct (p : Params) (a : ConfigArgs) : Option State :=
  if p.Legal (a.resolve p) then some (State.fresh p (a.resolve p)) else none

end Sys2Proof.Machine
end

