-- ==== Sys2Proof/Machine/Transcoder.lean ====
section
/-! DEFINITION. The Buffer Transcoder (42_transcoder): bit packing, and the meanings of DISPLAY and CLEAR. -/

namespace Sys2Proof.Machine

/-- One output byte: 8 vertically consecutive pixels, bit r the pixel at row `page*8 + r` (42_transcoder R154). -/
def packByte (p : Params) (px : List Byte) (page col : Nat) : Byte :=
  (List.range 8).foldl
    (fun b r => if pixelOn p (pixRead px ((page * 8 + r) * p.width + col)) then b ||| (1#8 <<< r) else b) 0

/-- `transcode(px)`, column fastest (42_transcoder R154). -/
def transcode (p : Params) (px : List Byte) : List Byte :=
  (List.range p.pages).flatMap fun page => (List.range p.width).map fun col => packByte p px page col

/-- DISPLAY's pseudocode (42_transcoder R155). -/
def displaySurface (s : State) : Res Status :=
  if s.dev ≠ .ready then .done .errState s
  else if snapshotFits s.par (getPixels s).1 = false then .done .errGeometry (getPixels s).2
  else
    let s' := (getPixels s).2.setBuf (transcode s.par (getPixels s).1.px)
    flush .data s'.bufBytes s'

/-- CLEAR's pseudocode (42_transcoder R160). -/
def clearSurface (s : State) : Res Status :=
  if s.dev ≠ .ready then .done .errState s
  else
    let s' := surfaceClear (s.setBuf (zeros s.par.bufLen))
    flush .data s'.bufBytes s'

/-- DISPLAY (42_transcoder R155). -/
def execDisplay (s : State) : Host.Outcome State Fault Refusal := runOperation displaySurface s

/-- CLEAR (42_transcoder R160). -/
def execClear (s : State) : Host.Outcome State Fault Refusal := runOperation clearSurface s

end Sys2Proof.Machine
end

