-- ==== Sys2Proof/Machine/Dispatch.lean ====
section
/-! DEFINITION. One arm per operation (30_encoding R73). -/

namespace Sys2Proof.Machine

def exec (i : Instr) (s : State) : Host.Outcome State Fault Refusal :=
  match i with
  | .appendCmd payload => Sys2Proof.Machine.execAppendCmd payload s
  | .appendData payload => Sys2Proof.Machine.execAppendData payload s
  | .setCmd payload => Sys2Proof.Machine.execSetCmd payload s
  | .setData payload => Sys2Proof.Machine.execSetData payload s
  | .send => Sys2Proof.Machine.execSend s
  | .batchReset => Sys2Proof.Machine.execBatchReset s
  | .init => Sys2Proof.Machine.execInit s
  | .display => Sys2Proof.Machine.execDisplay s
  | .clear => Sys2Proof.Machine.execClear s

end Sys2Proof.Machine
end

