-- ==== Sys2Proof/Machine/Step.lean ====
section
/-! DEFINITION. One step: the request port takes the next frame and its operation runs to completion (00_scope R12). -/

namespace Sys2Proof.Machine

/-- A held port or a partial frame leaves the state as it is (10_state R22, 30_encoding R74). A legal frame leaves the
stream and its operation runs; an illegal one leaves the stream and answers `ERR_ILLEGAL` (R75). -/
def step (s : State) : Host.Outcome State Fault Refusal :=
  if portHeld s then .next s
  else
    match decode s.rx with
    | .frame i rest => exec i (s.setRx rest)
    | .illegal _ rest => illegalFrame (s.setRx rest)
    | .incomplete => .next s

/-- `s` with an opcode-table row's frame as the next one the port takes (log 5). -/
def State.withFetchWord (s : State) (nbits w : Nat) : State := s.placeFrame (tableFrame nbits w)

end Sys2Proof.Machine
end

