-- ==== Sys2Proof/Safety.lean ====
section
/-! DEFINITION. The terms claims are made in: what the panel received, the batch's and the trace's invariants, the maximal
runs of a sequence of appends, and the events of a run that is sent. -/

namespace Sys2Proof.Machine

/-! ## What the panel receives (20_memory R56, 10_state R42) -/

/-- The bytes an event delivered to the device: a failed write delivered the first `k` (20_memory R56). -/
def delivered : Event → List Byte
  | .busWrite bytes .ok => bytes
  | .busWrite bytes (.fail k) => bytes.take k
  | .busReady _ => []
  | .selectCmd _ => []
  | .selectData _ => []
  | .assertReset _ => []
  | .releaseReset _ => []
  | .delay _ _ => []
  | .getPixels _ => []
  | .surfaceClear => []

/-- The bus byte stream (20_memory R50 (3)). -/
def busStream (tr : List Event) : List Byte := tr.flatMap delivered

/-! ## Operations by tag -/

/-- The append operation of a tag (40_batcher R103, R104). -/
def appendOp : Tag → List Byte → Instr
  | .cmd, bs => .appendCmd bs
  | .data, bs => .appendData bs

/-- The set operation of a tag (40_batcher R105, R106). -/
def setOp : Tag → List Byte → Instr
  | .cmd, bs => .setCmd bs
  | .data, bs => .setData bs

/-- The bytes an append of tag `t` puts before its payload: a new run's start bytes if one starts (40_batcher R100). -/
def newRunBytes (t : Tag) (s : State) : List Byte :=
  match s.cur with
  | some r => if r.tag = t then [] else startBytes s.par.bus t
  | none => startBytes s.par.bus t

/-! ## What a sent run looks like in the trace -/

/-- The select-line event before a run's write: one under SPI, none under I2C (40_batcher R111, R112). -/
def selectEvents (b : Bus) (t : Tag) (a : DriveAnswer) : List Event :=
  match b with
  | .i2c => []
  | .spi => [selectEvent t a]

/-- A run's events when its select drive answers ok: the drive, then one write of its bytes (30_encoding R80, R81). -/
def runEvents (b : Bus) (r : Run) (a : WriteAnswer) : List Event :=
  selectEvents b r.tag .ok ++ [.busWrite r.bytes a]

/-- How many select drives a run takes. -/
def drivesPerRun : Bus → Nat
  | .i2c => 0
  | .spi => 1

/-- `n` replies that answer ok. -/
def okDrives (n : Nat) : List (Reply DriveAnswer) := List.replicate n (.answer .ok)

/-- `n` replies that answer ok. -/
def okWrites (n : Nat) : List (Reply WriteAnswer) := List.replicate n (.answer .ok)

/-- The select line's level after runs were sent: the last one's under SPI, unchanged under I2C (10_state R40). -/
def levelAfterRuns (b : Bus) (rs : List Run) (l : SelectLevel) : SelectLevel :=
  match b, rs.getLast? with
  | .spi, some r => tagLevel r.tag
  | .spi, none => l
  | .i2c, _ => l

/-- The state with events at the trace's end, during which the state output port showed `d` and busy. -/
def State.logged (s : State) (d : DeviceState) (es : List Event) : State :=
  { s with trace := s.trace ++ es, samples := s.samples ++ List.replicate es.length { dev := d, busy := true } }

/-! ## INIT's first half (41_device R145, events 1 to 3) -/

/-- The events of a completed reset pulse, none without a reset line (41_device R132). -/
def pulseEvents (p : Params) : List Event :=
  if p.hasResetLine then [.assertReset .ok, .delay .rstLow p.tRstLow, .releaseReset .ok] else []

/-- How many drives a completed reset pulse takes. -/
def pulseDrives (p : Params) : Nat := if p.hasResetLine then 2 else 0

/-- The reset line's level after a completed pulse. -/
def levelAfterPulse (p : Params) (l : ResetLevel) : ResetLevel := if p.hasResetLine then .released else l

/-- INIT's events before its burst's flush, when the transport is usable (41_device R131, R145). -/
def bootEvents (p : Params) : List Event :=
  .busReady true :: (pulseEvents p ++ [.delay .rstWait p.tRstWait])

/-- The run that a device operation's flush makes of a payload (40_batcher R118). -/
def flushRun (p : Params) (t : Tag) (bs : List Byte) : Run := { tag := t, bytes := frameBytes p.bus t bs }

/-! ## Which statuses an operation answers (60_exceptions R172) -/

/-- The statuses marked in R172's table. -/
def statusesOf : Instr → List Status
  | .appendCmd _ => [.ok, .errOverflow]
  | .appendData _ => [.ok, .errOverflow]
  | .setCmd _ => [.ok, .errOverflow]
  | .setData _ => [.ok, .errOverflow]
  | .send => [.ok, .errUnavailable, .errEmpty, .errIo]
  | .batchReset => [.ok]
  | .init => [.ok, .errUnavailable, .errIo, .errState]
  | .display => [.ok, .errUnavailable, .errIo, .errState, .errGeometry]
  | .clear => [.ok, .errUnavailable, .errIo, .errState]

/-! ## The batch's invariants (10_state R34, R35) -/

/-- A run's bytes are its start bytes and a payload of at least one byte (10_state R34, R35). -/
def runOk (b : Bus) (r : Run) : Bool :=
  decide (r.bytes = frameBytes b r.tag (r.payload b)) && !(r.payload b).isEmpty

/-- Two neighbouring runs never have the same tag (10_state R35). -/
def alternating : List Run → Bool
  | [] => true
  | [_] => true
  | r :: r' :: rs => decide (r.tag ≠ r'.tag) && alternating (r' :: rs)

/-- What every step keeps. An operation that is held for ever leaves the state it last reached (20_memory R62), so two
clauses name `busy`. -/
structure State.Inv (s : State) : Prop where
  /-- The parameter set is one that construction accepts (00_scope R8). -/
  legal : s.par.Legal s.cfg
  /-- 10_state R34, R35. -/
  runs_ok : ∀ r ∈ s.batch, runOk s.par.bus r = true
  /-- 10_state R35. -/
  runs_alternate : alternating s.batch = true
  /-- 10_state R35. -/
  open_run_first : s.busy = false → s.cur = none → s.runs = []
  /-- 40_batcher R102. -/
  batch_fits : exceedsCap s.par s.pendingBytes = false
  /-- The DeviceBuffer's cells are in the canonical form. -/
  buf_wf : Memory.wf s.buf = true
  /-- The DeviceBuffer has no byte outside `0 .. W*P-1` (20_memory R51). -/
  buf_within : Memory.within s.par.bufLen s.buf = true
  /-- The block is busy between operations only if a call was never answered (10_state R22, 20_memory R62). -/
  busy_iff_waiting : s.busy = s.waiting.isSome
  /-- Initializing is seen between operations only in an INIT that is held for ever (41_device R138). -/
  initializing_busy : s.dev = .initializing → s.busy = true
  /-- 10_state R40. -/
  i2c_select_unknown : s.par.bus = .i2c → s.dc = .unknown
  /-- 10_state R41. -/
  no_line_reset_unknown : s.par.hasResetLine = false → s.rst = .unknown
  /-- Nothing but INIT writes the buffer before Ready (10_state R37). -/
  unknown_buf_zero : s.dev = .unknown → s.buf = []
  /-- Nothing but INIT drives the reset line (41_device R132). -/
  unknown_reset_unknown : s.dev = .unknown → s.rst = .unknown
  /-- A panel that is Ready was released from its reset (41_device R131). -/
  ready_released : s.dev = .ready → s.par.hasResetLine = true → s.rst = .released
  /-- One sample an event. -/
  samples_length : s.samples.length = s.trace.length
  /-- Events happen only inside operations (10_state R22, 20_memory R67). -/
  samples_busy : ∀ x ∈ s.samples, x.busy = true
  /-- No other code is ever answered (60_exceptions R170). -/
  codes_known : ∀ c ∈ s.responses, c.toNat ≤ 7

/-! ## The trace's invariant (40_batcher R117, R112) -/

/-- How a trace is framed on a bus, with or without a reset line. -/
structure TraceFramed (b : Bus) (line : Bool) (tr : List Event) : Prop where
  /-- I2C: each write is one control byte and a payload (40_batcher R117). -/
  i2c_control_byte : b = .i2c → ∀ bytes a, .busWrite bytes a ∈ tr →
    ∃ t payload, payload ≠ [] ∧ bytes = ctrl t :: payload
  /-- I2C: the select line is never driven (20_memory R58). -/
  i2c_no_select : b = .i2c → ∀ t a, selectEvent t a ∉ tr
  /-- SPI: each write comes straight after a select drive that answered ok (40_batcher R112). -/
  spi_selected : b = .spi → ∀ before bytes a rest, tr = before ++ .busWrite bytes a :: rest →
    bytes ≠ [] ∧ ∃ earlier t, before = earlier ++ [selectEvent t .ok]
  /-- A failed write delivered no more bytes than it had (20_memory R56). -/
  delivered_short : ∀ bytes k, .busWrite bytes (.fail k) ∈ tr → k ≤ bytes.length
  /-- The reset line is driven only if there is one (20_memory R59). -/
  no_line_no_reset : line = false → ∀ a, .assertReset a ∉ tr ∧ .releaseReset a ∉ tr

/-! ## Maximal runs (00_scope R13, 40_batcher R116) -/

/-- A payload in front of runs: it extends the first run if the tags agree. -/
def joinRun (t : Tag) (bs : List Byte) : List (Tag × List Byte) → List (Tag × List Byte)
  | [] => [(t, bs)]
  | (t', bs') :: rs => if t = t' then (t, bs ++ bs') :: rs else (t, bs) :: (t', bs') :: rs

/-- The maximal same-tag runs of a sequence of payloads, empty payloads ignored (40_batcher R116). -/
def maximalRuns : List (Tag × List Byte) → List (Tag × List Byte)
  | [] => []
  | (t, bs) :: rs => if bs = [] then maximalRuns rs else joinRun t bs (maximalRuns rs)

/-- `t` is reached from `s` by append operations, each answering `OK`. -/
def AppendsAnswerOk : List (Tag × List Byte) → State → State → Prop
  | [], s, t => s = t
  | (tag, bs) :: xs, s, t =>
    ∃ u, exec (appendOp tag bs) s = .next u ∧ u.responses = s.responses ++ [Status.ok.code] ∧ AppendsAnswerOk xs u t

end Sys2Proof.Machine
end

