-- ==== Sys2Proof/Certificates/Slice0/Obligations.lean ====
section
/-! DEFINITION. The statements for the provers. They follow the spec's numbered rules file by file; OBLIGATIONS.json lists
them. A statement's next state is written out as a record update of the state before, so that it is its own frame: a field
it does not name is unchanged. The fields `env`, `draws` (log 2), `waiting` (log 3, 4) and `samples` (log 6) are the
model's own: a clause about one of them formalises no rule. -/

open Sys2Proof Sys2Proof.Machine

/-! ## The request port and the encoding (30_encoding) -/

/-- 30_encoding R70, R74; 00_scope R12: a whole frame at the port's front is taken and its operation runs. -/
def Obligations.StepRunsDecodedInstruction : Prop :=
  ∀ (s : State) (i : Instr) (rest : List Byte), s.busy = false → decode s.rx = .frame i rest →
    step s = exec i { s with rx := rest }

/-- 30_encoding R71 to R73, R78: frames written out by hand decode to the operations they stand for. -/
def Obligations.SampleFramesDecode : Prop :=
  decode [0x01, 0x03, 0x00, 0xAE, 0xD5, 0x80] = .frame (.appendCmd [0xAE, 0xD5, 0x80]) []
    ∧ decode [0x02, 0x02, 0x00, 0x00, 0x40, 0x05] = .frame (.appendData [0x00, 0x40]) [0x05]
    ∧ decode [0x03, 0x01, 0x00, 0xA6] = .frame (.setCmd [0xA6]) []
    ∧ decode [0x04, 0x00, 0x00] = .frame (.setData []) []
    ∧ decode [0x05] = .frame .send [] ∧ decode [0x06] = .frame .batchReset []
    ∧ decode [0x10, 0x11, 0x12] = .frame .init [0x11, 0x12]
    ∧ decode [0x11] = .frame .display [] ∧ decode [0x12] = .frame .clear []

/-- 30_encoding R75: an illegal OP byte is a frame of its own that answers `ERR_ILLEGAL` and changes nothing else. -/
def Obligations.IllegalFrameAnswersErrIllegal : Prop :=
  ∀ (s : State) (op : Byte) (rest : List Byte), s.busy = false → s.rx = op :: rest →
    (op.toNat = 0x00 ∨ (0x07 ≤ op.toNat ∧ op.toNat ≤ 0x0F) ∨ 0x13 ≤ op.toNat) →
    step s = .next { s with rx := rest, responses := s.responses ++ [0x06] }

/-- 30_encoding R74: a proper part of a frame waits and changes nothing; a whole frame is taken whole, and no byte more. -/
def Obligations.PartialFrameWaits : Prop :=
  ∀ (s : State) (i : Instr), i.WellFormed → s.busy = false →
    (∀ bs, bs <+: encode i → bs ≠ encode i → s.rx = bs → step s = .next s)
      ∧ (∀ rest, s.rx = encode i ++ rest → step s = exec i { s with rx := rest })

/-- 30_encoding R71, R72: decoding an encoded operation gives it back, and leaves the bytes after it. -/
def Obligations.DecodeEncodeRoundTrip : Prop :=
  ∀ (i : Instr) (rest : List Byte), i.WellFormed → decode (encode i ++ rest) = .frame i rest

/-- 30_encoding R71 to R74: a decoded frame is the encoding of a well-formed operation, so no word has two meanings. -/
def Obligations.DecodedFrameIsItsEncoding : Prop :=
  ∀ (bs rest : List Byte) (i : Instr), decode bs = .frame i rest → i.WellFormed ∧ bs = encode i ++ rest

/-- 30_encoding R79: the three pseudo-instructions' expansions. -/
def Obligations.PseudoInstructionsExpand : Prop :=
  assemble [{ mnemonic := .empty, operands := [] }] = some [0x06]
    ∧ ∀ bs : List Byte, bs.length ≤ 65535 →
      assembleLine { mnemonic := .sendCmd, operands := bs } = some [.setCmd bs, .send]
        ∧ assembleLine { mnemonic := .sendData, operands := bs } = some [.setData bs, .send]

/-! ## Acceptance, response, and a transport that never answers -/

/-- 10_state R22, 20_memory R62, 60_exceptions R170: every operation gives a next state; it has answered one status and the
block is idle, or a call was never answered and the block stays busy without a response. -/
def Obligations.OperationAnswersOnceOrHangs : Prop :=
  ∀ (i : Instr) (s : State), s.waiting = none → ∃ t, exec i s = .next t ∧
    ((t.busy = false ∧ t.waiting = none ∧ ∃ st : Status, t.responses = s.responses ++ [st.code])
      ∨ (t.busy = true ∧ t.waiting.isSome = true ∧ t.responses = s.responses))

/-- 60_exceptions R172: which operation can answer which status. -/
def Obligations.StatusesPerOperation : Prop :=
  ∀ (i : Instr) (s t : State), s.par.Legal s.cfg → exec i s = .next t → t.busy = false →
    ∃ st ∈ statusesOf i, t.responses = s.responses ++ [st.code]

/-- 20_memory R62, 10_state R22: a transport that never answers holds the operation for ever, with the block busy, the state
what it last reached, and no timeout; while the block is busy the port accepts nothing and raises no error. -/
def Obligations.UnansweredCallHoldsForever : Prop :=
  (∀ (i : Instr) (s t : State), exec i s = .next t → t.busy = true →
      t.responses = s.responses ∧ ∀ n, Sys2Proof.core.run n t = .next t)
    ∧ (∀ (s : State) (r : List (Reply Bool)), s.env.ready = .never :: r →
      exec .send s = .next { s with
        busy := true, waiting := some .busReady, env := { s.env with ready := r }, draws := s.draws + 1 })
    ∧ ∀ s : State, s.busy = true → step s = .next s

/-- 10_state R22: every event of an operation happens while the block is busy. -/
def Obligations.EventsHappenWhileBusy : Prop :=
  ∀ (i : Instr) (s t : State), exec i s = .next t →
    ∃ new events, t.samples = s.samples ++ new ∧ t.trace = s.trace ++ events ∧ new.length = events.length
      ∧ ∀ x ∈ new, x.busy = true

/-! ## The Transmission Batcher (40_batcher) -/

/-- 40_batcher R100, R101, R103, R104: an append extends the open run of its tag, or closes another one and starts its own;
what a new run's byte buffer starts with. -/
def Obligations.AppendAddsPayload : Prop :=
  (∀ (t : Tag) (bs : List Byte) (s : State), bs ≠ [] →
    (∀ c, s.par.cap = some c →
      s.pendingBytes + (newRunBytes t s).length + bs.length ≤ c) →
    exec (appendOp t bs) s = .next { s with
      busy := false
      responses := s.responses ++ [0x00]
      runs := (match s.cur with
        | some r => if r.tag = t then s.runs else s.runs ++ [r]
        | none => s.runs)
      cur := some { tag := t, bytes := (match s.cur with
        | some r => if r.tag = t then r.bytes ++ bs else startBytes s.par.bus t ++ bs
        | none => startBytes s.par.bus t ++ bs) } })
    ∧ startBytes .i2c .cmd = [0x00] ∧ startBytes .i2c .data = [0x40]
    ∧ startBytes .spi .cmd = [] ∧ startBytes .spi .data = []

/-- 40_batcher R100, R103: an append of no bytes answers `OK` and changes nothing. -/
def Obligations.AppendOfNothingChangesNothing : Prop :=
  ∀ (t : Tag) (s : State),
    exec (appendOp t []) s = .next { s with busy := false, responses := s.responses ++ [0x00] }

/-- 40_batcher R102: an append past CAP is refused whole; without CAP it never is; a small CAP makes no block; the device
operations' batches always fit. -/
def Obligations.CapacityRefusesWhole : Prop :=
  (∀ (t : Tag) (bs : List Byte) (s : State) (c : Nat), bs ≠ [] → s.par.cap = some c →
      c < s.pendingBytes + (newRunBytes t s).length + bs.length →
      exec (appendOp t bs) s = .next { s with busy := false, responses := s.responses ++ [0x07] })
    ∧ (∀ (t : Tag) (bs : List Byte) (s u : State), s.par.cap = none → exec (appendOp t bs) s = .next u →
      u.responses = s.responses ++ [0x00])
    ∧ (∀ (p : Params) (a : ConfigArgs) (c : Nat), p.cap = some c →
      c < max (burst p (a.resolve p)).length p.bufLen + 1 → State.construct p a = none)
    ∧ (∀ (s : State) (t : Tag) (bs : List Byte), s.par.Legal s.cfg →
      bs = burst s.par s.cfg ∨ bs.length = s.par.bufLen →
      append t bs (batchReset s) = (.ok, { s with runs := [], cur := some (flushRun s.par t bs) }))

/-- 40_batcher R105, R106: a SET replaces the batch by its payload's run. -/
def Obligations.SetReplacesBatch : Prop :=
  ∀ (t : Tag) (bs : List Byte) (s : State),
    (bs ≠ [] → ∀ c, s.par.cap = some c → bs.length + (startBytes s.par.bus t).length ≤ c) →
    exec (setOp t bs) s = .next { s with
      busy := false
      responses := s.responses ++ [0x00]
      runs := []
      cur := if bs = [] then none else some { tag := t, bytes := startBytes s.par.bus t ++ bs } }

/-- 40_batcher R105, R106: a SET whose payload alone exceeds CAP keeps the old batch. -/
def Obligations.OverflowingSetKeepsBatch : Prop :=
  ∀ (t : Tag) (bs : List Byte) (s : State) (c : Nat), bs ≠ [] → s.par.cap = some c →
    c < bs.length + (startBytes s.par.bus t).length →
    exec (setOp t bs) s = .next { s with busy := false, responses := s.responses ++ [0x07] }

/-- 40_batcher R110 to R112, 30_encoding R80, R81: with every answer ok SEND writes every run, oldest first, and the batch is
empty. -/
def Obligations.SendWritesEveryRun : Prop :=
  ∀ (s : State) (r : List (Reply Bool)) (w : List (Reply WriteAnswer)) (d : List (Reply DriveAnswer)),
    s.batch ≠ [] → s.env.ready = .answer true :: r →
    s.env.writes = okWrites s.batch.length ++ w →
    s.env.drives = okDrives (drivesPerRun s.par.bus * s.batch.length) ++ d →
    exec .send s = .next { s.logged s.dev (.busReady true :: s.batch.flatMap (fun x => runEvents s.par.bus x .ok)) with
      busy := false
      responses := s.responses ++ [0x00]
      runs := []
      cur := none
      dc := levelAfterRuns s.par.bus s.batch s.dc
      env := { s.env with ready := r, writes := w, drives := d }
      draws := s.draws + 1 + (1 + drivesPerRun s.par.bus) * s.batch.length }

/-- 40_batcher R110, 70_reset R214: a SEND that finds the transport unavailable keeps the batch, whatever it holds. -/
def Obligations.UnavailableSendKeepsBatch : Prop :=
  ∀ (s : State) (r : List (Reply Bool)), s.env.ready = .answer false :: r →
    exec .send s = .next { s.logged s.dev [.busReady false] with
      busy := false
      responses := s.responses ++ [0x01]
      env := { s.env with ready := r }
      draws := s.draws + 1 }

/-- 40_batcher R114, R113: after a SEND that wrote, `OK` or `ERR_IO`, nothing is pending, and a SEND with nothing pending
writes nothing: it answers `ERR_EMPTY` if `BusReady()` is true and `ERR_UNAVAILABLE` if it is false. -/
def Obligations.SecondSendSendsNothing : Prop :=
  (∀ s t : State, exec .send s = .next t →
      (t.responses = s.responses ++ [0x00] ∨ t.responses = s.responses ++ [0x03]) → t.runs = [] ∧ t.cur = none)
    ∧ ∀ (s : State) (b : Bool) (r : List (Reply Bool)), s.runs = [] → s.cur = none → s.env.ready = .answer b :: r →
      exec .send s = .next { s.logged s.dev [.busReady b] with
        busy := false
        responses := s.responses ++ [if b then 0x02 else 0x01]
        env := { s.env with ready := r }
        draws := s.draws + 1 }

/-- 40_batcher R113: the first failing write or select drive ends SEND with `ERR_IO`; the runs not yet written are dropped
with the batch, and the device state does not change. -/
def Obligations.FailedSendDropsTheRest : Prop :=
  (∀ (s : State) (done later : List Run) (x : Run) (k : Nat) (r : List (Reply Bool)) (w : List (Reply WriteAnswer))
      (d : List (Reply DriveAnswer)), s.batch = done ++ x :: later → s.env.ready = .answer true :: r →
      s.env.writes = okWrites done.length ++ .answer (.fail k) :: w →
      s.env.drives = okDrives (drivesPerRun s.par.bus * (done.length + 1)) ++ d →
      exec .send s = .next { s.logged s.dev (.busReady true :: (done.flatMap (fun x => runEvents s.par.bus x .ok)
          ++ runEvents s.par.bus x (.fail (min k x.bytes.length)))) with
        busy := false
        responses := s.responses ++ [0x03]
        runs := []
        cur := none
        dc := levelAfterRuns s.par.bus (done ++ [x]) s.dc
        env := { s.env with ready := r, writes := w, drives := d }
        draws := s.draws + 1 + (1 + drivesPerRun s.par.bus) * (done.length + 1) })
    ∧ ∀ (s : State) (done later : List Run) (x : Run) (r : List (Reply Bool)) (w : List (Reply WriteAnswer))
      (d : List (Reply DriveAnswer)), s.par.bus = .spi → s.batch = done ++ x :: later → s.env.ready = .answer true :: r →
      s.env.writes = okWrites done.length ++ w →
      s.env.drives = okDrives done.length ++ .answer .fail :: d →
      exec .send s = .next { s.logged s.dev (.busReady true :: (done.flatMap (fun x => runEvents .spi x .ok)
          ++ [selectEvent x.tag .fail])) with
        busy := false
        responses := s.responses ++ [0x03]
        runs := []
        cur := none
        dc := .unknown
        env := { s.env with ready := r, writes := w, drives := d }
        draws := s.draws + 2 + 2 * done.length }

/-- 20_memory R56, 40_batcher R111 to R113: the panel receives the batch's bytes in order, or, when a write fails, those of
the runs before it and the drawn part of its own. -/
def Obligations.PanelReceivesBatchInOrder : Prop :=
  (∀ s t : State, exec .send s = .next t → t.responses = s.responses ++ [0x00] →
      busStream t.trace = busStream s.trace ++ s.batch.flatMap Run.bytes)
    ∧ ∀ s t : State, exec .send s = .next t → t.responses = s.responses ++ [0x03] →
      ∃ part, part <+: s.batch.flatMap Run.bytes ∧ busStream t.trace = busStream s.trace ++ part

/-- 40_batcher R107, R115: BATCH_RESET discards all pending state and sends nothing. -/
def Obligations.BatchResetDiscards : Prop :=
  ∀ s : State, exec .batchReset s = .next { s with
    busy := false, responses := s.responses ++ [0x00], runs := [], cur := none }

/-- 40_batcher R116, the batching law: after appends that all answered `OK` the batch is the maximal same-tag runs of the
non-empty payloads, and a SEND that answers `OK` makes one write for each, in order. -/
def Obligations.AppendsBecomeMaximalRuns : Prop :=
  ∀ (xs : List (Tag × List Byte)) (s t : State), s.runs = [] → s.cur = none → AppendsAnswerOk xs s t →
    t.batch = (maximalRuns xs).map (fun x => { tag := x.1, bytes := frameBytes s.par.bus x.1 x.2 })
      ∧ ∀ u, exec .send t = .next u → u.responses = t.responses ++ [0x00] →
        u.trace = s.trace ++ .busReady true :: (maximalRuns xs).flatMap
          (fun x => selectEvents s.par.bus x.1 .ok ++ [.busWrite (frameBytes s.par.bus x.1 x.2) .ok])

/-- 40_batcher R108: the batcher operations do the same in every device state, and leave it alone. -/
def Obligations.BatcherIgnoresDeviceState : Prop :=
  ∀ (i : Instr) (s t : State) (d : DeviceState),
    (i = .send ∨ i = .batchReset ∨ ∃ tag bs, i = appendOp tag bs ∨ i = setOp tag bs) → exec i s = .next t →
    t.dev = s.dev ∧ ∃ x, exec i { s with dev := d } = .next { t with dev := d, samples := x }

/-- 40_batcher R103 to R108, R115: what the operations without a transport event leave unchanged, memory included. -/
def Obligations.BatchOperationsFrame : Prop :=
  ∀ (i : Instr) (s t : State), (i = .batchReset ∨ ∃ tag bs, i = appendOp tag bs ∨ i = setOp tag bs) →
    exec i s = .next t →
    t = { s with busy := false, runs := t.runs, cur := t.cur, responses := t.responses }
      ∧ ∀ a, Memory.read t.buf a = Memory.read s.buf a

/-- 40_batcher R110: what SEND leaves unchanged however it ends: the device state, the buffer, the reset line, the
configuration and the request stream; under I2C the select line's level too (10_state R40). -/
def Obligations.SendFrame : Prop :=
  ∀ s t : State, exec .send s = .next t →
    t = { s with busy := t.busy, runs := t.runs, cur := t.cur, dc := t.dc, trace := t.trace, responses := t.responses
                 samples := t.samples, waiting := t.waiting, env := t.env, draws := t.draws }
      ∧ (s.par.bus = .i2c → t.dc = s.dc) ∧ ∀ a, Memory.read t.buf a = Memory.read s.buf a

/-! ## The Device State Machine and INIT (41_device) -/

/-- 41_device R131, R145: with every answer ok INIT's trace is R145's, and the device is Ready. -/
def Obligations.InitReachesReady : Prop :=
  ∀ (s : State) (r : List (Reply Bool)) (w : List (Reply WriteAnswer)) (d : List (Reply DriveAnswer)),
    s.par.Legal s.cfg → s.dev = .unknown →
    s.env.ready = .answer true :: .answer true :: .answer true :: r →
    s.env.writes = okWrites 2 ++ w →
    s.env.drives = okDrives (pulseDrives s.par + drivesPerRun s.par.bus * 2) ++ d →
    exec .init s = .next { s.logged .initializing (bootEvents s.par
          ++ .busReady true :: runEvents s.par.bus (flushRun s.par .cmd (burst s.par s.cfg)) .ok
          ++ .busReady true :: runEvents s.par.bus (flushRun s.par .data (initialImage s.par)) .ok
          ++ [.delay .settle s.par.tSettle]) with
      busy := false
      responses := s.responses ++ [0x00]
      dev := .ready
      runs := []
      cur := none
      buf := Memory.ofBytes (initialImage s.par)
      rst := levelAfterPulse s.par s.rst
      dc := if s.par.bus = .spi then .high else s.dc
      env := { s.env with ready := r, writes := w, drives := d }
      draws := s.draws + 5 + pulseDrives s.par + drivesPerRun s.par.bus * 2 }

/-- 41_device R138: outside Unknown INIT answers `ERR_STATE`, with no change and no event. -/
def Obligations.InitOnlyInUnknown : Prop :=
  ∀ s : State, s.dev ≠ .unknown →
    exec .init s = .next { s with busy := false, responses := s.responses ++ [0x04] }

/-- 41_device R134: an unusable transport aborts INIT before any reset or bus event. -/
def Obligations.UnusableTransportAbortsInit : Prop :=
  ∀ (s : State) (r : List (Reply Bool)), s.dev = .unknown → s.env.ready = .answer false :: r →
    exec .init s = .next { s.logged .initializing [.busReady false] with
      busy := false
      responses := s.responses ++ [0x01]
      dev := .aborted
      env := { s.env with ready := r }
      draws := s.draws + 1 }

/-- 41_device R132: a failing drive of the reset line, either one, aborts INIT with `ERR_IO`. -/
def Obligations.FailedResetDriveAbortsInit : Prop :=
  (∀ (s : State) (r : List (Reply Bool)) (d : List (Reply DriveAnswer)), s.dev = .unknown →
      s.par.hasResetLine = true → s.env.ready = .answer true :: r → s.env.drives = .answer .fail :: d →
      exec .init s = .next { s.logged .initializing [.busReady true, .assertReset .fail] with
        busy := false
        responses := s.responses ++ [0x03]
        dev := .aborted
        rst := .unknown
        env := { s.env with ready := r, drives := d }
        draws := s.draws + 2 })
    ∧ ∀ (s : State) (r : List (Reply Bool)) (d : List (Reply DriveAnswer)), s.dev = .unknown →
      s.par.hasResetLine = true → s.env.ready = .answer true :: r →
      s.env.drives = .answer .ok :: .answer .fail :: d →
      exec .init s = .next { s.logged .initializing
          [.busReady true, .assertReset .ok, .delay .rstLow s.par.tRstLow, .releaseReset .fail] with
        busy := false
        responses := s.responses ++ [0x03]
        dev := .aborted
        rst := .unknown
        env := { s.env with ready := r, drives := d }
        draws := s.draws + 3 }

/-- 41_device R135, R143, 60_exceptions R176: if the burst is not sent (the transport is not ready, the write fails, or under
SPI the select drive fails) INIT aborts with SEND's status and the buffer keeps its value; after `ERR_UNAVAILABLE` the batch
holds the burst's run, after `ERR_IO` it is empty. -/
def Obligations.UnsentBurstAbortsInit : Prop :=
  (∀ (s : State) (r : List (Reply Bool)) (d : List (Reply DriveAnswer)),
      s.par.Legal s.cfg → s.dev = .unknown → s.env.ready = .answer true :: .answer false :: r →
      s.env.drives = okDrives (pulseDrives s.par) ++ d →
      exec .init s = .next { s.logged .initializing (bootEvents s.par ++ [.busReady false]) with
        busy := false
        responses := s.responses ++ [0x01]
        dev := .aborted
        runs := []
        cur := some (flushRun s.par .cmd (burst s.par s.cfg))
        rst := levelAfterPulse s.par s.rst
        env := { s.env with ready := r, drives := d }
        draws := s.draws + 2 + pulseDrives s.par })
    ∧ (∀ (s : State) (k : Nat) (r : List (Reply Bool)) (w : List (Reply WriteAnswer)) (d : List (Reply DriveAnswer)),
      s.par.Legal s.cfg → s.dev = .unknown → s.env.ready = .answer true :: .answer true :: r →
      s.env.writes = .answer (.fail k) :: w →
      s.env.drives = okDrives (pulseDrives s.par + drivesPerRun s.par.bus) ++ d →
      exec .init s = .next { s.logged .initializing (bootEvents s.par
            ++ .busReady true :: runEvents s.par.bus (flushRun s.par .cmd (burst s.par s.cfg))
              (.fail (min k (frameBytes s.par.bus .cmd (burst s.par s.cfg)).length))) with
        busy := false
        responses := s.responses ++ [0x03]
        dev := .aborted
        runs := []
        cur := none
        rst := levelAfterPulse s.par s.rst
        dc := if s.par.bus = .spi then .low else s.dc
        env := { s.env with ready := r, writes := w, drives := d }
        draws := s.draws + 3 + pulseDrives s.par + drivesPerRun s.par.bus })
    ∧ ∀ (s : State) (r : List (Reply Bool)) (d : List (Reply DriveAnswer)),
      s.par.Legal s.cfg → s.dev = .unknown → s.par.bus = .spi → s.env.ready = .answer true :: .answer true :: r →
      s.env.drives = okDrives (pulseDrives s.par) ++ .answer .fail :: d →
      exec .init s = .next { s.logged .initializing (bootEvents s.par ++ [.busReady true, .selectCmd .fail]) with
        busy := false
        responses := s.responses ++ [0x03]
        dev := .aborted
        runs := []
        cur := none
        rst := levelAfterPulse s.par s.rst
        dc := .unknown
        env := { s.env with ready := r, drives := d }
        draws := s.draws + 3 + pulseDrives s.par }

/-- 41_device R136, R142, R143, 60_exceptions R176: if the initial image is not sent (its write fails, the transport is not
ready, or under SPI the select drive fails) INIT aborts with SEND's status and the buffer holds the image; after
`ERR_UNAVAILABLE` the batch holds the image's run, after `ERR_IO` it is empty. -/
def Obligations.UnsentImageAbortsInit : Prop :=
  (∀ (s : State) (k : Nat) (r : List (Reply Bool)) (w : List (Reply WriteAnswer)) (d : List (Reply DriveAnswer)),
    s.par.Legal s.cfg → s.dev = .unknown →
    s.env.ready = .answer true :: .answer true :: .answer true :: r →
    s.env.writes = .answer .ok :: .answer (.fail k) :: w →
    s.env.drives = okDrives (pulseDrives s.par + drivesPerRun s.par.bus * 2) ++ d →
    exec .init s = .next { s.logged .initializing (bootEvents s.par
          ++ .busReady true :: runEvents s.par.bus (flushRun s.par .cmd (burst s.par s.cfg)) .ok
          ++ .busReady true :: runEvents s.par.bus (flushRun s.par .data (initialImage s.par))
              (.fail (min k (frameBytes s.par.bus .data (initialImage s.par)).length))) with
      busy := false
      responses := s.responses ++ [0x03]
      dev := .aborted
      runs := []
      cur := none
      buf := Memory.ofBytes (initialImage s.par)
      rst := levelAfterPulse s.par s.rst
      dc := if s.par.bus = .spi then .high else s.dc
      env := { s.env with ready := r, writes := w, drives := d }
      draws := s.draws + 5 + pulseDrives s.par + drivesPerRun s.par.bus * 2 })
    ∧ (∀ (s : State) (r : List (Reply Bool)) (w : List (Reply WriteAnswer)) (d : List (Reply DriveAnswer)),
      s.par.Legal s.cfg → s.dev = .unknown →
      s.env.ready = .answer true :: .answer true :: .answer false :: r → s.env.writes = .answer .ok :: w →
      s.env.drives = okDrives (pulseDrives s.par + drivesPerRun s.par.bus) ++ d →
      exec .init s = .next { s.logged .initializing (bootEvents s.par
            ++ .busReady true :: runEvents s.par.bus (flushRun s.par .cmd (burst s.par s.cfg)) .ok
            ++ [.busReady false]) with
        busy := false
        responses := s.responses ++ [0x01]
        dev := .aborted
        runs := []
        cur := some (flushRun s.par .data (initialImage s.par))
        buf := Memory.ofBytes (initialImage s.par)
        rst := levelAfterPulse s.par s.rst
        dc := if s.par.bus = .spi then .low else s.dc
        env := { s.env with ready := r, writes := w, drives := d }
        draws := s.draws + 4 + pulseDrives s.par + drivesPerRun s.par.bus })
    ∧ ∀ (s : State) (r : List (Reply Bool)) (w : List (Reply WriteAnswer)) (d : List (Reply DriveAnswer)),
      s.par.Legal s.cfg → s.dev = .unknown → s.par.bus = .spi →
      s.env.ready = .answer true :: .answer true :: .answer true :: r → s.env.writes = .answer .ok :: w →
      s.env.drives = okDrives (pulseDrives s.par + 1) ++ .answer .fail :: d →
      exec .init s = .next { s.logged .initializing (bootEvents s.par
            ++ .busReady true :: runEvents .spi (flushRun s.par .cmd (burst s.par s.cfg)) .ok
            ++ [.busReady true, .selectData .fail]) with
        busy := false
        responses := s.responses ++ [0x03]
        dev := .aborted
        runs := []
        cur := none
        buf := Memory.ofBytes (initialImage s.par)
        rst := levelAfterPulse s.par s.rst
        dc := .unknown
        env := { s.env with ready := r, writes := w, drives := d }
        draws := s.draws + 6 + pulseDrives s.par }

/-- 41_device R142: the startup image is used only if its length is W·P, and zeros otherwise; the image fills the buffer. -/
def Obligations.InitialImageFitsBuffer : Prop :=
  ∀ s : State, (initialImage s.par).length = s.par.bufLen
    ∧ (∀ img, s.par.startupImage = some img → img.length = s.par.bufLen → initialImage s.par = img)
    ∧ (∀ img, s.par.startupImage = some img → img.length ≠ s.par.bufLen →
        initialImage s.par = List.replicate s.par.bufLen 0)
    ∧ (s.par.startupImage = none → initialImage s.par = List.replicate s.par.bufLen 0)
    ∧ { s with buf := Memory.ofBytes (initialImage s.par) }.bufBytes = initialImage s.par

/-- 41_device R130, R139, R145: an INIT that ends leaves the device Ready with `OK` and R145's trace, whatever drew its
answers, or Aborted with `ERR_UNAVAILABLE` or `ERR_IO`; one that is held for ever leaves it Initializing. -/
def Obligations.InitEndsReadyOrAborted : Prop :=
  ∀ s t : State, s.par.Legal s.cfg → s.dev = .unknown → exec .init s = .next t →
    (t.busy = false ∧ t.dev = .ready ∧ t.responses = s.responses ++ [0x00]
        ∧ t.trace = s.trace ++ (bootEvents s.par
          ++ .busReady true :: runEvents s.par.bus (flushRun s.par .cmd (burst s.par s.cfg)) .ok
          ++ .busReady true :: runEvents s.par.bus (flushRun s.par .data (initialImage s.par)) .ok
          ++ [.delay .settle s.par.tSettle]))
      ∨ (t.busy = false ∧ t.dev = .aborted
        ∧ (t.responses = s.responses ++ [0x01] ∨ t.responses = s.responses ++ [0x03]))
      ∨ (t.busy = true ∧ t.dev = .initializing ∧ t.responses = s.responses)

/-- 41_device R133, R132: before INIT's first write come the post-reset wait and, with a reset line, the whole pulse. -/
def Obligations.InitWaitsBeforeWriting : Prop :=
  ∀ (s t : State) (new before rest : List Event) (bytes : List Byte) (a : WriteAnswer),
    exec .init s = .next t → t.trace = s.trace ++ new → new = before ++ .busWrite bytes a :: rest →
    bootEvents s.par <+: before

/-- 10_state R23, 92 D39: while an INIT runs the state output reads Initializing and busy. -/
def Obligations.StateOutputReadsInitializing : Prop :=
  ∀ s t : State, s.dev = .unknown → exec .init s = .next t →
    ∃ n, t.samples = s.samples ++ List.replicate n { dev := .initializing, busy := true }
      ∧ t.trace.length = s.trace.length + n

/-- 40_batcher R118, 41_device R144, 70_reset R215: a device operation's trace, answer and device state do not depend on the
bytes the host left pending. -/
def Obligations.PendingHostBytesAreNeverSent : Prop :=
  ∀ (i : Instr) (s t : State) (rs : List Run) (c : Option Run), (i = .init ∨ i = .display ∨ i = .clear) →
    exec i s = .next t →
    ∃ rs' c', exec i { s with runs := rs, cur := c } = .next { t with runs := rs', cur := c' }

/-- 41_device R131: what INIT leaves unchanged however it ends: the configuration and the request stream, the reset line's
level if there is no reset line, the select line's level under I2C, and every byte outside the DeviceBuffer. -/
def Obligations.InitFrame : Prop :=
  ∀ s t : State, exec .init s = .next t →
    t = { s with dev := t.dev, busy := t.busy, runs := t.runs, cur := t.cur, buf := t.buf, dc := t.dc, rst := t.rst
                 trace := t.trace, responses := t.responses, samples := t.samples, waiting := t.waiting, env := t.env
                 draws := t.draws }
      ∧ (s.par.bus = .i2c → t.dc = s.dc) ∧ (s.par.hasResetLine = false → t.rst = s.rst)
      ∧ (Memory.within s.par.bufLen s.buf = true → ∀ a, s.par.bufLen ≤ a → Memory.read t.buf a = Memory.read s.buf a)

/-! ## The Buffer Transcoder, DISPLAY and CLEAR (42_transcoder) -/

/-- 42_transcoder R150, R151: the pixel decision's closed forms, its ties, and the references themselves. -/
def Obligations.PixelDecisionClosedForm : Prop :=
  ∀ (p : Params) (v : Byte),
    (p.bgRef.toNat < p.fgRef.toNat → (pixelOn p v = true ↔ p.fgRef.toNat + p.bgRef.toNat < 2 * v.toNat))
      ∧ (p.fgRef.toNat < p.bgRef.toNat → (pixelOn p v = true ↔ 2 * v.toNat < p.fgRef.toNat + p.bgRef.toNat))
      ∧ (p.fgRef = 0xFF → p.bgRef = 0x00 → (pixelOn p v = true ↔ 128 ≤ v.toNat))
      ∧ (p.fgRef = 0xFE → p.bgRef = 0x00 → v = 127 → pixelOn p v = false)
      ∧ (p.fgRef ≠ p.bgRef → (distance v p.fgRef = distance v p.bgRef ↔ 2 * v.toNat = p.fgRef.toNat + p.bgRef.toNat))
      ∧ (2 * v.toNat = p.fgRef.toNat + p.bgRef.toNat → pixelOn p v = false)
      ∧ (p.fgRef ≠ p.bgRef → pixelOn p p.fgRef = true ∧ pixelOn p p.bgRef = false)

/-- 42_transcoder R154: each output bit is the decision on its pixel, for every page, column and row of the page. -/
def Obligations.TranscodePacksPixels : Prop :=
  ∀ (p : Params) (px : List Byte), (transcode p px).length = p.width * (p.height / 8)
    ∧ ∀ page col r, page < p.height / 8 → col < p.width → r < 8 →
      ((transcode p px).getD (page * p.width + col) 0).getLsbD r
        = pixelOn p (px.getD ((page * 8 + r) * p.width + col) 0)

/-- 42_transcoder R155, R156: a DISPLAY of a fitting snapshot with every answer ok commits the packed image and sends it. -/
def Obligations.DisplaySendsPackedImage : Prop :=
  ∀ (s : State) (x : Snapshot) (xs : List Snapshot) (r : List (Reply Bool)) (w : List (Reply WriteAnswer))
    (d : List (Reply DriveAnswer)), s.par.Legal s.cfg → s.dev = .ready →
    s.env.pixels = x :: xs → x.width = s.par.width → x.height = s.par.height →
    x.px.length = s.par.width * s.par.height →
    s.env.ready = .answer true :: r → s.env.writes = .answer .ok :: w →
    s.env.drives = okDrives (drivesPerRun s.par.bus) ++ d →
    exec .display s = .next { s.logged .ready (.getPixels x :: .busReady true
          :: runEvents s.par.bus (flushRun s.par .data (transcode s.par x.px)) .ok) with
      busy := false
      responses := s.responses ++ [0x00]
      runs := []
      cur := none
      buf := Memory.ofBytes (transcode s.par x.px)
      dc := if s.par.bus = .spi then .high else s.dc
      env := { ready := r, writes := w, drives := d, pixels := xs }
      draws := s.draws + 3 + drivesPerRun s.par.bus }

/-- 42_transcoder R153: a snapshot that does not match the panel is refused, and nothing but the read happens. -/
def Obligations.MismatchedSurfaceIsRefused : Prop :=
  ∀ (s : State) (x : Snapshot) (xs : List Snapshot), s.dev = .ready → s.env.pixels = x :: xs →
    (x.width ≠ s.par.width ∨ x.height ≠ s.par.height ∨ x.px.length ≠ s.par.width * s.par.height) →
    exec .display s = .next { s.logged .ready [.getPixels x] with
      busy := false
      responses := s.responses ++ [0x05]
      env := { s.env with pixels := xs }
      draws := s.draws + 1 }

/-- 42_transcoder R157, 40_batcher R110, R113: a DISPLAY whose send fails (the transport is not ready, the write fails, or
under SPI the select drive fails) keeps the new image and the device state; the batch is empty after `ERR_IO`
and holds the image's run after `ERR_UNAVAILABLE`. -/
def Obligations.UnsentImageStaysInBuffer : Prop :=
  ∀ (s : State) (x : Snapshot) (xs : List Snapshot), s.par.Legal s.cfg → s.dev = .ready →
    s.env.pixels = x :: xs → x.width = s.par.width → x.height = s.par.height →
    x.px.length = s.par.width * s.par.height →
    (∀ r : List (Reply Bool), s.env.ready = .answer false :: r →
      exec .display s = .next { s.logged .ready [.getPixels x, .busReady false] with
        busy := false
        responses := s.responses ++ [0x01]
        runs := []
        cur := some (flushRun s.par .data (transcode s.par x.px))
        buf := Memory.ofBytes (transcode s.par x.px)
        env := { s.env with ready := r, pixels := xs }
        draws := s.draws + 2 })
      ∧ (∀ (k : Nat) (r : List (Reply Bool)) (w : List (Reply WriteAnswer)) (d : List (Reply DriveAnswer)),
        s.env.ready = .answer true :: r → s.env.writes = .answer (.fail k) :: w →
        s.env.drives = okDrives (drivesPerRun s.par.bus) ++ d →
        exec .display s = .next { s.logged .ready (.getPixels x :: .busReady true
              :: runEvents s.par.bus (flushRun s.par .data (transcode s.par x.px))
                (.fail (min k (frameBytes s.par.bus .data (transcode s.par x.px)).length))) with
          busy := false
          responses := s.responses ++ [0x03]
          runs := []
          cur := none
          buf := Memory.ofBytes (transcode s.par x.px)
          dc := if s.par.bus = .spi then .high else s.dc
          env := { ready := r, writes := w, drives := d, pixels := xs }
          draws := s.draws + 3 + drivesPerRun s.par.bus })
      ∧ ∀ (r : List (Reply Bool)) (d : List (Reply DriveAnswer)), s.par.bus = .spi →
        s.env.ready = .answer true :: r → s.env.drives = .answer .fail :: d →
        exec .display s = .next { s.logged .ready [.getPixels x, .busReady true, .selectData .fail] with
          busy := false
          responses := s.responses ++ [0x03]
          runs := []
          cur := none
          buf := Memory.ofBytes (transcode s.par x.px)
          dc := .unknown
          env := { s.env with ready := r, drives := d, pixels := xs }
          draws := s.draws + 3 }

/-- 20_memory R51, 42_transcoder R154 to R156: after a DISPLAY that passed its checks, bit `row mod 8` of the buffer byte of
page `row / 8` is the decision on the snapshot's pixel, at every row and column. -/
def Obligations.DisplayedBitIsPixel : Prop :=
  ∀ (s t : State) (x : Snapshot) (xs : List Snapshot), s.par.Legal s.cfg → s.dev = .ready → s.env.pixels = x :: xs →
    x.width = s.par.width → x.height = s.par.height → x.px.length = s.par.width * s.par.height →
    exec .display s = .next t →
    ∀ row col, row < s.par.height → col < s.par.width →
      (Memory.read t.buf (row / 8 * s.par.width + col)).getLsbD (row % 8)
        = pixelOn s.par (x.px.getD (row * s.par.width + col) 0)

/-- 42_transcoder R158: an all-foreground surface packs to 0xFF bytes and an all-background one to zeros, on every panel. -/
def Obligations.UniformSurfacePacksUniformly : Prop :=
  ∀ (p : Params) (c : ControllerConfig) (px : List Byte), p.Legal c → px.length = p.width * p.height →
    ((∀ v ∈ px, v = p.fgRef) → transcode p px = List.replicate (p.width * (p.height / 8)) 0xFF)
      ∧ ((∀ v ∈ px, v = p.bgRef) → transcode p px = List.replicate (p.width * (p.height / 8)) 0x00)

/-- 42_transcoder R159, 90_conflicts C2: on 128×64, eight foreground rows of column 0 give byte 0 = 0xFF; one foreground row
gives 0x01; every other byte is zero. -/
def Obligations.FirstColumnScenario : Prop :=
  ∀ (p : Params) (px : List Byte) (n : Nat), p.width = 128 → p.height = 64 → p.fgRef ≠ p.bgRef →
    px.length = 8192 → (n = 8 ∨ n = 1) →
    (∀ row col, row < 64 → col < 128 →
      px.getD (row * 128 + col) 0 = if row < n ∧ col = 0 then p.fgRef else p.bgRef) →
    transcode p px = (if n = 8 then 0xFF else 0x01) :: List.replicate 1023 0x00

/-- 42_transcoder R162: outside Ready, DISPLAY and CLEAR answer `ERR_STATE`, with no change and no event. -/
def Obligations.DisplayAndClearNeedReady : Prop :=
  ∀ s : State, s.dev ≠ .ready →
    exec .display s = .next { s with busy := false, responses := s.responses ++ [0x04] }
      ∧ exec .clear s = .next { s with busy := false, responses := s.responses ++ [0x04] }

/-- 42_transcoder R160: a CLEAR with every answer ok zeroes the buffer, clears the surface and sends the zeros. -/
def Obligations.ClearSendsZeros : Prop :=
  ∀ (s : State) (r : List (Reply Bool)) (w : List (Reply WriteAnswer)) (d : List (Reply DriveAnswer)),
    s.par.Legal s.cfg → s.dev = .ready → s.env.ready = .answer true :: r → s.env.writes = .answer .ok :: w →
    s.env.drives = okDrives (drivesPerRun s.par.bus) ++ d →
    exec .clear s = .next { s.logged .ready (.surfaceClear :: .busReady true
          :: runEvents s.par.bus (flushRun s.par .data (List.replicate s.par.bufLen 0)) .ok) with
      busy := false
      responses := s.responses ++ [0x00]
      runs := []
      cur := none
      buf := []
      dc := if s.par.bus = .spi then .high else s.dc
      env := { s.env with ready := r, writes := w, drives := d }
      draws := s.draws + 2 + drivesPerRun s.par.bus }

/-- 42_transcoder R161, 40_batcher R113: in Ready a CLEAR leaves every buffer byte zero whatever happens, and makes one send:
one write if the transport is ready (and its select drive answers ok), with `OK` or `ERR_IO` as the write answers; none and
`ERR_UNAVAILABLE` if it is not ready; none and `ERR_IO` if under SPI the select drive fails. -/
def Obligations.ClearAlwaysZeroes : Prop :=
  (∀ s t : State, s.dev = .ready → exec .clear s = .next t →
      t.bufBytes = List.replicate s.par.bufLen 0 ∧ ∀ a, Memory.read t.buf a = 0)
    ∧ (∀ (s : State) (r : List (Reply Bool)) (a : WriteAnswer) (w : List (Reply WriteAnswer))
      (d : List (Reply DriveAnswer)), s.par.Legal s.cfg → s.dev = .ready → s.env.ready = .answer true :: r →
      s.env.writes = .answer a :: w → s.env.drives = okDrives (drivesPerRun s.par.bus) ++ d →
      exec .clear s = .next { s.logged .ready (.surfaceClear :: .busReady true
            :: runEvents s.par.bus (flushRun s.par .data (List.replicate s.par.bufLen 0))
              (clampAnswer (frameBytes s.par.bus .data (List.replicate s.par.bufLen 0)) a)) with
        busy := false
        responses := s.responses ++ [if a = .ok then 0x00 else 0x03]
        runs := []
        cur := none
        buf := []
        dc := if s.par.bus = .spi then .high else s.dc
        env := { s.env with ready := r, writes := w, drives := d }
        draws := s.draws + 2 + drivesPerRun s.par.bus })
    ∧ (∀ (s : State) (r : List (Reply Bool)) (d : List (Reply DriveAnswer)), s.par.Legal s.cfg → s.dev = .ready →
      s.par.bus = .spi → s.env.ready = .answer true :: r → s.env.drives = .answer .fail :: d →
      exec .clear s = .next { s.logged .ready [.surfaceClear, .busReady true, .selectData .fail] with
        busy := false
        responses := s.responses ++ [0x03]
        runs := []
        cur := none
        buf := []
        dc := .unknown
        env := { s.env with ready := r, drives := d }
        draws := s.draws + 2 })
    ∧ ∀ (s : State) (r : List (Reply Bool)), s.par.Legal s.cfg → s.dev = .ready → s.env.ready = .answer false :: r →
      exec .clear s = .next { s.logged .ready [.surfaceClear, .busReady false] with
        busy := false
        responses := s.responses ++ [0x01]
        runs := []
        cur := some (flushRun s.par .data (List.replicate s.par.bufLen 0))
        buf := []
        env := { s.env with ready := r }
        draws := s.draws + 1 }

/-- 42_transcoder R155, R160: what DISPLAY and CLEAR leave unchanged however they end: the device state, the reset line, the
configuration, the request stream, the select line's level under I2C, and every byte outside the DeviceBuffer. -/
def Obligations.DisplayAndClearFrame : Prop :=
  ∀ (i : Instr) (s t : State), (i = .display ∨ i = .clear) → exec i s = .next t →
    t = { s with busy := t.busy, runs := t.runs, cur := t.cur, buf := t.buf, dc := t.dc, trace := t.trace
                 responses := t.responses, samples := t.samples, waiting := t.waiting, env := t.env, draws := t.draws }
      ∧ (s.par.bus = .i2c → t.dc = s.dc)
      ∧ (Memory.within s.par.bufLen s.buf = true → ∀ a, s.par.bufLen ≤ a → Memory.read t.buf a = Memory.read s.buf a)

/-! ## Configuration, construction and reset (00_scope, 10_state, 30_encoding, 70_reset) -/

/-- 30_encoding R85, R83: the default burst has 18 entries and 31 bytes, 32 with the I2C control byte, 31 under SPI. The
default table is general knowledge in the spec's own words (log 9). -/
def Obligations.DefaultBurstLength : Prop :=
  ∀ c : ControllerConfig, c.standardBurst.length = 18 ∧ c.standardBurst.flatten.length = 31
    ∧ (frameBytes .i2c .cmd c.standardBurst.flatten).length = 32
    ∧ (frameBytes .i2c .cmd c.standardBurst.flatten).head? = some 0x00
    ∧ frameBytes .spi .cmd c.standardBurst.flatten = c.standardBurst.flatten
    ∧ selectEvents .spi .cmd .ok = [.selectCmd .ok] ∧ selectEvents .i2c .cmd .ok = []

/-- 10_state R26, R27, R29: the configuration registers' defaults hold as numbers, and an argument overrides them. That both
window starts default to 0 is the spec's own reading of its source, not the source's word (R26, 92 D10). -/
def Obligations.ConfigurationDefaults : Prop :=
  ∀ (p : Params) (a : ConfigArgs), 1 ≤ p.width → p.width ≤ 256 → 8 ≤ p.height → p.height ≤ 256 →
    (a.multiplex = none → (a.resolve p).multiplex.toNat = p.height - 1)
      ∧ (a.endPage = none → (a.resolve p).endPage.toNat = p.height / 8 - 1)
      ∧ (a.endCol = none → (a.resolve p).endCol.toNat = p.width - 1)
      ∧ (a.startPage = none → (a.resolve p).startPage = 0) ∧ (a.startCol = none → (a.resolve p).startCol = 0)
      ∧ (∀ v, a.multiplex = some v → (a.resolve p).multiplex = v) ∧ (∀ v, a.endPage = some v → (a.resolve p).endPage = v)
      ∧ (∀ v, a.endCol = some v → (a.resolve p).endCol = v) ∧ (∀ v, a.startPage = some v → (a.resolve p).startPage = v)
      ∧ ∀ v, a.startCol = some v → (a.resolve p).startCol = v

/-- 00_scope R6, R8, 10_state R27, 30_encoding R83, R86, 70_reset R200: construction makes no block exactly if a constraint is
broken; the block it makes otherwise has every field at its reset value. How an entry of a burst encoding keeps the bytes of
R86 (the last four cases) is DEDUCED (log 10), and that no entry is empty is the spec's decision D12. -/
def Obligations.ConstructionChecksParameters : Prop :=
  (∀ (p : Params) (a : ConfigArgs), State.construct p a = none ↔
      (p.width = 0 ∨ 256 < p.width ∨ p.height < 8 ∨ 256 < p.height ∨ p.height % 8 ≠ 0 ∨ p.fgRef = p.bgRef
        ∨ p.tRstLow < 3000 ∨ p.tRstWait < 100000000 ∨ a.addrMode = 3
        ∨ (∃ c, p.cap = some c ∧ c < max (burst p (a.resolve p)).length p.bufLen + 1)
        ∨ (burstEntries p (a.resolve p)).length ≠ 18 ∨ [] ∈ burstEntries p (a.resolve p)
        ∨ ¬ List.Sublist [(a.resolve p).multiplex] ((burstEntries p (a.resolve p)).getD 2 [])
        ∨ ¬ List.Sublist [(a.resolve p).startPage, (a.resolve p).endPage] ((burstEntries p (a.resolve p)).getD 10 [])
        ∨ ¬ List.Sublist [(a.resolve p).startCol, (a.resolve p).endCol] ((burstEntries p (a.resolve p)).getD 11 [])
        ∨ ¬ List.Sublist [(a.resolve p).chargePumpSetting] ((burstEntries p (a.resolve p)).getD 16 [])))
    ∧ ∀ (p : Params) (a : ConfigArgs) (s : State), State.construct p a = some s →
      s.par = p ∧ s.cfg = a.resolve p ∧ s.dev = .unknown ∧ s.busy = false ∧ s.runs = [] ∧ s.cur = none
      ∧ s.bufBytes = List.replicate (p.width * (p.height / 8)) 0 ∧ s.dc = .unknown ∧ s.rst = .unknown ∧ s.trace = []
      ∧ s.responses = [] ∧ s.rx = []

/-- 70_reset R200: the state after reset, a block that construction makes. The parameter set is the model's choice (log 1);
no clause rests on it but the first. -/
def Obligations.ResetIsAConstructedBlock : Prop :=
  State.construct resetParams resetConfigArgs = some State.reset
    ∧ State.reset.dev = .unknown ∧ State.reset.busy = false ∧ State.reset.runs = [] ∧ State.reset.cur = none
    ∧ State.reset.buf = [] ∧ State.reset.dc = .unknown ∧ State.reset.rst = .unknown ∧ State.reset.trace = []
    ∧ State.reset.responses = []

/-! ## Whole-machine rules -/

/-- 10_state R24, 41_device R130: no run of steps leaves Aborted or Ready. -/
def Obligations.ReadyAndAbortedArePermanent : Prop :=
  ∀ (n : Nat) (s t : State), (s.dev = .ready ∨ s.dev = .aborted) → Sys2Proof.core.run n s = .next t → t.dev = s.dev

/-- 41_device R130: only an INIT accepted in Unknown moves the device state, and where it leads. -/
def Obligations.OnlyInitMovesDeviceState : Prop :=
  ∀ s t : State, step s = .next t → t.dev ≠ s.dev →
    s.dev = .unknown ∧ (∃ rest, decode s.rx = .frame .init rest)
      ∧ (t.dev = .ready ∨ t.dev = .aborted ∨ (t.dev = .initializing ∧ t.busy = true))

/-- 10_state R42, 20_memory R67; 10_state R30, 00_scope R6: no step removes or reorders an event, a response or a sample, and
no step changes a parameter or a configuration register. -/
def Obligations.StepAppendsAndKeepsConfiguration : Prop :=
  ∀ s t : State, step s = .next t → s.trace <+: t.trace ∧ s.responses <+: t.responses ∧ s.samples <+: t.samples
    ∧ t.par = s.par ∧ t.cfg = s.cfg

/-- 10_state R34, R35, R40, R41, R37; 40_batcher R102: every step keeps the invariant `State.Inv`. -/
def Obligations.StepKeepsStateInvariant : Prop :=
  ∀ s t : State, s.Inv → step s = .next t → t.Inv

/-- 70_reset R200: the invariant holds after reset, and in every block that construction makes. -/
def Obligations.ConstructedBlockMeetsInvariant : Prop :=
  State.reset.Inv ∧ ∀ (p : Params) (a : ConfigArgs) (s : State), State.construct p a = some s → s.Inv

/-- 40_batcher R117, R112, 20_memory R56, R58, R59: in a state that meets the invariant every step keeps the trace's framing. -/
def Obligations.StepKeepsTraceFraming : Prop :=
  ∀ s t : State, s.Inv → TraceFramed s.par.bus s.par.hasResetLine s.trace → step s = .next t →
    TraceFramed t.par.bus t.par.hasResetLine t.trace
end

