-- ==== Sys2Proof/Laws/Memory.lean ====
section
/-! SUPPORT. The DeviceBuffer's memory: reads after writes, the canonical form, and whole-buffer commits. -/

namespace Sys2Proof.Machine

/-- In the canonical form from `lo` on, an address below `lo` is not listed. -/
theorem Memory.read_below {lo : Nat} {m : Memory} (h : Memory.wfFrom lo m = true) {a : Nat} (ha : a < lo) :
    Memory.read m a = Memory.unlisted := by
  induction m generalizing lo with
  | nil => rfl
  | cons c m ih =>
    obtain ⟨b, w⟩ := c
    simp only [Memory.wfFrom, Bool.and_eq_true, decide_eq_true_eq] at h
    have hab : a ≠ b := by omega
    simpa [Memory.read, hab] using ih h.2 (by omega)

theorem Memory.wfFrom_mono {lo lo' : Nat} {m : Memory} (h : Memory.wfFrom lo m = true) (hl : lo' ≤ lo) :
    Memory.wfFrom lo' m = true := by
  cases m with
  | nil => rfl
  | cons c m =>
    simp only [Memory.wfFrom, Bool.and_eq_true, decide_eq_true_eq] at h ⊢
    exact ⟨⟨by omega, h.1.2⟩, h.2⟩

/-- A cell put in front keeps the canonical form. -/
theorem Memory.wfFrom_cons {lo a : Nat} {v : Byte} {m : Memory} (h : Memory.wfFrom (a + 1) m = true) (hl : lo ≤ a) :
    Memory.wfFrom lo (Memory.cons a v m) = true := by
  unfold Memory.cons
  split
  · exact Memory.wfFrom_mono h (by omega)
  · simp only [Memory.wfFrom, Bool.and_eq_true, decide_eq_true_eq]
    exact ⟨⟨hl, by assumption⟩, h⟩

theorem Memory.read_cons {a b : Nat} {v : Byte} {m : Memory} (h : Memory.wfFrom (a + 1) m = true) :
    Memory.read (Memory.cons a v m) b = if b = a then v else Memory.read m b := by
  unfold Memory.cons
  by_cases hv : v = Memory.unlisted
  · by_cases hb : b = a
    · simp [hv, hb, Memory.read_below h (show a < a + 1 by omega)]
    · simp [hv, hb]
  · simp [hv, Memory.read]

/-- A write keeps the canonical form. -/
theorem Memory.wfFrom_write {lo a : Nat} {v : Byte} {m : Memory} (h : Memory.wfFrom lo m = true) (hl : lo ≤ a) :
    Memory.wfFrom lo (Memory.write m a v) = true := by
  induction m generalizing lo with
  | nil => exact Memory.wfFrom_cons (by rfl) hl
  | cons c m ih =>
    obtain ⟨b, w⟩ := c
    simp only [Memory.wfFrom, Bool.and_eq_true, decide_eq_true_eq] at h
    unfold Memory.write
    split
    · refine Memory.wfFrom_cons ?_ hl
      simp only [Memory.wfFrom, Bool.and_eq_true, decide_eq_true_eq]
      exact ⟨⟨by omega, h.1.2⟩, h.2⟩
    · split
      · subst b
        exact Memory.wfFrom_cons h.2 hl
      · simp only [Memory.wfFrom, Bool.and_eq_true, decide_eq_true_eq]
        exact ⟨h.1, ih h.2 (by omega)⟩

theorem Memory.wf_write {a : Nat} {v : Byte} {m : Memory} (h : Memory.wf m = true) :
    Memory.wf (Memory.write m a v) = true :=
  Memory.wfFrom_write h (Nat.zero_le a)

/-- A read after a write gives the written byte at its address and the old byte elsewhere. -/
theorem Memory.read_write {lo a b : Nat} {v : Byte} {m : Memory} (h : Memory.wfFrom lo m = true) :
    Memory.read (Memory.write m a v) b = if b = a then v else Memory.read m b := by
  induction m generalizing lo with
  | nil => exact Memory.read_cons (by rfl)
  | cons c m ih =>
    obtain ⟨d, w⟩ := c
    simp only [Memory.wfFrom, Bool.and_eq_true, decide_eq_true_eq] at h
    unfold Memory.write
    split
    · refine Memory.read_cons ?_
      simp only [Memory.wfFrom, Bool.and_eq_true, decide_eq_true_eq]
      exact ⟨⟨by omega, h.1.2⟩, h.2⟩
    · split
      · subst d
        rw [Memory.read_cons h.2]
        by_cases hb : b = a <;> simp [hb, Memory.read]
      · by_cases hb : b = d
        · have : b ≠ a := by omega
          simp [Memory.read, hb]
          omega
        · simp only [Memory.read, hb, if_false]
          exact ih h.2

theorem Memory.wfFrom_ofBytesFrom (a : Nat) (bs : List Byte) :
    Memory.wfFrom a (Memory.ofBytesFrom a bs) = true := by
  induction bs generalizing a with
  | nil => rfl
  | cons b bs ih =>
    exact Memory.wfFrom_write (Memory.wfFrom_mono (ih (a + 1)) (by omega)) (Nat.le_refl a)

/-- A commit leaves the canonical form. -/
theorem Memory.wf_ofBytes (bs : List Byte) : Memory.wf (Memory.ofBytes bs) = true :=
  Memory.wfFrom_ofBytesFrom 0 bs

theorem Memory.read_ofBytesFrom (a : Nat) (bs : List Byte) (b : Nat) :
    Memory.read (Memory.ofBytesFrom a bs) b = if a ≤ b then bs.getD (b - a) 0 else 0 := by
  induction bs generalizing a with
  | nil => simp [Memory.ofBytesFrom, Memory.read, Memory.unlisted]
  | cons c bs ih =>
    rw [Memory.ofBytesFrom, Memory.read_write (Memory.wfFrom_ofBytesFrom (a + 1) bs), ih]
    by_cases h1 : b = a
    · simp [h1]
    · by_cases h2 : a ≤ b
      · obtain ⟨n, hn⟩ : ∃ n, b - a = n + 1 := ⟨b - a - 1, by omega⟩
        have h3 : a + 1 ≤ b := by omega
        have h4 : b - (a + 1) = n := by omega
        simp [h1, h2, h3, h4, hn]
      · have h3 : ¬ a + 1 ≤ b := by omega
        simp [h1, h2, h3]

/-- After a commit each byte of the sequence is read at its index, and zero past its end. -/
theorem Memory.read_ofBytes (bs : List Byte) (a : Nat) : Memory.read (Memory.ofBytes bs) a = bs.getD a 0 := by
  simp [Memory.ofBytes, Memory.read_ofBytesFrom]

theorem Memory.bytesFrom_length (m : Memory) (a n : Nat) : (Memory.bytesFrom m a n).length = n := by
  induction n generalizing a with
  | zero => rfl
  | succ n ih => simp [Memory.bytesFrom, ih]

theorem Memory.getD_bytesFrom (m : Memory) (a n i : Nat) (hi : i < n) :
    (Memory.bytesFrom m a n).getD i 0 = Memory.read m (a + i) := by
  induction n generalizing a i with
  | zero => omega
  | succ n ih =>
    cases i with
    | zero => simp [Memory.bytesFrom]
    | succ i =>
      have h := ih (a + 1) i (by omega)
      simp only [Memory.bytesFrom, List.getD_cons_succ, h]
      congr 1
      omega

/-- A committed byte sequence is what the buffer reads back as. -/
theorem Memory.bytesFrom_ofBytes (bs : List Byte) : Memory.bytesFrom (Memory.ofBytes bs) 0 bs.length = bs := by
  apply List.ext_getElem (Memory.bytesFrom_length _ _ _)
  intro i h1 h2
  have h := Memory.getD_bytesFrom (Memory.ofBytes bs) 0 bs.length i h2
  rw [Memory.read_ofBytes] at h
  simpa [List.getD_eq_getElem?_getD, h1, h2] using h

theorem Memory.within_cons {n a : Nat} {v : Byte} {m : Memory} (h : Memory.within n m = true) (ha : a < n) :
    Memory.within n (Memory.cons a v m) = true := by
  unfold Memory.cons
  split
  · exact h
  · simpa [Memory.within, ha] using h

/-- A write inside the space stays inside it. -/
theorem Memory.within_write {n a : Nat} {v : Byte} {m : Memory} (h : Memory.within n m = true) (ha : a < n) :
    Memory.within n (Memory.write m a v) = true := by
  induction m with
  | nil => exact Memory.within_cons (by rfl) ha
  | cons c m ih =>
    obtain ⟨b, w⟩ := c
    have h' : Memory.within n m = true := by
      simp only [Memory.within, List.all_cons, Bool.and_eq_true] at h ⊢
      exact h.2
    unfold Memory.write
    split
    · exact Memory.within_cons h ha
    · split
      · exact Memory.within_cons h' ha
      · simp only [Memory.within, List.all_cons, Bool.and_eq_true] at h ⊢
        exact ⟨h.1, ih h'⟩

theorem Memory.within_ofBytesFrom (n a : Nat) (bs : List Byte) (h : a + bs.length ≤ n) :
    Memory.within n (Memory.ofBytesFrom a bs) = true := by
  induction bs generalizing a with
  | nil => rfl
  | cons b bs ih =>
    simp only [List.length_cons] at h
    exact Memory.within_write (ih (a + 1) (by omega)) (by omega)

/-- A commit of at most `n` bytes lists no address from `n` on. -/
theorem Memory.within_ofBytes (n : Nat) (bs : List Byte) (h : bs.length ≤ n) :
    Memory.within n (Memory.ofBytes bs) = true :=
  Memory.within_ofBytesFrom n 0 bs (by omega)

/-- Nothing outside the space is listed, so it reads as an unlisted byte. -/
theorem Memory.read_outside {n a : Nat} {m : Memory} (h : Memory.within n m = true) (ha : n ≤ a) :
    Memory.read m a = Memory.unlisted := by
  induction m with
  | nil => rfl
  | cons c m ih =>
    obtain ⟨b, w⟩ := c
    simp only [Memory.within, List.all_cons, Bool.and_eq_true, decide_eq_true_eq] at h
    have hab : a ≠ b := by omega
    simpa [Memory.read, hab] using ih h.2

theorem Memory.ofBytesFrom_zeros (a n : Nat) : Memory.ofBytesFrom a (zeros n) = [] := by
  induction n generalizing a with
  | zero => rfl
  | succ n ih =>
    have h : zeros (n + 1) = 0 :: zeros n := rfl
    simp [h, Memory.ofBytesFrom, ih, Memory.write, Memory.cons, Memory.unlisted]

/-- Zeros are the empty cell list (10_state R37). -/
theorem Memory.ofBytes_zeros (n : Nat) : Memory.ofBytes (zeros n) = [] := Memory.ofBytesFrom_zeros 0 n

end Sys2Proof.Machine
end

