-- ==== Sys2Proof/Laws/State.lean ====
section
/-! SUPPORT. What each named update of the state changes and keeps: one lemma a field, true by rfl. -/

namespace Sys2Proof.Machine

variable (s : State)

/-! ## setDev -/

@[simp] theorem State.setDev_par (d : DeviceState) : (s.setDev d).par = s.par := rfl
@[simp] theorem State.setDev_cfg (d : DeviceState) : (s.setDev d).cfg = s.cfg := rfl
@[simp] theorem State.setDev_dev (d : DeviceState) : (s.setDev d).dev = d := rfl
@[simp] theorem State.setDev_busy (d : DeviceState) : (s.setDev d).busy = s.busy := rfl
@[simp] theorem State.setDev_runs (d : DeviceState) : (s.setDev d).runs = s.runs := rfl
@[simp] theorem State.setDev_cur (d : DeviceState) : (s.setDev d).cur = s.cur := rfl
@[simp] theorem State.setDev_buf (d : DeviceState) : (s.setDev d).buf = s.buf := rfl
@[simp] theorem State.setDev_dc (d : DeviceState) : (s.setDev d).dc = s.dc := rfl
@[simp] theorem State.setDev_rst (d : DeviceState) : (s.setDev d).rst = s.rst := rfl
@[simp] theorem State.setDev_trace (d : DeviceState) : (s.setDev d).trace = s.trace := rfl
@[simp] theorem State.setDev_rx (d : DeviceState) : (s.setDev d).rx = s.rx := rfl
@[simp] theorem State.setDev_responses (d : DeviceState) : (s.setDev d).responses = s.responses := rfl
@[simp] theorem State.setDev_samples (d : DeviceState) : (s.setDev d).samples = s.samples := rfl
@[simp] theorem State.setDev_waiting (d : DeviceState) : (s.setDev d).waiting = s.waiting := rfl
@[simp] theorem State.setDev_env (d : DeviceState) : (s.setDev d).env = s.env := rfl
@[simp] theorem State.setDev_draws (d : DeviceState) : (s.setDev d).draws = s.draws := rfl

/-! ## setBatch -/

@[simp] theorem State.setBatch_par (rs : List Run) (c : Option Run) : (s.setBatch rs c).par = s.par := rfl
@[simp] theorem State.setBatch_cfg (rs : List Run) (c : Option Run) : (s.setBatch rs c).cfg = s.cfg := rfl
@[simp] theorem State.setBatch_dev (rs : List Run) (c : Option Run) : (s.setBatch rs c).dev = s.dev := rfl
@[simp] theorem State.setBatch_busy (rs : List Run) (c : Option Run) : (s.setBatch rs c).busy = s.busy := rfl
@[simp] theorem State.setBatch_runs (rs : List Run) (c : Option Run) : (s.setBatch rs c).runs = rs := rfl
@[simp] theorem State.setBatch_cur (rs : List Run) (c : Option Run) : (s.setBatch rs c).cur = c := rfl
@[simp] theorem State.setBatch_buf (rs : List Run) (c : Option Run) : (s.setBatch rs c).buf = s.buf := rfl
@[simp] theorem State.setBatch_dc (rs : List Run) (c : Option Run) : (s.setBatch rs c).dc = s.dc := rfl
@[simp] theorem State.setBatch_rst (rs : List Run) (c : Option Run) : (s.setBatch rs c).rst = s.rst := rfl
@[simp] theorem State.setBatch_trace (rs : List Run) (c : Option Run) : (s.setBatch rs c).trace = s.trace := rfl
@[simp] theorem State.setBatch_rx (rs : List Run) (c : Option Run) : (s.setBatch rs c).rx = s.rx := rfl
@[simp] theorem State.setBatch_responses (rs : List Run) (c : Option Run) : (s.setBatch rs c).responses = s.responses := rfl
@[simp] theorem State.setBatch_samples (rs : List Run) (c : Option Run) : (s.setBatch rs c).samples = s.samples := rfl
@[simp] theorem State.setBatch_waiting (rs : List Run) (c : Option Run) : (s.setBatch rs c).waiting = s.waiting := rfl
@[simp] theorem State.setBatch_env (rs : List Run) (c : Option Run) : (s.setBatch rs c).env = s.env := rfl
@[simp] theorem State.setBatch_draws (rs : List Run) (c : Option Run) : (s.setBatch rs c).draws = s.draws := rfl

/-! ## setBuf -/

@[simp] theorem State.setBuf_par (bs : List Byte) : (s.setBuf bs).par = s.par := rfl
@[simp] theorem State.setBuf_cfg (bs : List Byte) : (s.setBuf bs).cfg = s.cfg := rfl
@[simp] theorem State.setBuf_dev (bs : List Byte) : (s.setBuf bs).dev = s.dev := rfl
@[simp] theorem State.setBuf_busy (bs : List Byte) : (s.setBuf bs).busy = s.busy := rfl
@[simp] theorem State.setBuf_runs (bs : List Byte) : (s.setBuf bs).runs = s.runs := rfl
@[simp] theorem State.setBuf_cur (bs : List Byte) : (s.setBuf bs).cur = s.cur := rfl
@[simp] theorem State.setBuf_buf (bs : List Byte) : (s.setBuf bs).buf = Memory.ofBytes bs := rfl
@[simp] theorem State.setBuf_dc (bs : List Byte) : (s.setBuf bs).dc = s.dc := rfl
@[simp] theorem State.setBuf_rst (bs : List Byte) : (s.setBuf bs).rst = s.rst := rfl
@[simp] theorem State.setBuf_trace (bs : List Byte) : (s.setBuf bs).trace = s.trace := rfl
@[simp] theorem State.setBuf_rx (bs : List Byte) : (s.setBuf bs).rx = s.rx := rfl
@[simp] theorem State.setBuf_responses (bs : List Byte) : (s.setBuf bs).responses = s.responses := rfl
@[simp] theorem State.setBuf_samples (bs : List Byte) : (s.setBuf bs).samples = s.samples := rfl
@[simp] theorem State.setBuf_waiting (bs : List Byte) : (s.setBuf bs).waiting = s.waiting := rfl
@[simp] theorem State.setBuf_env (bs : List Byte) : (s.setBuf bs).env = s.env := rfl
@[simp] theorem State.setBuf_draws (bs : List Byte) : (s.setBuf bs).draws = s.draws := rfl

/-! ## setDc -/

@[simp] theorem State.setDc_par (l : SelectLevel) : (s.setDc l).par = s.par := rfl
@[simp] theorem State.setDc_cfg (l : SelectLevel) : (s.setDc l).cfg = s.cfg := rfl
@[simp] theorem State.setDc_dev (l : SelectLevel) : (s.setDc l).dev = s.dev := rfl
@[simp] theorem State.setDc_busy (l : SelectLevel) : (s.setDc l).busy = s.busy := rfl
@[simp] theorem State.setDc_runs (l : SelectLevel) : (s.setDc l).runs = s.runs := rfl
@[simp] theorem State.setDc_cur (l : SelectLevel) : (s.setDc l).cur = s.cur := rfl
@[simp] theorem State.setDc_buf (l : SelectLevel) : (s.setDc l).buf = s.buf := rfl
@[simp] theorem State.setDc_dc (l : SelectLevel) : (s.setDc l).dc = l := rfl
@[simp] theorem State.setDc_rst (l : SelectLevel) : (s.setDc l).rst = s.rst := rfl
@[simp] theorem State.setDc_trace (l : SelectLevel) : (s.setDc l).trace = s.trace := rfl
@[simp] theorem State.setDc_rx (l : SelectLevel) : (s.setDc l).rx = s.rx := rfl
@[simp] theorem State.setDc_responses (l : SelectLevel) : (s.setDc l).responses = s.responses := rfl
@[simp] theorem State.setDc_samples (l : SelectLevel) : (s.setDc l).samples = s.samples := rfl
@[simp] theorem State.setDc_waiting (l : SelectLevel) : (s.setDc l).waiting = s.waiting := rfl
@[simp] theorem State.setDc_env (l : SelectLevel) : (s.setDc l).env = s.env := rfl
@[simp] theorem State.setDc_draws (l : SelectLevel) : (s.setDc l).draws = s.draws := rfl

/-! ## setRst -/

@[simp] theorem State.setRst_par (l : ResetLevel) : (s.setRst l).par = s.par := rfl
@[simp] theorem State.setRst_cfg (l : ResetLevel) : (s.setRst l).cfg = s.cfg := rfl
@[simp] theorem State.setRst_dev (l : ResetLevel) : (s.setRst l).dev = s.dev := rfl
@[simp] theorem State.setRst_busy (l : ResetLevel) : (s.setRst l).busy = s.busy := rfl
@[simp] theorem State.setRst_runs (l : ResetLevel) : (s.setRst l).runs = s.runs := rfl
@[simp] theorem State.setRst_cur (l : ResetLevel) : (s.setRst l).cur = s.cur := rfl
@[simp] theorem State.setRst_buf (l : ResetLevel) : (s.setRst l).buf = s.buf := rfl
@[simp] theorem State.setRst_dc (l : ResetLevel) : (s.setRst l).dc = s.dc := rfl
@[simp] theorem State.setRst_rst (l : ResetLevel) : (s.setRst l).rst = l := rfl
@[simp] theorem State.setRst_trace (l : ResetLevel) : (s.setRst l).trace = s.trace := rfl
@[simp] theorem State.setRst_rx (l : ResetLevel) : (s.setRst l).rx = s.rx := rfl
@[simp] theorem State.setRst_responses (l : ResetLevel) : (s.setRst l).responses = s.responses := rfl
@[simp] theorem State.setRst_samples (l : ResetLevel) : (s.setRst l).samples = s.samples := rfl
@[simp] theorem State.setRst_waiting (l : ResetLevel) : (s.setRst l).waiting = s.waiting := rfl
@[simp] theorem State.setRst_env (l : ResetLevel) : (s.setRst l).env = s.env := rfl
@[simp] theorem State.setRst_draws (l : ResetLevel) : (s.setRst l).draws = s.draws := rfl

/-! ## emit -/

@[simp] theorem State.emit_par (e : Event) : (s.emit e).par = s.par := rfl
@[simp] theorem State.emit_cfg (e : Event) : (s.emit e).cfg = s.cfg := rfl
@[simp] theorem State.emit_dev (e : Event) : (s.emit e).dev = s.dev := rfl
@[simp] theorem State.emit_busy (e : Event) : (s.emit e).busy = s.busy := rfl
@[simp] theorem State.emit_runs (e : Event) : (s.emit e).runs = s.runs := rfl
@[simp] theorem State.emit_cur (e : Event) : (s.emit e).cur = s.cur := rfl
@[simp] theorem State.emit_buf (e : Event) : (s.emit e).buf = s.buf := rfl
@[simp] theorem State.emit_dc (e : Event) : (s.emit e).dc = s.dc := rfl
@[simp] theorem State.emit_rst (e : Event) : (s.emit e).rst = s.rst := rfl
@[simp] theorem State.emit_trace (e : Event) : (s.emit e).trace = s.trace ++ [e] := rfl
@[simp] theorem State.emit_rx (e : Event) : (s.emit e).rx = s.rx := rfl
@[simp] theorem State.emit_responses (e : Event) : (s.emit e).responses = s.responses := rfl
@[simp] theorem State.emit_samples (e : Event) : (s.emit e).samples = s.samples ++ [{ dev := s.dev, busy := s.busy }] := rfl
@[simp] theorem State.emit_waiting (e : Event) : (s.emit e).waiting = s.waiting := rfl
@[simp] theorem State.emit_env (e : Event) : (s.emit e).env = s.env := rfl
@[simp] theorem State.emit_draws (e : Event) : (s.emit e).draws = s.draws := rfl

/-! ## hang -/

@[simp] theorem State.hang_par (c : Call) : (s.hang c).par = s.par := rfl
@[simp] theorem State.hang_cfg (c : Call) : (s.hang c).cfg = s.cfg := rfl
@[simp] theorem State.hang_dev (c : Call) : (s.hang c).dev = s.dev := rfl
@[simp] theorem State.hang_busy (c : Call) : (s.hang c).busy = s.busy := rfl
@[simp] theorem State.hang_runs (c : Call) : (s.hang c).runs = s.runs := rfl
@[simp] theorem State.hang_cur (c : Call) : (s.hang c).cur = s.cur := rfl
@[simp] theorem State.hang_buf (c : Call) : (s.hang c).buf = s.buf := rfl
@[simp] theorem State.hang_dc (c : Call) : (s.hang c).dc = s.dc := rfl
@[simp] theorem State.hang_rst (c : Call) : (s.hang c).rst = s.rst := rfl
@[simp] theorem State.hang_trace (c : Call) : (s.hang c).trace = s.trace := rfl
@[simp] theorem State.hang_rx (c : Call) : (s.hang c).rx = s.rx := rfl
@[simp] theorem State.hang_responses (c : Call) : (s.hang c).responses = s.responses := rfl
@[simp] theorem State.hang_samples (c : Call) : (s.hang c).samples = s.samples := rfl
@[simp] theorem State.hang_waiting (c : Call) : (s.hang c).waiting = some c := rfl
@[simp] theorem State.hang_env (c : Call) : (s.hang c).env = s.env := rfl
@[simp] theorem State.hang_draws (c : Call) : (s.hang c).draws = s.draws := rfl

/-! ## drawn -/

@[simp] theorem State.drawn_par (e : Env) : (s.drawn e).par = s.par := rfl
@[simp] theorem State.drawn_cfg (e : Env) : (s.drawn e).cfg = s.cfg := rfl
@[simp] theorem State.drawn_dev (e : Env) : (s.drawn e).dev = s.dev := rfl
@[simp] theorem State.drawn_busy (e : Env) : (s.drawn e).busy = s.busy := rfl
@[simp] theorem State.drawn_runs (e : Env) : (s.drawn e).runs = s.runs := rfl
@[simp] theorem State.drawn_cur (e : Env) : (s.drawn e).cur = s.cur := rfl
@[simp] theorem State.drawn_buf (e : Env) : (s.drawn e).buf = s.buf := rfl
@[simp] theorem State.drawn_dc (e : Env) : (s.drawn e).dc = s.dc := rfl
@[simp] theorem State.drawn_rst (e : Env) : (s.drawn e).rst = s.rst := rfl
@[simp] theorem State.drawn_trace (e : Env) : (s.drawn e).trace = s.trace := rfl
@[simp] theorem State.drawn_rx (e : Env) : (s.drawn e).rx = s.rx := rfl
@[simp] theorem State.drawn_responses (e : Env) : (s.drawn e).responses = s.responses := rfl
@[simp] theorem State.drawn_samples (e : Env) : (s.drawn e).samples = s.samples := rfl
@[simp] theorem State.drawn_waiting (e : Env) : (s.drawn e).waiting = s.waiting := rfl
@[simp] theorem State.drawn_env (e : Env) : (s.drawn e).env = e := rfl
@[simp] theorem State.drawn_draws (e : Env) : (s.drawn e).draws = s.draws + 1 := rfl

/-! ## accept -/

@[simp] theorem State.accept_par : (s.accept).par = s.par := rfl
@[simp] theorem State.accept_cfg : (s.accept).cfg = s.cfg := rfl
@[simp] theorem State.accept_dev : (s.accept).dev = s.dev := rfl
@[simp] theorem State.accept_busy : (s.accept).busy = true := rfl
@[simp] theorem State.accept_runs : (s.accept).runs = s.runs := rfl
@[simp] theorem State.accept_cur : (s.accept).cur = s.cur := rfl
@[simp] theorem State.accept_buf : (s.accept).buf = s.buf := rfl
@[simp] theorem State.accept_dc : (s.accept).dc = s.dc := rfl
@[simp] theorem State.accept_rst : (s.accept).rst = s.rst := rfl
@[simp] theorem State.accept_trace : (s.accept).trace = s.trace := rfl
@[simp] theorem State.accept_rx : (s.accept).rx = s.rx := rfl
@[simp] theorem State.accept_responses : (s.accept).responses = s.responses := rfl
@[simp] theorem State.accept_samples : (s.accept).samples = s.samples := rfl
@[simp] theorem State.accept_waiting : (s.accept).waiting = s.waiting := rfl
@[simp] theorem State.accept_env : (s.accept).env = s.env := rfl
@[simp] theorem State.accept_draws : (s.accept).draws = s.draws := rfl

/-! ## respond -/

@[simp] theorem State.respond_par (st : Status) : (s.respond st).par = s.par := rfl
@[simp] theorem State.respond_cfg (st : Status) : (s.respond st).cfg = s.cfg := rfl
@[simp] theorem State.respond_dev (st : Status) : (s.respond st).dev = s.dev := rfl
@[simp] theorem State.respond_busy (st : Status) : (s.respond st).busy = false := rfl
@[simp] theorem State.respond_runs (st : Status) : (s.respond st).runs = s.runs := rfl
@[simp] theorem State.respond_cur (st : Status) : (s.respond st).cur = s.cur := rfl
@[simp] theorem State.respond_buf (st : Status) : (s.respond st).buf = s.buf := rfl
@[simp] theorem State.respond_dc (st : Status) : (s.respond st).dc = s.dc := rfl
@[simp] theorem State.respond_rst (st : Status) : (s.respond st).rst = s.rst := rfl
@[simp] theorem State.respond_trace (st : Status) : (s.respond st).trace = s.trace := rfl
@[simp] theorem State.respond_rx (st : Status) : (s.respond st).rx = s.rx := rfl
@[simp] theorem State.respond_responses (st : Status) : (s.respond st).responses = s.responses ++ [st.code] := rfl
@[simp] theorem State.respond_samples (st : Status) : (s.respond st).samples = s.samples := rfl
@[simp] theorem State.respond_waiting (st : Status) : (s.respond st).waiting = s.waiting := rfl
@[simp] theorem State.respond_env (st : Status) : (s.respond st).env = s.env := rfl
@[simp] theorem State.respond_draws (st : Status) : (s.respond st).draws = s.draws := rfl

/-! ## setRx -/

@[simp] theorem State.setRx_par (bs : List Byte) : (s.setRx bs).par = s.par := rfl
@[simp] theorem State.setRx_cfg (bs : List Byte) : (s.setRx bs).cfg = s.cfg := rfl
@[simp] theorem State.setRx_dev (bs : List Byte) : (s.setRx bs).dev = s.dev := rfl
@[simp] theorem State.setRx_busy (bs : List Byte) : (s.setRx bs).busy = s.busy := rfl
@[simp] theorem State.setRx_runs (bs : List Byte) : (s.setRx bs).runs = s.runs := rfl
@[simp] theorem State.setRx_cur (bs : List Byte) : (s.setRx bs).cur = s.cur := rfl
@[simp] theorem State.setRx_buf (bs : List Byte) : (s.setRx bs).buf = s.buf := rfl
@[simp] theorem State.setRx_dc (bs : List Byte) : (s.setRx bs).dc = s.dc := rfl
@[simp] theorem State.setRx_rst (bs : List Byte) : (s.setRx bs).rst = s.rst := rfl
@[simp] theorem State.setRx_trace (bs : List Byte) : (s.setRx bs).trace = s.trace := rfl
@[simp] theorem State.setRx_rx (bs : List Byte) : (s.setRx bs).rx = bs := rfl
@[simp] theorem State.setRx_responses (bs : List Byte) : (s.setRx bs).responses = s.responses := rfl
@[simp] theorem State.setRx_samples (bs : List Byte) : (s.setRx bs).samples = s.samples := rfl
@[simp] theorem State.setRx_waiting (bs : List Byte) : (s.setRx bs).waiting = s.waiting := rfl
@[simp] theorem State.setRx_env (bs : List Byte) : (s.setRx bs).env = s.env := rfl
@[simp] theorem State.setRx_draws (bs : List Byte) : (s.setRx bs).draws = s.draws := rfl

end Sys2Proof.Machine
end

