-- ==== Sys2Proof/Laws/Ops.lean ====
section
/-! SUPPORT. What each primitive can do, said once: for any answer, and for an answer that `State.env` fixes. -/

namespace Sys2Proof.Machine

@[simp] theorem Res.andThen_done {α β : Type} (a : α) (s : State) (k : α → State → Res β) :
    (Res.done a s).andThen k = k a s := rfl

@[simp] theorem Res.andThen_hung {α β : Type} (s : State) (k : α → State → Res β) :
    (Res.hung s : Res α).andThen k = .hung s := rfl

@[simp] theorem conclude_done (st : Status) (s : State) : conclude (.done st s) = s.respond st := rfl

@[simp] theorem conclude_hung (s : State) : conclude (.hung s) = s := rfl

/-- An operation always gives a next state. -/
theorem runOperation_eq (op : State → Res Status) (s : State) :
    runOperation op s = .next (conclude (op s.accept)) := rfl

/-- Events one after the other, while the state output port shows the same. -/
theorem State.logged_logged (s : State) (d : DeviceState) (es es' : List Event) :
    (s.logged d es).logged d es' = s.logged d (es ++ es') := by
  simp [State.logged]

theorem State.logged_nil (s : State) (d : DeviceState) : s.logged d [] = s := by
  simp [State.logged]

/-- One event is one entry of the log. -/
theorem State.emit_eq_logged (s : State) (e : Event) (hb : s.busy = true) : s.emit e = s.logged s.dev [e] := by
  simp [State.emit, State.logged, hb]

/-- What transport calls do to a state: events, the select line's level, the answers drawn. -/
def State.traffic (s : State) (es : List Event) (l : SelectLevel) (e : Env) (n : Nat) : State :=
  { s.logged s.dev es with dc := l, env := e, draws := n }

section
variable (s : State) (es : List Event) (l : SelectLevel) (e : Env) (n : Nat)
@[simp] theorem State.traffic_par : (s.traffic es l e n).par = s.par := rfl
@[simp] theorem State.traffic_cfg : (s.traffic es l e n).cfg = s.cfg := rfl
@[simp] theorem State.traffic_dev : (s.traffic es l e n).dev = s.dev := rfl
@[simp] theorem State.traffic_busy : (s.traffic es l e n).busy = s.busy := rfl
@[simp] theorem State.traffic_runs : (s.traffic es l e n).runs = s.runs := rfl
@[simp] theorem State.traffic_cur : (s.traffic es l e n).cur = s.cur := rfl
@[simp] theorem State.traffic_batch : (s.traffic es l e n).batch = s.batch := rfl
@[simp] theorem State.traffic_buf : (s.traffic es l e n).buf = s.buf := rfl
@[simp] theorem State.traffic_dc : (s.traffic es l e n).dc = l := rfl
@[simp] theorem State.traffic_rst : (s.traffic es l e n).rst = s.rst := rfl
@[simp] theorem State.traffic_trace : (s.traffic es l e n).trace = s.trace ++ es := rfl
@[simp] theorem State.traffic_rx : (s.traffic es l e n).rx = s.rx := rfl
@[simp] theorem State.traffic_responses : (s.traffic es l e n).responses = s.responses := rfl
@[simp] theorem State.traffic_samples : (s.traffic es l e n).samples
    = s.samples ++ List.replicate es.length { dev := s.dev, busy := true } := rfl
@[simp] theorem State.traffic_waiting : (s.traffic es l e n).waiting = s.waiting := rfl
@[simp] theorem State.traffic_env : (s.traffic es l e n).env = e := rfl
@[simp] theorem State.traffic_draws : (s.traffic es l e n).draws = n := rfl
end

/-- Traffic after traffic is traffic. -/
theorem State.traffic_traffic (s : State) (es es' : List Event) (l l' : SelectLevel) (e e' : Env) (n n' : Nat) :
    (s.traffic es l e n).traffic es' l' e' n' = s.traffic (es ++ es') l' e' n' := by
  simp [State.traffic, State.logged]

theorem State.traffic_nil (s : State) : s.traffic [] s.dc s.env s.draws = s := by
  simp [State.traffic, State.logged]

/-- A draw and its event, in a busy block. -/
theorem State.drawn_emit (s : State) (e : Env) (v : Event) (hb : s.busy = true) :
    (s.drawn e).emit v = s.traffic [v] s.dc e (s.draws + 1) := by
  simp [State.emit, State.drawn, State.traffic, State.logged, hb]

theorem State.drawn_setDc_emit (s : State) (e : Env) (l : SelectLevel) (v : Event) (hb : s.busy = true) :
    ((s.drawn e).setDc l).emit v = s.traffic [v] l e (s.draws + 1) := by
  simp [State.emit, State.drawn, State.setDc, State.traffic, State.logged, hb]

theorem State.drawn_eq_traffic (s : State) (e : Env) : s.drawn e = s.traffic [] s.dc e (s.draws + 1) := by
  simp [State.drawn, State.traffic, State.logged]

theorem State.emit_eq_traffic (s : State) (v : Event) (hb : s.busy = true) :
    s.emit v = s.traffic [v] s.dc s.env s.draws := by
  simp [State.emit, State.traffic, State.logged, hb]

/-! ## Any answer -/

theorem busReady_cases (s : State) :
    (∃ b e, busReady s = .done b ((s.drawn e).emit (.busReady b)))
      ∨ ∃ e, busReady s = .hung ((s.drawn e).hang .busReady) := by
  have hd : ∃ e, (drawReady s).2 = s.drawn e := by unfold drawReady; split <;> exact ⟨_, rfl⟩
  obtain ⟨e, he⟩ := hd
  unfold busReady
  rw [he]
  split
  · exact .inl ⟨_, e, rfl⟩
  · exact .inr ⟨e, rfl⟩

theorem busWrite_cases (bytes : List Byte) (s : State) :
    (∃ a e, (∀ k, a = .fail k → k ≤ bytes.length)
        ∧ busWrite bytes s = .done a ((s.drawn e).emit (.busWrite bytes a)))
      ∨ ∃ e, busWrite bytes s = .hung ((s.drawn e).hang (.busWrite bytes)) := by
  have hd : ∃ e, (drawWrite s).2 = s.drawn e := by unfold drawWrite; split <;> exact ⟨_, rfl⟩
  obtain ⟨e, he⟩ := hd
  unfold busWrite
  rw [he]
  split
  · rename_i a _
    refine .inl ⟨clampAnswer bytes a, e, ?_, rfl⟩
    intro k hk
    cases a with
    | ok => simp [clampAnswer] at hk
    | fail j =>
      simp only [clampAnswer, WriteAnswer.fail.injEq] at hk
      omega
  · exact .inr ⟨e, rfl⟩

theorem selectLine_cases (t : Tag) (s : State) :
    (∃ a e, selectLine t s = .done a (((s.drawn e).setDc (levelAfterSelect t a)).emit (selectEvent t a)))
      ∨ ∃ e, selectLine t s = .hung ((s.drawn e).hang (selectCall t)) := by
  have hd : ∃ e, (drawDrive s).2 = s.drawn e := by unfold drawDrive; split <;> exact ⟨_, rfl⟩
  obtain ⟨e, he⟩ := hd
  unfold selectLine
  rw [he]
  split
  · exact .inl ⟨_, e, rfl⟩
  · exact .inr ⟨e, rfl⟩

theorem assertReset_cases (s : State) :
    (∃ e, assertReset s = .done .ok (((s.drawn e).setRst .asserted).emit (.assertReset .ok)))
      ∨ (∃ e, assertReset s = .done .fail (((s.drawn e).setRst .unknown).emit (.assertReset .fail)))
      ∨ ∃ e, assertReset s = .hung ((s.drawn e).hang .assertReset) := by
  have hd : ∃ e, (drawDrive s).2 = s.drawn e := by unfold drawDrive; split <;> exact ⟨_, rfl⟩
  obtain ⟨e, he⟩ := hd
  unfold assertReset
  rw [he]
  split
  · exact .inl ⟨e, rfl⟩
  · exact .inr (.inl ⟨e, rfl⟩)
  · exact .inr (.inr ⟨e, rfl⟩)

theorem releaseReset_cases (s : State) :
    (∃ e, releaseReset s = .done .ok (((s.drawn e).setRst .released).emit (.releaseReset .ok)))
      ∨ (∃ e, releaseReset s = .done .fail (((s.drawn e).setRst .unknown).emit (.releaseReset .fail)))
      ∨ ∃ e, releaseReset s = .hung ((s.drawn e).hang .releaseReset) := by
  have hd : ∃ e, (drawDrive s).2 = s.drawn e := by unfold drawDrive; split <;> exact ⟨_, rfl⟩
  obtain ⟨e, he⟩ := hd
  unfold releaseReset
  rw [he]
  split
  · exact .inl ⟨e, rfl⟩
  · exact .inr (.inl ⟨e, rfl⟩)
  · exact .inr (.inr ⟨e, rfl⟩)

theorem getPixels_cases (s : State) :
    ∃ x e, getPixels s = (x, (s.drawn e).emit (.getPixels x)) := by
  have hd : ∃ e, (drawSnapshot s).2 = s.drawn e := by unfold drawSnapshot; split <;> exact ⟨_, rfl⟩
  obtain ⟨e, he⟩ := hd
  exact ⟨_, e, by rw [getPixels, he]⟩

/-! ## An answer that the environment fixes -/

theorem busReady_answer {s : State} {b : Bool} {r : List (Reply Bool)} (h : s.env.ready = .answer b :: r) :
    busReady s = .done b ((s.drawn { s.env with ready := r }).emit (.busReady b)) := by
  simp [busReady, drawReady, h]

theorem busReady_never {s : State} {r : List (Reply Bool)} (h : s.env.ready = .never :: r) :
    busReady s = .hung ((s.drawn { s.env with ready := r }).hang .busReady) := by
  simp [busReady, drawReady, h]

theorem busWrite_answer {s : State} {a : WriteAnswer} {w : List (Reply WriteAnswer)} (bytes : List Byte)
    (h : s.env.writes = .answer a :: w) :
    busWrite bytes s = .done (clampAnswer bytes a)
      ((s.drawn { s.env with writes := w }).emit (.busWrite bytes (clampAnswer bytes a))) := by
  simp [busWrite, drawWrite, h]

theorem selectLine_answer {s : State} {a : DriveAnswer} {d : List (Reply DriveAnswer)} (t : Tag)
    (h : s.env.drives = .answer a :: d) :
    selectLine t s = .done a
      (((s.drawn { s.env with drives := d }).setDc (levelAfterSelect t a)).emit (selectEvent t a)) := by
  simp [selectLine, drawDrive, h]

theorem assertReset_answer {s : State} {a : DriveAnswer} {d : List (Reply DriveAnswer)}
    (h : s.env.drives = .answer a :: d) :
    assertReset s = .done a (((s.drawn { s.env with drives := d }).setRst
      (match a with | .ok => .asserted | .fail => .unknown)).emit (.assertReset a)) := by
  cases a <;> simp [assertReset, drawDrive, h]

theorem releaseReset_answer {s : State} {a : DriveAnswer} {d : List (Reply DriveAnswer)}
    (h : s.env.drives = .answer a :: d) :
    releaseReset s = .done a (((s.drawn { s.env with drives := d }).setRst
      (match a with | .ok => .released | .fail => .unknown)).emit (.releaseReset a)) := by
  cases a <;> simp [releaseReset, drawDrive, h]

theorem getPixels_answer {s : State} {x : Snapshot} {xs : List Snapshot} (h : s.env.pixels = x :: xs) :
    getPixels s = (x, (s.drawn { s.env with pixels := xs }).emit (.getPixels x)) := by
  simp [getPixels, drawSnapshot, h]

end Sys2Proof.Machine
end

