-- ==== Sys2Proof/Laws/Batcher.lean ====
section
/-! SUPPORT. The batcher's procedures: what an append makes of the batch, and everything SEND can do. -/

namespace Sys2Proof.Machine

theorem pending_iff_batch (s : State) : s.pending = false ↔ s.batch = [] := by
  cases hr : s.runs <;> cases hc : s.cur <;> simp [State.pending, State.batch, hr, hc]

theorem finalize_eq (s : State) : finalize s = { s with runs := s.batch, cur := none } := by
  obtain ⟨par, cfg, dev, busy, runs, cur, _⟩ := s
  cases cur <;> simp [finalize, State.batch, State.setBatch]

/-- On an empty batch an append that fits makes one run. -/
theorem append_empty {t : Tag} {bs : List Byte} {s : State} (hbs : bs ≠ [])
    (hcap : exceedsCap s.par (bs.length + (startBytes s.par.bus t).length) = false) :
    append t bs (batchReset s) = (.ok, { s with runs := [], cur := some (flushRun s.par t bs) }) := by
  have h : (batchReset s).pendingBytes + addedBytes t bs (batchReset s)
      = bs.length + (startBytes s.par.bus t).length := by
    simp [batchReset, State.pendingBytes, State.batch, addedBytes, startsRun]
  simp only [append, hbs, if_false, h]
  simp [batchReset, hcap, extendBatch, flushRun, State.setBatch]

/-- An append answers `OK` or `ERR_OVERFLOW`, and writes nothing but the batch. -/
theorem append_cases (t : Tag) (bs : List Byte) (s : State) :
    (append t bs s = (.ok, s) ∧ bs = [])
      ∨ (append t bs s = (.errOverflow, s) ∧ bs ≠ []
          ∧ exceedsCap s.par (s.pendingBytes + addedBytes t bs s) = true)
      ∨ (append t bs s = (.ok, extendBatch t bs s) ∧ bs ≠ []
          ∧ exceedsCap s.par (s.pendingBytes + addedBytes t bs s) = false) := by
  unfold append
  by_cases h : bs = []
  · exact .inl ⟨by simp [h], h⟩
  · by_cases hc : exceedsCap s.par (s.pendingBytes + addedBytes t bs s) = true
    · exact .inr (.inl ⟨by simp [h, hc], h, hc⟩)
    · exact .inr (.inr ⟨by simp [h, hc], h, by simpa using hc⟩)

theorem extendBatch_eq (t : Tag) (bs : List Byte) (s : State) :
    extendBatch t bs s = { s with runs := (extendBatch t bs s).runs, cur := (extendBatch t bs s).cur } := by
  unfold extendBatch
  split
  · rfl
  · split <;> rfl

/-! ## Everything SEND's loop can do -/

/-- How the writes of SEND's loop end: all sent, a write failed, a select drive failed, or held for ever. -/
inductive SendRunsEnds (rs : List Run) (s : State) : Res Status → Prop
  | sent (e : Env) (n : Nat) : SendRunsEnds rs s (.done .ok
      ((s.traffic (rs.flatMap (fun x => runEvents s.par.bus x .ok)) (levelAfterRuns s.par.bus rs s.dc) e n).setBatch [] none))
  | writeFailed (before after : List Run) (x : Run) (k : Nat) (e : Env) (n : Nat) (hrs : rs = before ++ x :: after)
      (hk : k ≤ x.bytes.length) : SendRunsEnds rs s (.done .errIo
      ((s.traffic (before.flatMap (fun x => runEvents s.par.bus x .ok) ++ runEvents s.par.bus x (.fail k))
        (levelAfterRuns s.par.bus (before ++ [x]) s.dc) e n).setBatch [] none))
  | selectFailed (before after : List Run) (x : Run) (e : Env) (n : Nat) (hrs : rs = before ++ x :: after)
      (hbus : s.par.bus = .spi) : SendRunsEnds rs s (.done .errIo
      ((s.traffic (before.flatMap (fun x => runEvents s.par.bus x .ok) ++ [selectEvent x.tag .fail])
        .unknown e n).setBatch [] none))
  | held (before after : List Run) (x : Run) (c : Call) (l : SelectLevel) (es : List Event) (e : Env) (n : Nat)
      (hrs : rs = before ++ x :: after) (hes : es = [] ∨ es = selectEvents s.par.bus x.tag .ok)
      (hl : s.par.bus = .i2c → l = s.dc) : SendRunsEnds rs s (.hung
      ((s.traffic (before.flatMap (fun x => runEvents s.par.bus x .ok) ++ es) l e n).hang c))

theorem levelAfterRuns_cons (b : Bus) (r : Run) (rs : List Run) (l : SelectLevel) :
    levelAfterRuns b (r :: rs) l = levelAfterRuns b rs (levelAfterRuns b [r] l) := by
  cases b <;> cases rs <;> simp [levelAfterRuns, List.getLast?_cons]

/-- The loop after one run was sent ends as the whole loop does. -/
theorem SendRunsEnds.after_run {r : Run} {rs : List Run} {s : State} {res : Res Status} {e0 : Env} {n0 : Nat}
    (h : SendRunsEnds rs (s.traffic (runEvents s.par.bus r .ok) (levelAfterRuns s.par.bus [r] s.dc) e0 n0) res) :
    SendRunsEnds (r :: rs) s res := by
  cases h with
  | sent e n =>
    have := SendRunsEnds.sent (rs := r :: rs) (s := s) e n
    simpa [State.traffic_traffic, levelAfterRuns_cons s.par.bus r rs] using this
  | writeFailed before after x k e n hrs hk =>
    have := SendRunsEnds.writeFailed (s := s) (r :: before) after x k e n (rs := r :: rs) (by rw [hrs]; rfl) hk
    rw [List.cons_append, levelAfterRuns_cons s.par.bus r] at this
    simpa [State.traffic_traffic] using this
  | selectFailed before after x e n hrs hbus =>
    have := SendRunsEnds.selectFailed (s := s) (r :: before) after x e n (rs := r :: rs) (by rw [hrs]; rfl) hbus
    simpa [State.traffic_traffic] using this
  | held before after x c l es e n hrs hes hl =>
    have := SendRunsEnds.held (s := s) (r :: before) after x c l es e n (rs := r :: rs) (by rw [hrs]; rfl) hes
      (by intro hb; simpa [levelAfterRuns, show s.par.bus = .i2c from hb] using hl hb)
    simpa [State.traffic_traffic] using this

theorem sendRuns_ends (rs : List Run) (s : State) (hb : s.busy = true) : SendRunsEnds rs s (sendRuns rs s) := by
  induction rs generalizing s with
  | nil =>
    have h := SendRunsEnds.sent (rs := []) (s := s) s.env s.draws
    have hl : levelAfterRuns s.par.bus [] s.dc = s.dc := by cases s.par.bus <;> rfl
    simpa [sendRuns, batchReset, hl, State.traffic_nil] using h
  | cons r rs ih =>
    cases hbus : s.par.bus with
    | i2c =>
      simp only [sendRuns, driveFor, hbus, Res.andThen_done]
      obtain ⟨a, e, hk, h⟩ | ⟨e, h⟩ := busWrite_cases r.bytes s
      · rw [h, State.drawn_emit _ _ _ hb]
        cases a with
        | ok =>
          have hu := ih (s.traffic [.busWrite r.bytes .ok] s.dc e (s.draws + 1)) hb
          refine SendRunsEnds.after_run (e0 := e) (n0 := s.draws + 1) ?_
          simpa [hbus, runEvents, selectEvents, levelAfterRuns] using hu
        | fail k =>
          have := SendRunsEnds.writeFailed (rs := r :: rs) (s := s) [] rs r k e (s.draws + 1) rfl (hk k rfl)
          simpa [batchReset, hbus, runEvents, selectEvents, levelAfterRuns] using this
      · rw [h, State.drawn_eq_traffic]
        exact SendRunsEnds.held (rs := r :: rs) (s := s) [] rs r (.busWrite r.bytes) s.dc [] e (s.draws + 1) rfl
          (.inl rfl) (fun _ => rfl)
    | spi =>
      simp only [sendRuns, driveFor, hbus]
      obtain ⟨a, e, h⟩ | ⟨e, h⟩ := selectLine_cases r.tag s
      · rw [h, State.drawn_setDc_emit _ _ _ _ hb]
        cases a with
        | fail =>
          exact SendRunsEnds.selectFailed (rs := r :: rs) (s := s) [] rs r e (s.draws + 1) rfl hbus
        | ok =>
          simp only [Res.andThen_done]
          obtain ⟨a, e', hk, h'⟩ | ⟨e', h'⟩ := busWrite_cases r.bytes
            (s.traffic [selectEvent r.tag .ok] (levelAfterSelect r.tag .ok) e (s.draws + 1))
          · rw [h', State.drawn_emit _ _ _ (by simpa using hb), State.traffic_traffic]
            cases a with
            | ok =>
              have hu := ih (s.traffic [selectEvent r.tag .ok, .busWrite r.bytes .ok] (tagLevel r.tag) e' (s.draws + 1 + 1)) hb
              refine SendRunsEnds.after_run (e0 := e') (n0 := s.draws + 1 + 1) ?_
              simpa [hbus, runEvents, selectEvents, levelAfterRuns, levelAfterSelect] using hu
            | fail k =>
              have := SendRunsEnds.writeFailed (rs := r :: rs) (s := s) [] rs r k e' (s.draws + 1 + 1) rfl (hk k rfl)
              simpa [batchReset, hbus, runEvents, selectEvents, levelAfterRuns, levelAfterSelect] using this
          · rw [h', State.drawn_eq_traffic, State.traffic_traffic]
            have := SendRunsEnds.held (rs := r :: rs) (s := s) [] rs r (.busWrite r.bytes) (tagLevel r.tag)
              [selectEvent r.tag .ok] e' (s.draws + 1 + 1) rfl (.inr (by simp [selectEvents, hbus])) (by simp [hbus])
            simpa [levelAfterSelect] using this
      · rw [h, State.drawn_eq_traffic]
        exact SendRunsEnds.held (rs := r :: rs) (s := s) [] rs r (selectCall r.tag) s.dc [] e (s.draws + 1) rfl
          (.inl rfl) (fun _ => rfl)

/-! ## Everything SEND can do -/

/-- How `send()` ends (40_batcher R110). -/
inductive SendEnds (s : State) : Res Status → Prop
  | held (e : Env) (n : Nat) : SendEnds s (.hung ((s.traffic [] s.dc e n).hang .busReady))
  | unavailable (e : Env) (n : Nat) :
      SendEnds s (.done .errUnavailable (s.traffic [.busReady false] s.dc e n))
  | empty (e : Env) (n : Nat) (h : s.batch = []) :
      SendEnds s (.done .errEmpty (s.traffic [.busReady true] s.dc e n))
  | loop (e : Env) (n : Nat) (r : Res Status) (h : s.batch ≠ [])
      (hr : SendRunsEnds s.batch ((s.traffic [.busReady true] s.dc e n).setBatch s.batch none) r) : SendEnds s r

theorem send_ends (s : State) (hb : s.busy = true) : SendEnds s (send s) := by
  unfold send
  obtain ⟨b, e, h⟩ | ⟨e, h⟩ := busReady_cases s
  · rw [h, Res.andThen_done, State.drawn_emit _ _ _ hb]
    cases b with
    | false => exact SendEnds.unavailable e (s.draws + 1)
    | true =>
      rw [if_neg (by simp)]
      have hq := pending_iff_batch (s.traffic [.busReady true] s.dc e (s.draws + 1))
      by_cases hp : s.batch = []
      · rw [if_pos (hq.2 hp)]
        exact SendEnds.empty e (s.draws + 1) hp
      · rw [if_neg (fun h => hp (hq.1 h)), finalize_eq]
        exact SendEnds.loop e (s.draws + 1) _ hp (sendRuns_ends _ _ hb)
  · rw [h, State.drawn_eq_traffic]
    exact SendEnds.held e (s.draws + 1)

/-! ## SEND with answers that the environment fixes -/

/-- The loop over runs whose drives and writes all answer ok, and what follows it. -/
theorem sendRuns_okRuns (rs later : List Run) (s : State) (w : List (Reply WriteAnswer)) (d : List (Reply DriveAnswer))
    (hb : s.busy = true) (hw : s.env.writes = okWrites rs.length ++ w)
    (hd : s.env.drives = okDrives (drivesPerRun s.par.bus * rs.length) ++ d) :
    sendRuns (rs ++ later) s = sendRuns later (s.traffic (rs.flatMap (fun x => runEvents s.par.bus x .ok))
      (levelAfterRuns s.par.bus rs s.dc) { s.env with writes := w, drives := d }
      (s.draws + (1 + drivesPerRun s.par.bus) * rs.length)) := by
  induction rs generalizing s with
  | nil =>
    have hl : levelAfterRuns s.par.bus [] s.dc = s.dc := by cases s.par.bus <;> rfl
    have he : ({ s.env with writes := w, drives := d } : Env) = s.env := by
      rw [show w = s.env.writes from hw.symm, show d = s.env.drives by simpa [okDrives] using hd.symm]
    simp [hl, he, State.traffic_nil]
  | cons r rs ih =>
    cases hbus : s.par.bus with
    | i2c =>
      simp only [List.cons_append, sendRuns, driveFor, hbus, Res.andThen_done]
      rw [busWrite_answer r.bytes (a := .ok) (w := okWrites rs.length ++ w) (by rw [hw]; rfl), State.drawn_emit _ _ _ hb]
      simp only [Res.andThen_done, clampAnswer]
      refine (ih _ ?_ ?_ ?_).trans ?_
      · exact hb
      · rfl
      · simpa [hbus, drivesPerRun] using hd
      rw [State.traffic_traffic, levelAfterRuns_cons]
      simp [hbus, runEvents, selectEvents, levelAfterRuns, drivesPerRun]
      congr 2
      omega
    | spi =>
      simp only [List.cons_append, sendRuns, driveFor, hbus]
      rw [selectLine_answer r.tag (a := .ok) (d := okDrives (drivesPerRun .spi * rs.length) ++ d)
        (by rw [hd, hbus]; simp [drivesPerRun, okDrives, List.replicate_succ]), State.drawn_setDc_emit _ _ _ _ hb]
      simp only [Res.andThen_done]
      rw [busWrite_answer r.bytes (a := .ok) (w := okWrites rs.length ++ w) (by simp [hw, okWrites, List.replicate_succ]),
        State.drawn_emit _ _ _ (by simpa using hb), State.traffic_traffic]
      simp only [Res.andThen_done, clampAnswer]
      refine (ih _ ?_ ?_ ?_).trans ?_
      · exact hb
      · rfl
      · simp [hbus]
      rw [State.traffic_traffic, levelAfterRuns_cons]
      simp [hbus, runEvents, selectEvents, levelAfterRuns, levelAfterSelect, drivesPerRun]
      congr 2
      omega

end Sys2Proof.Machine
end

