-- ==== Sys2Proof/Laws/Decode.lean ====
section
/-! SUPPORT. The request encoding's small facts: LEN as a number, and OP bytes and their names. -/

namespace Sys2Proof

/-- LEN is `byte1 + 256 * byte2`: the two halves share no bit (30_encoding R72). -/
theorem lenOf_eq (byte1 byte2 : Byte) : lenOf byte1 byte2 = byte1.toNat + 256 * byte2.toNat := by
  have h1 := byte1.isLt
  have h2 := byte2.isLt
  have h3 : byte2.toNat <<< 8 % 65536 = byte2.toNat <<< 8 := by
    rw [Nat.shiftLeft_eq]
    omega
  have h4 := Nat.shiftLeft_add_eq_or_of_lt (a := byte2.toNat) (b := byte1.toNat) (i := 8) h1
  simp only [lenOf, BitVec.toNat_or, BitVec.toNat_setWidth, BitVec.toNat_shiftLeft]
  rw [Nat.mod_eq_of_lt (show byte1.toNat < 2 ^ 16 by omega), Nat.mod_eq_of_lt (show byte2.toNat < 2 ^ 16 by omega),
    Nat.or_comm, show (2 : Nat) ^ 16 = 65536 from rfl, h3, ← h4, Nat.shiftLeft_eq]
  omega

/-- The LEN of a payload length that fits is that length (30_encoding R72). -/
theorem lenOf_low_high {n : Nat} (h : n ≤ 65535) : lenOf (lenLow n) (lenHigh n) = n := by
  rw [lenOf_eq]
  simp only [lenLow, lenHigh, BitVec.toNat_ofNat]
  omega

/-- The bytes of a LEN are the LEN's bytes. -/
theorem lenLow_lenOf (a b : Byte) : lenLow (lenOf a b) = a := by
  apply BitVec.eq_of_toNat_eq
  have h1 := a.isLt
  have h2 := b.isLt
  simp only [lenLow, lenOf_eq, BitVec.toNat_ofNat]
  omega

theorem lenHigh_lenOf (a b : Byte) : lenHigh (lenOf a b) = b := by
  apply BitVec.eq_of_toNat_eq
  have h1 := a.isLt
  have h2 := b.isLt
  simp only [lenHigh, lenOf_eq, BitVec.toNat_ofNat]
  omega

theorem lenOf_le (a b : Byte) : lenOf a b ≤ 65535 := by
  have h1 := a.isLt
  have h2 := b.isLt
  rw [lenOf_eq]
  omega

/-- Each operation's OP byte names it (30_encoding R73). -/
@[simp] theorem Opcode.ofByte_byte (o : Opcode) : Opcode.ofByte o.byte = some o := by
  cases o <;> rfl

/-- An OP byte that names an operation is that operation's. -/
theorem Opcode.byte_of_ofByte {b : Byte} {o : Opcode} (h : Opcode.ofByte b = some o) : o.byte = b := by
  simpa using List.find?_some h

@[simp] theorem Opcode.build_opcode (o : Opcode) (bs : List Byte) : (o.build bs).opcode = o := by
  cases o <;> rfl

theorem Opcode.build_payload_fb {o : Opcode} (h : o.format = .fb) (bs : List Byte) : (o.build bs).payload = bs := by
  cases o <;> first | rfl | simp [Opcode.format] at h

theorem Opcode.build_payload_f0 {o : Opcode} (h : o.format = .f0) (bs : List Byte) : (o.build bs).payload = [] := by
  cases o <;> first | rfl | simp [Opcode.format] at h

/-- An operation is its opcode and its payload. -/
@[simp] theorem Instr.build_self (i : Instr) : i.opcode.build i.payload = i := by
  cases i <;> rfl

/-- The decoder's three answers, by the front of the stream (30_encoding R74, R75). -/
theorem decode_cases (bs : List Byte) :
    (bs = [] ∧ decode bs = .incomplete)
      ∨ (∃ op tail, bs = op :: tail ∧ Opcode.ofByte op = none ∧ decode bs = .illegal op tail)
      ∨ (∃ (o : Opcode) (tail : List Byte), bs = o.byte :: tail ∧ o.format = .f0 ∧ decode bs = .frame (o.build []) tail)
      ∨ ∃ (o : Opcode) (tail : List Byte), bs = o.byte :: tail ∧ o.format = .fb ∧ decode bs = decodeList o tail := by
  cases bs with
  | nil => exact .inl ⟨rfl, rfl⟩
  | cons op tail =>
    cases h : Opcode.ofByte op with
    | none => exact .inr (.inl ⟨op, tail, rfl, h, by simp [decode, h]⟩)
    | some o =>
      have hb := Opcode.byte_of_ofByte h
      subst hb
      cases hf : o.format with
      | f0 => exact .inr (.inr (.inl ⟨o, tail, rfl, hf, by simp [decode, hf]⟩))
      | fb => exact .inr (.inr (.inr ⟨o, tail, rfl, hf, by simp [decode, hf]⟩))

end Sys2Proof
end

