-- ==== Sys2Proof/Laws/Device.lean ====
section
/-! SUPPORT. The device operations' parts: what a legal parameter set gives, everything `flush` can do with one run, and
everything the reset pulse can do. -/

namespace Sys2Proof.Machine

/-! ## Legal parameters -/

/-- What a legal burst encoding gives (30_encoding R83, R86). -/
theorem burstLegal_iff (p : Params) (c : ControllerConfig) : burstLegal p c = true ↔
    (burstEntries p c).length = 18 ∧ [] ∉ burstEntries p c
      ∧ ∀ k ∈ c.keptBytes, List.Sublist k.2 ((burstEntries p c).getD k.1 []) := by
  simp [burstLegal, and_assoc, List.isSublist_iff_sublist]
  intro _ _
  refine ⟨fun h e => h [] e rfl, fun h x hx hn => h (hn ▸ hx)⟩

/-- The default table is legal for every CFG. -/
theorem burstLegal_standard {p : Params} (c : ControllerConfig) (h : p.burst = .standard) : burstLegal p c = true := by
  rw [burstLegal_iff]
  simp [burstEntries, h, ControllerConfig.standardBurst, ControllerConfig.keptBytes]

/-- Construction makes no block exactly from a set that is not legal (00_scope R8). -/
theorem construct_eq_none (p : Params) (a : ConfigArgs) : State.construct p a = none ↔ ¬ p.Legal (a.resolve p) := by
  rw [State.construct, ite_eq_right_iff]
  exact ⟨fun h hl => Option.some_ne_none _ (h hl), fun h hl => absurd hl h⟩

/-- A constructed block is `State.fresh`. -/
theorem construct_eq_some {p : Params} {a : ConfigArgs} {s : State} :
    State.construct p a = some s ↔ p.Legal (a.resolve p) ∧ s = State.fresh p (a.resolve p) := by
  rw [State.construct, Option.ite_none_right_eq_some, Option.some.injEq, eq_comm (a := s)]

/-- The DeviceBuffer has at least one byte (00_scope R6). -/
theorem bufLen_pos {p : Params} {c : ControllerConfig} (h : p.Legal c) : 0 < p.bufLen := by
  obtain ⟨h1, _, h3, _⟩ := h
  have : 0 < p.pages := by
    unfold Params.pages
    omega
  exact Nat.mul_pos (by omega) this

/-- The burst has 18 non-empty entries, so it is not empty (41_device R131). -/
theorem burst_ne_nil {p : Params} {c : ControllerConfig} (h : p.Legal c) : burst p c ≠ [] := by
  have hb := h.2.2.2.2.2.2.2.2.2.1
  rw [burstLegal_iff] at hb
  obtain ⟨hlen, hne, _⟩ := hb
  unfold burst
  intro hnil
  rw [List.flatten_eq_nil_iff] at hnil
  cases he : burstEntries p c with
  | nil => simp [he] at hlen
  | cons e es => exact hne (hnil e (by simp [he]) ▸ by simp [he])

theorem startBytes_length_le (b : Bus) (t : Tag) : (startBytes b t).length ≤ 1 := by
  cases b <;> simp [startBytes]

/-- The device operations' batches fit every legal CAP (40_batcher R102). -/
theorem flush_fits {p : Params} {c : ControllerConfig} (h : p.Legal c) {bs : List Byte} (t : Tag)
    (hbs : bs = burst p c ∨ bs.length = p.bufLen) :
    exceedsCap p (bs.length + (startBytes p.bus t).length) = false := by
  have hc := h.2.2.2.2.2.2.2.2.2.2
  have hs := startBytes_length_le p.bus t
  unfold capLegal at hc
  unfold exceedsCap
  cases hcap : p.cap with
  | none => rfl
  | some n =>
    rw [hcap] at hc
    simp only [decide_eq_true_eq] at hc
    simp only [decide_eq_false_iff_not, not_lt]
    have hm : bs.length ≤ max (burst p c).length p.bufLen := by
      rcases hbs with rfl | hb
      · exact Nat.le_max_left _ _
      · rw [hb]; exact Nat.le_max_right _ _
    omega

theorem flush_ne_nil {p : Params} {c : ControllerConfig} (h : p.Legal c) {bs : List Byte}
    (hbs : bs = burst p c ∨ bs.length = p.bufLen) : bs ≠ [] := by
  rcases hbs with rfl | hb
  · exact burst_ne_nil h
  · intro hnil
    have := bufLen_pos h
    simp [hnil] at hb
    omega

/-- `flush` sends a batch of its one run (40_batcher R118). -/
theorem flush_eq {s : State} (h : s.par.Legal s.cfg) {t : Tag} {bs : List Byte}
    (hbs : bs = burst s.par s.cfg ∨ bs.length = s.par.bufLen) :
    flush t bs s = send (s.setBatch [] (some (flushRun s.par t bs))) := by
  rw [flush, append_empty (flush_ne_nil h hbs) (flush_fits h t hbs)]
  rfl

/-! ## Everything a flush can do -/

/-- How the send of a batch of one run ends. -/
inductive FlushEnds (x : Run) (s : State) : Res Status → Prop
  | heldAtQuery (e : Env) (n : Nat) :
      FlushEnds x s (.hung (((s.setBatch [] (some x)).traffic [] s.dc e n).hang .busReady))
  | unavailable (e : Env) (n : Nat) :
      FlushEnds x s (.done .errUnavailable ((s.setBatch [] (some x)).traffic [.busReady false] s.dc e n))
  | sent (e : Env) (n : Nat) :
      FlushEnds x s (.done .ok ((s.setBatch [] none).traffic (.busReady true :: runEvents s.par.bus x .ok)
        (levelAfterRuns s.par.bus [x] s.dc) e n))
  | writeFailed (k : Nat) (e : Env) (n : Nat) (hk : k ≤ x.bytes.length) :
      FlushEnds x s (.done .errIo ((s.setBatch [] none).traffic (.busReady true :: runEvents s.par.bus x (.fail k))
        (levelAfterRuns s.par.bus [x] s.dc) e n))
  | selectFailed (e : Env) (n : Nat) (hbus : s.par.bus = .spi) :
      FlushEnds x s (.done .errIo ((s.setBatch [] none).traffic [.busReady true, selectEvent x.tag .fail] .unknown e n))
  | held (c : Call) (l : SelectLevel) (es : List Event) (e : Env) (n : Nat)
      (hes : es = [] ∨ es = selectEvents s.par.bus x.tag .ok) (hl : s.par.bus = .i2c → l = s.dc) :
      FlushEnds x s (.hung (((s.setBatch [x] none).traffic (.busReady true :: es) l e n).hang c))

theorem singleton_split {α : Type} {x y : α} {before after : List α} (h : [x] = before ++ y :: after) :
    before = [] ∧ y = x ∧ after = [] := by
  cases before with
  | nil => simp_all
  | cons b bs =>
    have := congrArg List.length h
    simp at this

theorem flush_ends {s : State} (h : s.par.Legal s.cfg) (hb : s.busy = true) {t : Tag} {bs : List Byte}
    (hbs : bs = burst s.par s.cfg ∨ bs.length = s.par.bufLen) :
    FlushEnds (flushRun s.par t bs) s (flush t bs s) := by
  rw [flush_eq h hbs]
  generalize flushRun s.par t bs = x
  have hs := send_ends (s.setBatch [] (some x)) hb
  generalize send (s.setBatch [] (some x)) = r at hs
  cases hs with
  | held e n => exact FlushEnds.heldAtQuery e n
  | unavailable e n => exact FlushEnds.unavailable e n
  | empty e n hemp => simp [State.batch] at hemp
  | loop e n _ hne hr =>
    have hbatch : (s.setBatch [] (some x)).batch = [x] := rfl
    rw [hbatch] at hr
    cases hr with
    | sent e n => simpa [State.traffic, State.setBatch, State.logged, List.replicate_succ] using FlushEnds.sent (x := x) (s := s) e n
    | writeFailed before after y k e n hrs hk =>
      obtain ⟨rfl, rfl, rfl⟩ := singleton_split hrs
      simpa [State.traffic, State.setBatch, State.logged, List.replicate_succ] using FlushEnds.writeFailed (x := y) (s := s) k e n hk
    | selectFailed before after y e n hrs hbus =>
      obtain ⟨rfl, rfl, rfl⟩ := singleton_split hrs
      simpa [State.traffic, State.setBatch, State.logged, List.replicate_succ] using FlushEnds.selectFailed (x := y) (s := s) e n hbus
    | held before after y c l es e n hrs hes hl =>
      obtain ⟨rfl, rfl, rfl⟩ := singleton_split hrs
      simpa [State.traffic, State.setBatch, State.logged, State.hang, List.replicate_succ] using
        FlushEnds.held (x := y) (s := s) c l es e n hes hl

/-- `flush` with every answer ok, and the environment fixing them. -/
theorem flush_answered_ok {s : State} (h : s.par.Legal s.cfg) (hb : s.busy = true) {t : Tag} {bs : List Byte}
    (hbs : bs = burst s.par s.cfg ∨ bs.length = s.par.bufLen) {r : List (Reply Bool)} {w : List (Reply WriteAnswer)}
    {d : List (Reply DriveAnswer)} (hr : s.env.ready = .answer true :: r) (hw : s.env.writes = .answer .ok :: w)
    (hd : s.env.drives = okDrives (drivesPerRun s.par.bus) ++ d) :
    flush t bs s = .done .ok ((s.setBatch [] none).traffic
      (.busReady true :: runEvents s.par.bus (flushRun s.par t bs) .ok)
      (levelAfterRuns s.par.bus [flushRun s.par t bs] s.dc)
      { s.env with ready := r, writes := w, drives := d } (s.draws + 2 + drivesPerRun s.par.bus)) := by
  rw [flush_eq h hbs, send, busReady_answer (s := s.setBatch [] (some (flushRun s.par t bs))) hr]
  rw [State.drawn_emit _ _ _ (by exact hb)]
  simp only [Res.andThen_done, State.setBatch_env]
  rw [if_neg (by simp), if_neg (by simp [State.pending]), finalize_eq]
  have := sendRuns_okRuns [flushRun s.par t bs] []
    (((s.setBatch [] none).traffic [.busReady true] s.dc { s.env with ready := r } (s.draws + 1)).setBatch
      [flushRun s.par t bs] none) w d hb (by simpa [okWrites] using hw) (by simpa using hd)
  rw [List.append_nil] at this
  refine Eq.trans ?_ (this.trans ?_)
  · rfl
  · simp only [sendRuns, batchReset]
    simp [State.traffic, State.setBatch, State.logged, List.replicate_succ]
    omega

/-- `flush` when the write fails, and the environment fixes the answers. -/
theorem flush_answered_fail {s : State} (h : s.par.Legal s.cfg) (hb : s.busy = true) {t : Tag} {bs : List Byte}
    (hbs : bs = burst s.par s.cfg ∨ bs.length = s.par.bufLen) {k : Nat} {r : List (Reply Bool)}
    {w : List (Reply WriteAnswer)} {d : List (Reply DriveAnswer)} (hr : s.env.ready = .answer true :: r)
    (hw : s.env.writes = .answer (.fail k) :: w) (hd : s.env.drives = okDrives (drivesPerRun s.par.bus) ++ d) :
    flush t bs s = .done .errIo ((s.setBatch [] none).traffic
      (.busReady true :: runEvents s.par.bus (flushRun s.par t bs) (.fail (min k (frameBytes s.par.bus t bs).length)))
      (levelAfterRuns s.par.bus [flushRun s.par t bs] s.dc)
      { s.env with ready := r, writes := w, drives := d } (s.draws + 2 + drivesPerRun s.par.bus)) := by
  rw [flush_eq h hbs, send, busReady_answer (s := s.setBatch [] (some (flushRun s.par t bs))) hr]
  rw [State.drawn_emit _ _ _ (by exact hb)]
  simp only [Res.andThen_done, State.setBatch_env]
  rw [if_neg (by simp), if_neg (by simp [State.pending]), finalize_eq]
  simp only [State.batch, State.traffic_runs, State.traffic_cur, State.setBatch_runs, State.setBatch_cur,
    Option.toList_some, List.nil_append, sendRuns]
  cases hbus : s.par.bus with
  | i2c =>
    rw [hbus] at hd
    have hd' : d = s.env.drives := by simpa [drivesPerRun, okDrives] using hd.symm
    simp [driveFor, hbus, busWrite, drawWrite, hw, clampAnswer, flushRun, batchReset, State.drawn, State.emit, hb, hd',
      State.traffic, State.setBatch, State.logged, runEvents, selectEvents, levelAfterRuns, drivesPerRun]
  | spi =>
    rw [hbus] at hd
    have hd' : s.env.drives = .answer .ok :: d := by simpa [drivesPerRun, okDrives] using hd
    simp [driveFor, hbus, selectLine, drawDrive, hd', busWrite, drawWrite, hw, clampAnswer, flushRun, batchReset,
      State.drawn, State.emit, State.setDc, hb, State.traffic, State.setBatch, State.logged, runEvents, selectEvents,
      levelAfterRuns, levelAfterSelect, drivesPerRun, List.replicate_succ]

/-- `flush` when the select drive fails, and the environment fixes the answers. -/
theorem flush_answered_selectFail {s : State} (h : s.par.Legal s.cfg) (hb : s.busy = true) {t : Tag} {bs : List Byte}
    (hbs : bs = burst s.par s.cfg ∨ bs.length = s.par.bufLen) (hbus : s.par.bus = .spi) {r : List (Reply Bool)}
    {d : List (Reply DriveAnswer)} (hr : s.env.ready = .answer true :: r) (hd : s.env.drives = .answer .fail :: d) :
    flush t bs s = .done .errIo ((s.setBatch [] none).traffic [.busReady true, selectEvent t .fail] .unknown
      { s.env with ready := r, drives := d } (s.draws + 2)) := by
  rw [flush_eq h hbs, send, busReady_answer (s := s.setBatch [] (some (flushRun s.par t bs))) hr]
  rw [State.drawn_emit _ _ _ (by exact hb)]
  simp only [Res.andThen_done, State.setBatch_env]
  rw [if_neg (by simp), if_neg (by simp [State.pending]), finalize_eq]
  simp [State.batch, sendRuns, driveFor, hbus, selectLine, drawDrive, hd, flushRun, batchReset, State.drawn, State.emit,
    State.setDc, hb, State.traffic, State.setBatch, State.logged, levelAfterSelect, List.replicate_succ]

/-- `flush` when the transport is unavailable, and the environment fixes that. -/
theorem flush_answered_unavailable {s : State} (h : s.par.Legal s.cfg) (hb : s.busy = true) {t : Tag} {bs : List Byte}
    (hbs : bs = burst s.par s.cfg ∨ bs.length = s.par.bufLen) {r : List (Reply Bool)}
    (hr : s.env.ready = .answer false :: r) :
    flush t bs s = .done .errUnavailable ((s.setBatch [] (some (flushRun s.par t bs))).traffic [.busReady false] s.dc
      { s.env with ready := r } (s.draws + 1)) := by
  rw [flush_eq h hbs, send, busReady_answer (s := s.setBatch [] (some (flushRun s.par t bs))) hr, State.drawn_emit _ _ _ (by exact hb)]
  rfl

/-! ## Everything the reset pulse can do -/

/-- How the reset pulse ends (41_device R132). -/
inductive PulseEnds (s : State) : Res Status → Prop
  | noLine (h : s.par.hasResetLine = false) : PulseEnds s (.done .ok s)
  | pulsed (h : s.par.hasResetLine = true) (e : Env) (n : Nat) :
      PulseEnds s (.done .ok ((s.setRst .released).traffic (pulseEvents s.par) s.dc e n))
  | assertFailed (h : s.par.hasResetLine = true) (e : Env) (n : Nat) :
      PulseEnds s (.done .errIo ((s.setRst .unknown).traffic [.assertReset .fail] s.dc e n))
  | releaseFailed (h : s.par.hasResetLine = true) (e : Env) (n : Nat) :
      PulseEnds s (.done .errIo ((s.setRst .unknown).traffic
        [.assertReset .ok, .delay .rstLow s.par.tRstLow, .releaseReset .fail] s.dc e n))
  | heldAtAssert (h : s.par.hasResetLine = true) (e : Env) (n : Nat) :
      PulseEnds s (.hung ((s.traffic [] s.dc e n).hang .assertReset))
  | heldAtRelease (h : s.par.hasResetLine = true) (e : Env) (n : Nat) :
      PulseEnds s (.hung (((s.setRst .asserted).traffic [.assertReset .ok, .delay .rstLow s.par.tRstLow] s.dc e n).hang
        .releaseReset))

theorem resetPulse_ends (s : State) (hb : s.busy = true) : PulseEnds s (resetPulse s) := by
  unfold resetPulse
  cases hl : s.par.hasResetLine with
  | false => exact PulseEnds.noLine hl
  | true =>
    rw [if_neg (by simp)]
    obtain ⟨e, h⟩ | ⟨e, h⟩ | ⟨e, h⟩ := assertReset_cases s
    · rw [h, Res.andThen_done]
      simp only [delay, State.emit_par, State.setRst_par, State.drawn_par]
      obtain ⟨e', h'⟩ | ⟨e', h'⟩ | ⟨e', h'⟩ := releaseReset_cases
        ((((s.drawn e).setRst .asserted).emit (.assertReset .ok)).emit (.delay .rstLow s.par.tRstLow))
      · rw [h']
        have := PulseEnds.pulsed hl e' (s.draws + 1 + 1)
        simpa [State.drawn, State.setRst, State.emit, State.traffic, State.logged, pulseEvents, hl, hb,
          List.replicate_succ] using this
      · rw [h']
        have := PulseEnds.releaseFailed hl e' (s.draws + 1 + 1)
        simpa [State.drawn, State.setRst, State.emit, State.traffic, State.logged, hb, List.replicate_succ] using this
      · rw [h']
        have := PulseEnds.heldAtRelease hl e' (s.draws + 1 + 1)
        simpa [State.drawn, State.setRst, State.emit, State.traffic, State.logged, State.hang, hb,
          List.replicate_succ] using this
    · rw [h]
      have := PulseEnds.assertFailed hl e (s.draws + 1)
      simpa [State.drawn, State.setRst, State.emit, State.traffic, State.logged, hb] using this
    · rw [h, State.drawn_eq_traffic]
      exact PulseEnds.heldAtAssert hl e (s.draws + 1)

/-- The reset pulse with every answer ok, and the environment fixing them. -/
theorem resetPulse_answered_ok {s : State} (hb : s.busy = true) {d : List (Reply DriveAnswer)}
    (hd : s.env.drives = okDrives (pulseDrives s.par) ++ d) :
    resetPulse s = .done .ok ((s.setRst (levelAfterPulse s.par s.rst)).traffic (pulseEvents s.par) s.dc
      { s.env with drives := d } (s.draws + pulseDrives s.par)) := by
  unfold resetPulse
  cases hl : s.par.hasResetLine with
  | false =>
    have hd' : d = s.env.drives := by simpa [pulseDrives, hl, okDrives] using hd.symm
    simp [pulseEvents, pulseDrives, levelAfterPulse, hl, hd', State.traffic, State.logged, State.setRst]
  | true =>
    have hd' : s.env.drives = .answer .ok :: .answer .ok :: d := by
      simpa [pulseDrives, hl, okDrives, List.replicate_succ] using hd
    simp [assertReset, releaseReset, drawDrive, hd', delay, pulseEvents, pulseDrives, levelAfterPulse, hl, State.traffic,
      State.logged, State.setRst, State.drawn, State.emit, hb, List.replicate_succ]

/-! ## Everything INIT can do -/

/-- The initial image fills the DeviceBuffer (41_device R142). -/
theorem initialImage_length (p : Params) : (initialImage p).length = p.bufLen := by
  unfold initialImage
  split
  · split
    · assumption
    · exact List.length_replicate
  · exact List.length_replicate

/-- A committed image is what the buffer reads back as. -/
theorem bufBytes_setBuf {s : State} {bs : List Byte} (h : bs.length = s.par.bufLen) : (s.setBuf bs).bufBytes = bs := by
  have hb := Memory.bytesFrom_ofBytes bs
  rwa [h] at hb

/-- A stage that did not answer `OK`: aborted, or held for ever. -/
def Res.failed : Res Status → Res Status
  | .done st s => abortInit st s
  | .hung s => .hung s

theorem orAbort_ok (s : State) (k : State → Res Status) : (Res.done .ok s).orAbort k = k s := rfl

theorem orAbort_failed {r : Res Status} (h : ∀ u, r ≠ .done .ok u) (k : State → Res Status) :
    r.orAbort k = r.failed := by
  cases r with
  | hung s => rfl
  | done st s =>
    have hst : st ≠ .ok := fun e => h s (by rw [e])
    simp [Res.orAbort, Res.failed, hst]

/-- The state in which INIT sends its burst. -/
def burstPoint (s : State) (e : Env) (n : Nat) : State :=
  ((s.setDev .initializing).setRst (levelAfterPulse s.par s.rst)).traffic (bootEvents s.par) s.dc e n

/-- The state in which INIT sends its initial image: the burst was sent and the image is in the buffer. -/
def imagePoint (s : State) (e : Env) (n : Nat) : State :=
  ((((s.setDev .initializing).setRst (levelAfterPulse s.par s.rst)).setBatch [] none).setBuf (initialImage s.par)).traffic
    (bootEvents s.par ++ .busReady true :: runEvents s.par.bus (flushRun s.par .cmd (burst s.par s.cfg)) .ok)
    (levelAfterRuns s.par.bus [flushRun s.par .cmd (burst s.par s.cfg)] s.dc) e n

section
variable (s : State) (e : Env) (n : Nat)
@[simp] theorem burstPoint_par : (burstPoint s e n).par = s.par := rfl
@[simp] theorem burstPoint_cfg : (burstPoint s e n).cfg = s.cfg := rfl
@[simp] theorem burstPoint_dev : (burstPoint s e n).dev = .initializing := rfl
@[simp] theorem burstPoint_busy : (burstPoint s e n).busy = s.busy := rfl
@[simp] theorem burstPoint_rst : (burstPoint s e n).rst = levelAfterPulse s.par s.rst := rfl
@[simp] theorem burstPoint_rx : (burstPoint s e n).rx = s.rx := rfl
@[simp] theorem burstPoint_responses : (burstPoint s e n).responses = s.responses := rfl
@[simp] theorem burstPoint_waiting : (burstPoint s e n).waiting = s.waiting := rfl
@[simp] theorem burstPoint_env : (burstPoint s e n).env = e := rfl
@[simp] theorem burstPoint_draws : (burstPoint s e n).draws = n := rfl
@[simp] theorem burstPoint_runs : (burstPoint s e n).runs = s.runs := rfl
@[simp] theorem burstPoint_cur : (burstPoint s e n).cur = s.cur := rfl
@[simp] theorem burstPoint_buf : (burstPoint s e n).buf = s.buf := rfl
@[simp] theorem burstPoint_dc : (burstPoint s e n).dc = s.dc := rfl
@[simp] theorem burstPoint_trace : (burstPoint s e n).trace = s.trace ++ bootEvents s.par := rfl
@[simp] theorem imagePoint_par : (imagePoint s e n).par = s.par := rfl
@[simp] theorem imagePoint_cfg : (imagePoint s e n).cfg = s.cfg := rfl
@[simp] theorem imagePoint_dev : (imagePoint s e n).dev = .initializing := rfl
@[simp] theorem imagePoint_busy : (imagePoint s e n).busy = s.busy := rfl
@[simp] theorem imagePoint_rst : (imagePoint s e n).rst = levelAfterPulse s.par s.rst := rfl
@[simp] theorem imagePoint_rx : (imagePoint s e n).rx = s.rx := rfl
@[simp] theorem imagePoint_responses : (imagePoint s e n).responses = s.responses := rfl
@[simp] theorem imagePoint_waiting : (imagePoint s e n).waiting = s.waiting := rfl
@[simp] theorem imagePoint_env : (imagePoint s e n).env = e := rfl
@[simp] theorem imagePoint_draws : (imagePoint s e n).draws = n := rfl
@[simp] theorem imagePoint_runs : (imagePoint s e n).runs = [] := rfl
@[simp] theorem imagePoint_cur : (imagePoint s e n).cur = none := rfl
@[simp] theorem imagePoint_buf : (imagePoint s e n).buf = Memory.ofBytes (initialImage s.par) := rfl
@[simp] theorem imagePoint_dc : (imagePoint s e n).dc = levelAfterRuns s.par.bus [flushRun s.par .cmd (burst s.par s.cfg)] s.dc := rfl
@[simp] theorem imagePoint_trace : (imagePoint s e n).trace = s.trace ++ (bootEvents s.par
    ++ .busReady true :: runEvents s.par.bus (flushRun s.par .cmd (burst s.par s.cfg)) .ok) := rfl
end

/-- How INIT ends from Unknown (41_device R131). -/
inductive InitEnds (s : State) : Res Status → Prop
  | heldAtCheck (e : Env) (n : Nat) :
      InitEnds s (.hung (((s.setDev .initializing).traffic [] s.dc e n).hang .busReady))
  | unusable (e : Env) (n : Nat) :
      InitEnds s (.done .errUnavailable (((s.setDev .initializing).traffic [.busReady false] s.dc e n).setDev .aborted))
  | atPulse (e : Env) (n : Nat) (r : Res Status)
      (h : PulseEnds ((s.setDev .initializing).traffic [.busReady true] s.dc e n) r) (hr : ∀ u, r ≠ .done .ok u) :
      InitEnds s r.failed
  | atBurst (e : Env) (n : Nat) (r : Res Status)
      (h : FlushEnds (flushRun s.par .cmd (burst s.par s.cfg)) (burstPoint s e n) r) (hr : ∀ u, r ≠ .done .ok u) :
      InitEnds s r.failed
  | atImage (e : Env) (n : Nat) (r : Res Status)
      (h : FlushEnds (flushRun s.par .data (initialImage s.par)) (imagePoint s e n) r) (hr : ∀ u, r ≠ .done .ok u) :
      InitEnds s r.failed
  | ready (e : Env) (n : Nat) :
      InitEnds s (.done .ok (((imagePoint s e n).traffic
        (.busReady true :: runEvents s.par.bus (flushRun s.par .data (initialImage s.par)) .ok
          ++ [.delay .settle s.par.tSettle])
        (levelAfterRuns s.par.bus [flushRun s.par .data (initialImage s.par)]
          (levelAfterRuns s.par.bus [flushRun s.par .cmd (burst s.par s.cfg)] s.dc)) e n).setDev .ready))

/-- INIT from its burst on. -/
theorem burst_ends {s : State} (h : s.par.Legal s.cfg) (hb : s.busy = true) (e0 : Env) (n0 : Nat) :
    InitEnds s ((flush .cmd (burst s.par s.cfg) (burstPoint s e0 n0)).orAbort fun s =>
      (flush .data (s.setBuf (initialImage s.par)).bufBytes (s.setBuf (initialImage s.par))).orAbort fun s =>
      .done .ok ((delay .settle s.par.tSettle s).setDev .ready)) := by
  have hf : FlushEnds (flushRun s.par .cmd (burst s.par s.cfg)) (burstPoint s e0 n0)
      (flush .cmd (burst s.par s.cfg) (burstPoint s e0 n0)) :=
    flush_ends (s := burstPoint s e0 n0) h hb (.inl rfl)
  by_cases hok : ∀ u, flush .cmd (burst s.par s.cfg) (burstPoint s e0 n0) ≠ .done .ok u
  · rw [orAbort_failed hok]
    exact .atBurst e0 n0 _ hf hok
  · push Not at hok
    obtain ⟨u, hu⟩ := hok
    rw [hu] at hf ⊢
    cases hf with
    | sent e n =>
      rw [orAbort_ok]
      have hp : ((((burstPoint s e0 n0).setBatch [] none).traffic
          (.busReady true :: runEvents (burstPoint s e0 n0).par.bus (flushRun s.par .cmd (burst s.par s.cfg)) .ok)
          (levelAfterRuns (burstPoint s e0 n0).par.bus [flushRun s.par .cmd (burst s.par s.cfg)]
            (burstPoint s e0 n0).dc) e n).setBuf (initialImage s.par)) = imagePoint s e n := by
        simp [burstPoint, imagePoint, State.traffic, State.logged, State.setDev, State.setRst, State.setBatch, State.setBuf]
      have hbuf : (imagePoint s e n).bufBytes = initialImage s.par := by
        rw [← hp]
        exact bufBytes_setBuf (initialImage_length _)
      show InitEnds s (((flush .data _ _).orAbort _))
      simp only [State.traffic_par, State.setBatch_par]
      rw [show (burstPoint s e0 n0).par = s.par from rfl] at hp ⊢
      rw [hp, hbuf]
      have hf2 : FlushEnds (flushRun s.par .data (initialImage s.par)) (imagePoint s e n)
          (flush .data (initialImage s.par) (imagePoint s e n)) :=
        flush_ends (s := imagePoint s e n) h hb (.inr (initialImage_length _))
      by_cases hok : ∀ u, flush .data (initialImage s.par) (imagePoint s e n) ≠ .done .ok u
      · rw [orAbort_failed hok]
        exact .atImage e n _ hf2 hok
      · push Not at hok
        obtain ⟨u, hu⟩ := hok
        rw [hu] at hf2 ⊢
        cases hf2 with
        | sent e' n' =>
          rw [orAbort_ok]
          have := InitEnds.ready (s := s) e' n'
          simp only [delay]
          rw [State.emit_eq_traffic _ _ (by exact hb), State.traffic_traffic]
          simpa [imagePoint, State.traffic, State.logged, State.setBatch, State.setDev, State.setBuf, State.setRst] using this

theorem initSequence_ends {s : State} (h : s.par.Legal s.cfg) (hb : s.busy = true) (hd : s.dev = .unknown) :
    InitEnds s (initSequence s) := by
  unfold initSequence
  rw [if_neg (by simp [hd]), usabilityCheck]
  obtain ⟨b, e, hr⟩ | ⟨e, hr⟩ := busReady_cases (s.setDev .initializing)
  · rw [hr, Res.andThen_done, State.drawn_emit (s.setDev .initializing) _ _ hb]
    cases b with
    | false => exact .unusable e (s.draws + 1)
    | true =>
      show InitEnds s ((resetPulse _).orAbort _)
      have hp := resetPulse_ends ((s.setDev .initializing).traffic [.busReady true] (s.setDev .initializing).dc e
        ((s.setDev .initializing).draws + 1)) hb
      by_cases hok : ∀ u, resetPulse ((s.setDev .initializing).traffic [.busReady true] (s.setDev .initializing).dc e
        ((s.setDev .initializing).draws + 1)) ≠ .done .ok u
      · rw [orAbort_failed hok]
        exact .atPulse e (s.draws + 1) _ hp hok
      · push Not at hok
        obtain ⟨u, hu⟩ := hok
        rw [hu] at hp ⊢
        rw [orAbort_ok]
        have hpoint : ∃ e' n', delay .rstWait u.par.tRstWait u = burstPoint s e' n' ∧ u.par = s.par ∧ u.cfg = s.cfg := by
          cases hp with
          | noLine hl =>
            refine ⟨e, s.draws + 1, ?_, rfl, rfl⟩
            rw [delay, State.emit_eq_traffic _ _ (by exact hb), State.traffic_traffic]
            have hl' : s.par.hasResetLine = false := hl
            simp [burstPoint, bootEvents, pulseEvents, levelAfterPulse, hl', State.traffic, State.logged, State.setDev,
              State.setRst]
          | pulsed hl e' n' =>
            refine ⟨e', n', ?_, rfl, rfl⟩
            rw [delay, State.emit_eq_traffic _ _ (by exact hb), State.traffic_traffic]
            have hl' : s.par.hasResetLine = true := hl
            simp [burstPoint, bootEvents, pulseEvents, levelAfterPulse, hl', State.traffic, State.logged, State.setDev,
              State.setRst, List.replicate_succ]
        obtain ⟨e', n', hdel, hpar, hcfg⟩ := hpoint
        rw [hdel, hpar, hcfg]
        exact burst_ends h hb e' n'
  · rw [hr, State.drawn_eq_traffic]
    exact .heldAtCheck e (s.draws + 1)

end Sys2Proof.Machine
end

