-- ==== Sys2Proof/Laws/PerInstr.lean ====
section
/-! SUPPORT. The family FrameForm: each operation's frame begins with its OP byte and is as long as 30_encoding R71 says. -/

namespace Sys2Proof.Laws.FrameForm

/-- The frame's first byte is the OP byte of R73's table, and its length is 1, or 3 + LEN (30_encoding R71, R73). -/
def Statement (i : Instr) : Prop :=
  (encode i).head? = some i.opcode.byte ∧ (encode i).length = i.frameLength

theorem appendCmd (payload : List Byte) : Statement (.appendCmd payload) :=
  ⟨rfl, by simp [encode, Instr.frameLength, Instr.opcode, Opcode.format, Instr.payload]; omega⟩

theorem appendData (payload : List Byte) : Statement (.appendData payload) :=
  ⟨rfl, by simp [encode, Instr.frameLength, Instr.opcode, Opcode.format, Instr.payload]; omega⟩

theorem setCmd (payload : List Byte) : Statement (.setCmd payload) :=
  ⟨rfl, by simp [encode, Instr.frameLength, Instr.opcode, Opcode.format, Instr.payload]; omega⟩

theorem setData (payload : List Byte) : Statement (.setData payload) :=
  ⟨rfl, by simp [encode, Instr.frameLength, Instr.opcode, Opcode.format, Instr.payload]; omega⟩

theorem send : Statement .send := ⟨rfl, rfl⟩

theorem batchReset : Statement .batchReset := ⟨rfl, rfl⟩

theorem init : Statement .init := ⟨rfl, rfl⟩

theorem display : Statement .display := ⟨rfl, rfl⟩

theorem clear : Statement .clear := ⟨rfl, rfl⟩

end Sys2Proof.Laws.FrameForm
end

