-- ==== Sys2Proof/Laws/Transcoder.lean ====
section
/-! SUPPORT. The transcoder's image, its length and its bytes by index; everything DISPLAY and CLEAR can do. -/

namespace Sys2Proof.Machine

/-- Bit `j` of a fold that sets bit `r` where `f r` holds. -/
theorem getLsbD_foldl_setBit (f : Nat → Bool) (rs : List Nat) (b : Byte) (j : Nat) (hj : j < 8) :
    (rs.foldl (fun b r => if f r then b ||| (1#8 <<< r) else b) b).getLsbD j
      = (b.getLsbD j || decide (j ∈ rs) && f j) := by
  induction rs generalizing b with
  | nil => simp
  | cons r rs ih =>
    rw [List.foldl_cons, ih]
    by_cases hr : f r = true
    · by_cases hjr : j = r
      · subst hjr
        simp [hr, hj]
      · have hbit : (1#8 <<< r).getLsbD j = false := by
          rw [BitVec.getLsbD_shiftLeft]
          by_cases h : j < r
          · simp [h]
          · have : j - r ≠ 0 := by omega
            simp [this]
        simp only [hr, if_true, BitVec.getLsbD_or, hbit, Bool.or_false, List.mem_cons, hjr, false_or]
    · have hjr : f j = true → j ≠ r := fun hf hjr => hr (hjr ▸ hf)
      cases hfj : f j with
      | true => simp [hr, hjr hfj]
      | false => simp [hr]

/-- Each bit of an output byte is the decision on its pixel (42_transcoder R154). -/
theorem getLsbD_packByte (p : Params) (px : List Byte) (page col r : Nat) (hr : r < 8) :
    (packByte p px page col).getLsbD r = pixelOn p (pixRead px ((page * 8 + r) * p.width + col)) := by
  rw [packByte, getLsbD_foldl_setBit (fun r => pixelOn p (pixRead px ((page * 8 + r) * p.width + col))) _ _ _ hr]
  simp [hr]

/-- The rows of equal length, one after the other, read by row and column. -/
theorem getD_flatMap_rows (n w : Nat) (f : Nat → Nat → Byte) (row col : Nat) (hr : row < n) (hc : col < w) :
    (((List.range n).flatMap fun i => (List.range w).map fun j => f i j).getD (row * w + col) 0) = f row col := by
  induction n with
  | zero => omega
  | succ n ih =>
    have hlen : ((List.range n).flatMap fun i => (List.range w).map fun j => f i j).length = n * w := by
      simp [List.length_flatMap]
    rw [List.range_succ, List.flatMap_append]
    by_cases h : row < n
    · rw [List.getD_append _ _ _ _ (by
        rw [hlen]
        calc row * w + col < row * w + w := by omega
          _ = (row + 1) * w := by rw [Nat.succ_mul]
          _ ≤ n * w := Nat.mul_le_mul_right w h)]
      exact ih h
    · have hrn : row = n := by omega
      subst hrn
      rw [List.getD_append_right _ _ _ _ (by rw [hlen]; omega), hlen]
      simp [hc]

/-- The image has one byte per page and column (42_transcoder R154). -/
theorem transcode_length (p : Params) (px : List Byte) : (transcode p px).length = p.bufLen := by
  simp [transcode, List.length_flatMap, Params.bufLen, Nat.mul_comm]

/-- The image's byte of a page and column (42_transcoder R154). -/
theorem getD_transcode (p : Params) (px : List Byte) (page col : Nat) (hp : page < p.pages) (hc : col < p.width) :
    (transcode p px).getD (page * p.width + col) 0 = packByte p px page col :=
  getD_flatMap_rows p.pages p.width (packByte p px) page col hp hc

/-! ## Everything DISPLAY and CLEAR can do -/

/-- How DISPLAY ends (42_transcoder R155). -/
inductive DisplayEnds (s : State) : Res Status → Prop
  | notReady (h : s.dev ≠ .ready) : DisplayEnds s (.done .errState s)
  | mismatch (x : Snapshot) (e : Env) (n : Nat) (h : s.dev = .ready) (hx : snapshotFits s.par x = false) :
      DisplayEnds s (.done .errGeometry (s.traffic [.getPixels x] s.dc e n))
  | flushed (x : Snapshot) (e : Env) (n : Nat) (r : Res Status) (h : s.dev = .ready) (hx : snapshotFits s.par x = true)
      (hr : FlushEnds (flushRun s.par .data (transcode s.par x.px))
        ((s.traffic [.getPixels x] s.dc e n).setBuf (transcode s.par x.px)) r) : DisplayEnds s r

theorem displaySurface_ends {s : State} (h : s.par.Legal s.cfg) (hb : s.busy = true) :
    DisplayEnds s (displaySurface s) := by
  unfold displaySurface
  by_cases hd : s.dev = .ready
  · rw [if_neg (by simp [hd])]
    obtain ⟨x, e, hx⟩ := getPixels_cases s
    rw [hx]
    simp only [State.drawn_emit s _ _ hb]
    cases hfit : snapshotFits s.par x with
    | false => exact .mismatch x e _ hd hfit
    | true =>
      rw [if_neg (by simp)]
      refine .flushed x e (s.draws + 1) _ hd hfit ?_
      have hbuf : ((s.traffic [.getPixels x] s.dc e (s.draws + 1)).setBuf (transcode s.par x.px)).bufBytes =
          transcode s.par x.px :=
        bufBytes_setBuf (s := s.traffic [.getPixels x] s.dc e (s.draws + 1)) (transcode_length _ _)
      simp only [hbuf]
      exact flush_ends (s := (s.traffic [.getPixels x] s.dc e (s.draws + 1)).setBuf (transcode s.par x.px)) h hb
        (.inr (transcode_length _ _))
  · rw [if_pos hd]
    exact .notReady hd

/-- How CLEAR ends (42_transcoder R160). -/
inductive ClearEnds (s : State) : Res Status → Prop
  | notReady (h : s.dev ≠ .ready) : ClearEnds s (.done .errState s)
  | flushed (r : Res Status) (h : s.dev = .ready)
      (hr : FlushEnds (flushRun s.par .data (zeros s.par.bufLen))
        ((s.setBuf (zeros s.par.bufLen)).traffic [.surfaceClear] s.dc s.env s.draws) r) : ClearEnds s r

theorem zeros_length (n : Nat) : (zeros n).length = n := List.length_replicate

theorem clearSurface_ends {s : State} (h : s.par.Legal s.cfg) (hb : s.busy = true) : ClearEnds s (clearSurface s) := by
  unfold clearSurface
  by_cases hd : s.dev = .ready
  · rw [if_neg (by simp [hd])]
    refine .flushed _ hd ?_
    simp only [surfaceClear]
    rw [State.emit_eq_traffic (s.setBuf (zeros s.par.bufLen)) _ hb]
    have hbuf : ((s.setBuf (zeros s.par.bufLen)).traffic [.surfaceClear] (s.setBuf (zeros s.par.bufLen)).dc
        (s.setBuf (zeros s.par.bufLen)).env (s.setBuf (zeros s.par.bufLen)).draws).bufBytes = zeros s.par.bufLen :=
      bufBytes_setBuf (s := s) (zeros_length _)
    rw [hbuf]
    exact flush_ends (s := (s.setBuf (zeros s.par.bufLen)).traffic [.surfaceClear] s.dc s.env s.draws) h hb
      (.inr (zeros_length _))
  · rw [if_pos hd]
    exact .notReady hd

end Sys2Proof.Machine
end

