-- ==== Sys2Proof/Laws/Quiet.lean ====
section
/-! SUPPORT. What holds of every operation in every state, a state that no run reaches included: which fields a send and a
device operation may write, and that an operation is answered once or is held for ever. -/

namespace Sys2Proof.Machine

/-- What a send may have done to a state: traffic, and another batch. -/
inductive Sent (s : State) : Res Status → Prop
  | done (st : Status) (es : List Event) (l : SelectLevel) (e : Env) (n : Nat) (rs : List Run) (c : Option Run)
      (hl : s.par.bus = .i2c → l = s.dc) : Sent s (.done st ((s.traffic es l e n).setBatch rs c))
  | hung (es : List Event) (l : SelectLevel) (e : Env) (n : Nat) (rs : List Run) (c : Option Run) (w : Call)
      (hl : s.par.bus = .i2c → l = s.dc) : Sent s (.hung (((s.traffic es l e n).setBatch rs c).hang w))

theorem setBatch_self (s : State) : s.setBatch s.runs s.cur = s := rfl

theorem setBatch_traffic (s : State) (rs : List Run) (c : Option Run) (es : List Event) (l : SelectLevel) (e : Env)
    (n : Nat) : (s.setBatch rs c).traffic es l e n = (s.traffic es l e n).setBatch rs c := rfl

theorem Sent.of_setBatch {s : State} {rs : List Run} {c : Option Run} {r : Res Status}
    (h : Sent (s.setBatch rs c) r) : Sent s r := by
  cases h with
  | done st es l e n rs' c' hl => exact .done st es l e n rs' c' hl
  | hung es l e n rs' c' w hl => exact .hung es l e n rs' c' w hl

theorem levelAfterRuns_i2c {s : State} (rs : List Run) (h : s.par.bus = .i2c) (l : SelectLevel) :
    levelAfterRuns s.par.bus rs l = l := by
  rw [h]
  rfl

theorem send_sent (s : State) (hb : s.busy = true) : Sent s (send s) := by
  have h := send_ends s hb
  generalize send s = r at h
  cases h with
  | held e n => exact .hung [] s.dc e n s.runs s.cur .busReady (fun _ => rfl)
  | unavailable e n => exact .done _ _ s.dc e n s.runs s.cur (fun _ => rfl)
  | empty e n _ => exact .done _ _ s.dc e n s.runs s.cur (fun _ => rfl)
  | loop e n r hne hr =>
    cases hr with
    | sent e n =>
      have := Sent.done (s := s) .ok (.busReady true :: s.batch.flatMap (fun x => runEvents s.par.bus x .ok))
        (levelAfterRuns s.par.bus s.batch s.dc) e n [] none (fun h => levelAfterRuns_i2c _ h _)
      rw [← List.singleton_append, ← State.traffic_traffic s _ _ s.dc _ e _ n] at this
      exact this
    | writeFailed before after x k e n hrs hk =>
      have := Sent.done (s := s) .errIo (.busReady true :: (before.flatMap (fun x => runEvents s.par.bus x .ok)
        ++ runEvents s.par.bus x (.fail k))) (levelAfterRuns s.par.bus (before ++ [x]) s.dc) e n [] none
        (fun h => levelAfterRuns_i2c _ h _)
      rw [← List.singleton_append, ← State.traffic_traffic s _ _ s.dc _ e _ n] at this
      exact this
    | selectFailed before after x e n hrs hbus =>
      have hbus' : s.par.bus = .spi := hbus
      have := Sent.done (s := s) .errIo (.busReady true :: (before.flatMap (fun x => runEvents s.par.bus x .ok)
        ++ [selectEvent x.tag .fail])) .unknown e n [] none (by simp [hbus'])
      rw [← List.singleton_append, ← State.traffic_traffic s _ _ s.dc _ e _ n] at this
      exact this
    | held before after x c l es e n hrs hes hl =>
      have := Sent.hung (s := s) (.busReady true :: (before.flatMap (fun x => runEvents s.par.bus x .ok) ++ es)) l e n
        s.batch none c hl
      rw [← List.singleton_append, ← State.traffic_traffic s _ _ s.dc _ e _ n] at this
      exact this

theorem append_batch (t : Tag) (bs : List Byte) (s : State) :
    (append t bs s).2 = s.setBatch (append t bs s).2.runs (append t bs s).2.cur := by
  obtain ⟨h, _⟩ | ⟨h, _⟩ | ⟨h, _⟩ := append_cases t bs s <;> rw [h]
  · rfl
  · rfl
  · exact extendBatch_eq t bs s

/-- A flush is a send, whatever its bytes are. -/
theorem flush_sent (t : Tag) (bs : List Byte) (s : State) (hb : s.busy = true) : Sent s (flush t bs s) := by
  unfold flush
  rw [append_batch]
  exact (send_sent _ (by exact hb)).of_setBatch

/-! ## Every operation -/

/-- What any operation leaves alone, while the state output port shows `d` and busy. -/
structure Touched (d : DeviceState) (s t : State) : Prop where
  par : t.par = s.par
  cfg : t.cfg = s.cfg
  rx : t.rx = s.rx
  busy : t.busy = s.busy
  responses : t.responses = s.responses
  dc : s.par.bus = .i2c → t.dc = s.dc
  rst : s.par.hasResetLine = false → t.rst = s.rst
  events : ∃ es, t.trace = s.trace ++ es ∧ t.samples = s.samples ++ List.replicate es.length { dev := d, busy := true }
  outside : ∀ a, s.par.bufLen ≤ a → Memory.within s.par.bufLen s.buf = true → Memory.read t.buf a = Memory.read s.buf a
  within : Memory.within s.par.bufLen s.buf = true → Memory.within s.par.bufLen t.buf = true

theorem Touched.refl (d : DeviceState) (s : State) : Touched d s s :=
  ⟨rfl, rfl, rfl, rfl, rfl, fun _ => rfl, fun _ => rfl, ⟨[], by simp⟩, fun _ _ _ => rfl, fun h => h⟩

theorem Touched.trans {d : DeviceState} {s t u : State} (h : Touched d s t) (h' : Touched d t u) : Touched d s u where
  par := h'.par.trans h.par
  cfg := h'.cfg.trans h.cfg
  rx := h'.rx.trans h.rx
  busy := h'.busy.trans h.busy
  responses := h'.responses.trans h.responses
  dc hb := (h'.dc (by rw [h.par, hb])).trans (h.dc hb)
  rst hb := (h'.rst (by rw [h.par, hb])).trans (h.rst hb)
  events := by
    obtain ⟨es, h1, h2⟩ := h.events
    obtain ⟨es', h3, h4⟩ := h'.events
    exact ⟨es ++ es', by rw [h3, h1, List.append_assoc], by
      rw [h4, h2, List.append_assoc, List.length_append, List.replicate_add]⟩
  outside a ha hw := (h'.outside a (by rw [h.par]; exact ha) (by rw [h.par]; exact h.within hw)).trans (h.outside a ha hw)
  within hw := by
    have := h'.within (by rw [h.par]; exact h.within hw)
    rwa [h.par] at this

theorem Touched.traffic {s : State} (es : List Event) (l : SelectLevel) (e : Env) (n : Nat)
    (hl : s.par.bus = .i2c → l = s.dc) : Touched s.dev s (s.traffic es l e n) :=
  ⟨rfl, rfl, rfl, rfl, rfl, hl, fun _ => rfl, ⟨es, rfl, rfl⟩, fun _ _ _ => rfl, fun h => h⟩

theorem Touched.setBatch {d : DeviceState} {s t : State} (h : Touched d s t) (rs : List Run) (c : Option Run) :
    Touched d s (t.setBatch rs c) :=
  ⟨h.par, h.cfg, h.rx, h.busy, h.responses, h.dc, h.rst, h.events, h.outside, h.within⟩

theorem Touched.hang {d : DeviceState} {s t : State} (h : Touched d s t) (c : Call) : Touched d s (t.hang c) :=
  ⟨h.par, h.cfg, h.rx, h.busy, h.responses, h.dc, h.rst, h.events, h.outside, h.within⟩

theorem Touched.setDev {d : DeviceState} {s t : State} (h : Touched d s t) (d' : DeviceState) : Touched d s (t.setDev d') :=
  ⟨h.par, h.cfg, h.rx, h.busy, h.responses, h.dc, h.rst, h.events, h.outside, h.within⟩

theorem Touched.setRst {d : DeviceState} {s t : State} (h : Touched d s t) (hl : s.par.hasResetLine = true)
    (l : ResetLevel) : Touched d s (t.setRst l) :=
  ⟨h.par, h.cfg, h.rx, h.busy, h.responses, h.dc, by simp [hl], h.events, h.outside, h.within⟩

theorem Touched.setBuf {d : DeviceState} {s t : State} (h : Touched d s t) {bs : List Byte}
    (hbs : bs.length ≤ s.par.bufLen) : Touched d s (t.setBuf bs) where
  par := h.par
  cfg := h.cfg
  rx := h.rx
  busy := h.busy
  responses := h.responses
  dc := h.dc
  rst := h.rst
  events := h.events
  outside a ha hw := by
    rw [Memory.read_outside hw ha]
    exact Memory.read_outside (Memory.within_ofBytes _ bs hbs) ha
  within _ := Memory.within_ofBytes _ bs hbs

/-- A procedure's result: what it touched, whether it is held for ever, and the device state, `d` while it runs. -/
inductive Ran (d : DeviceState) (s : State) : Res Status → Prop
  | done (st : Status) (t : State) (h : Touched d s t) (hd : t.dev = d) (hw : t.waiting = s.waiting) :
      Ran d s (.done st t)
  | hung (t : State) (h : Touched d s t) (hd : t.dev = d) (hw : t.waiting.isSome = true) : Ran d s (.hung t)

theorem Sent.ran {s : State} {r : Res Status} (h : Sent s r) : Ran s.dev s r := by
  cases h with
  | done st es l e n rs c hl => exact .done st _ ((Touched.traffic es l e n hl).setBatch rs c) rfl rfl
  | hung es l e n rs c w hl => exact .hung _ (((Touched.traffic es l e n hl).setBatch rs c).hang w) rfl rfl

theorem Ran.after {d : DeviceState} {s t : State} {r : Res Status} (h : Touched d s t) (hw : t.waiting = s.waiting)
    (hr : Ran d t r) : Ran d s r := by
  cases hr with
  | done st u h' hd hw' => exact .done st u (h.trans h') hd (hw'.trans hw)
  | hung u h' hd hw' => exact .hung u (h.trans h') hd hw'

theorem Ran.flush {d : DeviceState} {s t : State} (tag : Tag) (bs : List Byte) (h : Touched d s t) (hd : t.dev = d)
    (hw : t.waiting = s.waiting) (hb : t.busy = true) : Ran d s (flush tag bs t) :=
  .after h hw (hd ▸ (flush_sent tag bs t hb).ran)

theorem PulseEnds.ran {s : State} {r : Res Status} (h : PulseEnds s r) : Ran s.dev s r := by
  cases h with
  | noLine _ => exact .done _ _ (.refl _ _) rfl rfl
  | pulsed hl e n => exact .done _ _ ((Touched.traffic _ s.dc e n (fun _ => rfl)).setRst hl .released) rfl rfl
  | assertFailed hl e n => exact .done _ _ ((Touched.traffic _ s.dc e n (fun _ => rfl)).setRst hl .unknown) rfl rfl
  | releaseFailed hl e n => exact .done _ _ ((Touched.traffic _ s.dc e n (fun _ => rfl)).setRst hl .unknown) rfl rfl
  | heldAtAssert hl e n => exact .hung _ ((Touched.traffic _ s.dc e n (fun _ => rfl)).hang _) rfl rfl
  | heldAtRelease hl e n =>
    exact .hung _ (((Touched.traffic _ s.dc e n (fun _ => rfl)).setRst hl .asserted).hang _) rfl rfl

/-- What INIT does in Unknown: as `Ran`, but one that ends leaves the device Ready with `OK`, or Aborted. -/
inductive InitRan (s : State) : Res Status → Prop
  | ready (t : State) (h : Touched .initializing s t) (hd : t.dev = .ready) (hw : t.waiting = s.waiting) :
      InitRan s (.done .ok t)
  | aborted (st : Status) (t : State) (h : Touched .initializing s t) (hd : t.dev = .aborted)
      (hw : t.waiting = s.waiting) : InitRan s (.done st t)
  | hung (t : State) (h : Touched .initializing s t) (hd : t.dev = .initializing) (hw : t.waiting.isSome = true) :
      InitRan s (.hung t)

/-- One stage of INIT's chain. -/
theorem Ran.orAbort {s : State} {r : Res Status} {k : State → Res Status} (h : Ran .initializing s r)
    (hk : ∀ t, Touched .initializing s t → t.dev = .initializing → t.waiting = s.waiting → InitRan s (k t)) :
    InitRan s (r.orAbort k) := by
  cases h with
  | done st t h hd hw =>
    by_cases hst : st = .ok
    · subst hst
      exact hk t h hd hw
    · rw [orAbort_failed (by simp [hst])]
      exact .aborted st _ (h.setDev _) rfl hw
  | hung t h hd hw => exact .hung t h hd hw

theorem initSequence_ran {s : State} (hb : s.busy = true) (hd : s.dev = .unknown) : InitRan s (initSequence s) := by
  unfold initSequence
  rw [if_neg (by simp [hd])]
  refine Ran.orAbort ?_ fun t ht hdt hwt => ?_
  · unfold usabilityCheck
    obtain ⟨b, e, h⟩ | ⟨e, h⟩ := busReady_cases (s.setDev .initializing)
    · rw [h, Res.andThen_done, State.drawn_emit (s.setDev .initializing) _ _ hb]
      exact .done _ _ (((Touched.refl .initializing s).setDev .initializing).trans
        (Touched.traffic (s := s.setDev .initializing) _ _ _ _ (fun _ => rfl))) rfl rfl
    · rw [h, State.drawn_eq_traffic]
      exact .hung _ ((((Touched.refl .initializing s).setDev .initializing).trans
        (Touched.traffic (s := s.setDev .initializing) _ _ _ _ (fun _ => rfl))).hang _) rfl rfl
  have hbt : t.busy = true := ht.busy.trans hb
  refine Ran.orAbort (.after ht hwt (hdt ▸ (resetPulse_ends t hbt).ran)) fun u hu hdu hwu => ?_
  have hbu : u.busy = true := hu.busy.trans hb
  have hwait : Touched .initializing s (delay .rstWait u.par.tRstWait u) := by
    rw [delay, State.emit_eq_traffic _ _ hbu]
    exact hu.trans (hdu ▸ Touched.traffic _ _ _ _ (fun _ => rfl))
  refine Ran.orAbort (.flush .cmd _ hwait hdu hwu hbu) fun v hv hdv hwv => ?_
  have himg : Touched .initializing s (v.setBuf (initialImage v.par)) :=
    hv.setBuf (by rw [initialImage_length, hv.par])
  refine Ran.orAbort (.flush .data _ himg hdv hwv (hv.busy.trans hb)) fun x hx hdx hwx => ?_
  have hsettle : Touched .initializing s (delay .settle x.par.tSettle x) := by
    rw [delay, State.emit_eq_traffic _ _ (hx.busy.trans hb)]
    exact hx.trans (hdx ▸ Touched.traffic _ _ _ _ (fun _ => rfl))
  exact .ready _ (hsettle.setDev _) rfl hwx

theorem displaySurface_ran {s : State} (hb : s.busy = true) : Ran s.dev s (displaySurface s) := by
  unfold displaySurface
  by_cases hd : s.dev = .ready
  · rw [if_neg (by simp [hd])]
    obtain ⟨x, e, hx⟩ := getPixels_cases s
    rw [hx]
    simp only [State.drawn_emit s _ _ hb]
    have hread : Touched s.dev s (s.traffic [.getPixels x] s.dc e (s.draws + 1)) := Touched.traffic _ _ _ _ (fun _ => rfl)
    split
    · exact .done _ _ hread rfl rfl
    · exact .flush .data _ (hread.setBuf (le_of_eq (transcode_length s.par x.px))) rfl rfl hb
  · rw [if_pos hd]
    exact .done _ _ (.refl _ _) rfl rfl

theorem clearSurface_ran {s : State} (hb : s.busy = true) : Ran s.dev s (clearSurface s) := by
  unfold clearSurface
  by_cases hd : s.dev = .ready
  · rw [if_neg (by simp [hd])]
    simp only [surfaceClear]
    have hzero : Touched s.dev s (s.setBuf (zeros s.par.bufLen)) :=
      (Touched.refl _ s).setBuf (le_of_eq (zeros_length _))
    rw [State.emit_eq_traffic (s.setBuf (zeros s.par.bufLen)) _ hb]
    exact .flush .data _ (hzero.trans
      (Touched.traffic (s := s.setBuf (zeros s.par.bufLen)) _ _ _ _ (fun _ => rfl))) rfl rfl hb
  · rw [if_pos hd]
    exact .done _ _ (.refl _ _) rfl rfl

theorem append_ran (t : Tag) (bs : List Byte) (s : State) : Ran s.dev s (.done (append t bs s).1 (append t bs s).2) := by
  rw [append_batch]
  exact .done _ _ ((Touched.refl _ s).setBatch _ _) rfl rfl

theorem setBatchTo_ran (t : Tag) (bs : List Byte) (s : State) :
    Ran s.dev s (.done (setBatchTo t bs s).1 (setBatchTo t bs s).2) := by
  unfold setBatchTo
  split
  · exact .done _ _ (.refl _ _) rfl rfl
  · exact .after ((Touched.refl _ s).setBatch [] none) rfl (append_ran t bs (batchReset s))

/-- Every operation but an INIT accepted in Unknown leaves the device state alone. -/
theorem exec_ran (i : Instr) (s : State) :
    ∃ r, exec i s = .next (conclude r)
      ∧ (Ran s.dev s.accept r ∨ (i = .init ∧ s.dev = .unknown ∧ InitRan s.accept r)) := by
  cases i with
  | appendCmd bs => exact ⟨_, rfl, .inl (append_ran .cmd bs s.accept)⟩
  | appendData bs => exact ⟨_, rfl, .inl (append_ran .data bs s.accept)⟩
  | setCmd bs => exact ⟨_, rfl, .inl (setBatchTo_ran .cmd bs s.accept)⟩
  | setData bs => exact ⟨_, rfl, .inl (setBatchTo_ran .data bs s.accept)⟩
  | send => exact ⟨_, rfl, .inl (send_sent s.accept rfl).ran⟩
  | batchReset => exact ⟨_, rfl, .inl (.done _ _ ((Touched.refl _ s.accept).setBatch [] none) rfl rfl)⟩
  | init =>
    by_cases hd : s.dev = .unknown
    · exact ⟨_, rfl, .inr ⟨rfl, hd, initSequence_ran rfl hd⟩⟩
    · refine ⟨_, rfl, .inl ?_⟩
      rw [initSequence, if_pos (show s.accept.dev ≠ .unknown from hd)]
      exact .done _ _ (.refl _ _) rfl rfl
  | display => exact ⟨_, rfl, .inl (displaySurface_ran (s := s.accept) rfl)⟩
  | clear => exact ⟨_, rfl, .inl (clearSurface_ran (s := s.accept) rfl)⟩

/-- An operation that ends or is held touched what `Touched` says, and answered at most once. -/
theorem exec_touched {i : Instr} {s t : State} (h : exec i s = .next t) :
    ∃ d u, Touched d s.accept u ∧ (t = u ∨ ∃ st, t = u.respond st) := by
  obtain ⟨r, h0, hr⟩ := exec_ran i s
  rw [h] at h0
  obtain rfl : t = conclude r := by simpa using h0
  obtain hr | ⟨_, _, hr⟩ := hr
  · cases hr with
    | done st t hu _ _ => exact ⟨_, t, hu, .inr ⟨st, rfl⟩⟩
    | hung t hu _ _ => exact ⟨_, t, hu, .inl rfl⟩
  · cases hr with
    | ready t hu _ _ => exact ⟨_, t, hu, .inr ⟨_, rfl⟩⟩
    | aborted st t hu _ _ => exact ⟨_, t, hu, .inr ⟨st, rfl⟩⟩
    | hung t hu _ _ => exact ⟨_, t, hu, .inl rfl⟩

/-! ## Runs -/

/-- One step of a run that goes on. -/
theorem run_succ {M : Host.Core} {n : Nat} {s t : M.State} (h : M.step s = .next t) : M.run (n + 1) s = M.run n t := by
  rw [Host.Core.run, h]

/-- A held block stays as it is (10_state R22, 20_memory R62). -/
theorem step_busy {s : State} (hb : s.busy = true) : step s = .next s := if_pos hb

theorem run_busy {s : State} (hb : s.busy = true) (n : Nat) : Sys2Proof.core.run n s = .next s := by
  induction n with
  | zero => rfl
  | succ n ih => exact (run_succ (M := Sys2Proof.core) (step_busy hb)).trans ih

end Sys2Proof.Machine
end

