-- ==== Sys2Proof/Tests/Slice0.lean ====
section
/-! SUPPORT. Tests of the model against the spec's own vectors (95_test_vectors), an ill-formed term for each check, and for
each statement with hypotheses a state and operands that meet them. -/

namespace Sys2Proof.Machine

/-! ## Helpers -/

/-- The parameters of the spec's CFG_S: 4×16, no reset line. -/
def smallParams (b : Bus) : Params :=
  { resetParams with bus := b, width := 4, height := 16, hasResetLine := false }

/-- The tunables of the spec's CFG_S. -/
def smallArgs : ConfigArgs :=
  { resetConfigArgs with
    segmentRemap := 0, scanRemap := 0, comPins := 0, contrast := 0x7F, precharge := 0x22, vcomh := 0x20, chargePump := 0 }

/-- An environment that gives these answers. -/
def answers (r : List Bool) (w : List WriteAnswer) (d : List DriveAnswer) (x : List Snapshot) : Env :=
  { ready := r.map .answer, writes := w.map .answer, drives := d.map .answer, pixels := x }

/-- A block of the given parameters and CFG_S's tunables, in a device state, with answers to come. -/
def blockOf (p : Params) (d : DeviceState) (e : Env) : State :=
  { State.fresh p (smallArgs.resolve p) with dev := d, env := e }

/-- A CFG_S block with a batch. -/
def batchOf (b : Bus) (rs : List Run) (c : Option Run) (e : Env) : State :=
  (blockOf (smallParams b) .unknown e).setBatch rs c

/-- CFG_S with the smallest legal finite CAP (95_test_vectors, capacity vectors). -/
def cappedParams : Params := { smallParams .i2c with cap := some 32 }

/-- What a field of the next state holds. -/
def after {α : Type} (f : State → α) : Host.Outcome State Fault Refusal → Option α
  | .next s => some (f s)
  | .fault _ => none
  | .refused _ => none

/-- The batch and the response. -/
def batchView (s : State) : List Run × List Byte := (s.batch, s.responses)

/-- The trace, the batch and the response. -/
def traceView (s : State) : List Event × List Run × List Byte := (s.trace, s.batch, s.responses)

/-- A Cmd run under I2C, a Data run under I2C. -/
def cmdRun (bs : List Byte) : Run := { tag := .cmd, bytes := 0x00 :: bs }
def dataRun (bs : List Byte) : Run := { tag := .data, bytes := 0x40 :: bs }

/-- The bytes burst(CFG_S) that 95_test_vectors writes out. -/
def smallBurst : List Byte :=
  [0xAE, 0xD5, 0x80, 0xA8, 0x0F, 0xD3, 0x00, 0x40, 0xA0, 0xC0, 0xDA, 0x02, 0x81, 0x7F, 0x20, 0x00, 0x22, 0x00, 0x01, 0x21,
   0x00, 0x03, 0xD9, 0x22, 0xDB, 0x20, 0x2E, 0xA6, 0x8D, 0x10, 0xAF]

/-- The bytes burst(CFG_A) that 95_test_vectors writes out. -/
def largeBurst : List Byte :=
  [0xAE, 0xD5, 0x80, 0xA8, 0x3F, 0xD3, 0x00, 0x40, 0xA1, 0xC8, 0xDA, 0x12, 0x81, 0x8F, 0x20, 0x00, 0x22, 0x00, 0x07, 0x21,
   0x00, 0x7F, 0xD9, 0xF1, 0xDB, 0x40, 0x2E, 0xA6, 0x8D, 0x14, 0xAF]

/-- The checkerboard of V-T11: 0xFF where row + column is even. -/
def checkerboard : List Byte :=
  (List.range 64).map fun i => if (i / 4 + i % 4) % 2 = 0 then 0xFF else 0x00

/-! ## Well-formedness -/

/-- Payloads of one byte value, by length (30_encoding R72). -/
theorem replicate_wellFormed (o : Opcode) (h : o.format = .fb) (n : Nat) (b : Byte) :
    (o.build (List.replicate n b)).WellFormed ↔ n ≤ 65535 := by
  rw [Instr.WellFormed, Opcode.build_payload_fb h, List.length_replicate]

/-- A payload of 65536 bytes has no LEN, whichever operation carries it. -/
theorem test_wellFormed_refuses_long (b : Byte) : ¬ (Instr.appendCmd (List.replicate 65536 b)).WellFormed :=
  fun h => absurd ((replicate_wellFormed .appendCmd rfl 65536 b).1 h) (by omega)

theorem test_wellFormed_refuses_long_set (b : Byte) : ¬ (Instr.setData (List.replicate 65536 b)).WellFormed :=
  fun h => absurd ((replicate_wellFormed .setData rfl 65536 b).1 h) (by omega)

theorem test_wellFormed_longest (b : Byte) : (Instr.appendData (List.replicate 65535 b)).WellFormed :=
  (replicate_wellFormed .appendData rfl 65535 b).2 (by omega)

/-! ## Decoding: frames from 30_encoding R71 to R78 and vectors V-E1 to V-E8 -/

/-- R78's example. -/
theorem test_decode_append_cmd : decode [0x01, 0x03, 0x00, 0xAE, 0xD5, 0x80] = .frame (.appendCmd [0xAE, 0xD5, 0x80]) [] := by
  decide

theorem test_decode_append_data : decode [0x02, 0x02, 0x00, 0x00, 0x40] = .frame (.appendData [0x00, 0x40]) [] := by decide

theorem test_decode_set_cmd : decode [0x03, 0x01, 0x00, 0xA6, 0x05] = .frame (.setCmd [0xA6]) [0x05] := by decide

theorem test_decode_set_data : decode [0x04, 0x00, 0x00] = .frame (.setData []) [] := by decide

theorem test_decode_send : decode [0x05] = .frame .send [] := by decide

theorem test_decode_batch_reset : decode [0x06] = .frame .batchReset [] := by decide

/-- V-E8: three frames, the first one taken. -/
theorem test_decode_init : decode [0x10, 0x11, 0x12] = .frame .init [0x11, 0x12] := by decide

theorem test_decode_display : decode [0x11, 0x12] = .frame .display [0x12] := by decide

theorem test_decode_clear : decode [0x12] = .frame .clear [] := by decide

/-- V-E2: LEN is little-endian. -/
theorem test_decode_len_little_endian : lenOf 0x00 0x01 = 256 := by decide

/-- V-E4, V-E5. -/
theorem test_decode_illegal :
    [0x00, 0x07, 0x0F, 0x13, 0xFF].map (fun b => decode [b, 0x05]) =
      [.illegal 0x00 [0x05], .illegal 0x07 [0x05], .illegal 0x0F [0x05], .illegal 0x13 [0x05], .illegal 0xFF [0x05]] := by
  decide

/-- V-E7. -/
theorem test_decode_incomplete : decode [0x01, 0x02, 0x00, 0xAE] = .incomplete := by decide

/-- The opcode table's row of APPEND_CMD has the 8 bits of OP; its LEN and payload are then zeros. -/
theorem test_table_word : decodeTableWord 8 0x01 = some (.appendCmd []) ∧ decodeTableWord 8 0x12 = some .clear
    ∧ decodeTableWord 8 0x13 = none := by decide

/-- R78's text. -/
theorem test_assembler_text :
    { mnemonic := .op .appendCmd, operands := [0xAE, 0xD5, 0x80] : AsmLine }.text = "APPEND_CMD 0xAE, 0xD5, 0x80" := by
  decide

/-- R78, R79: a line and a pseudo-instruction as bytes. -/
theorem test_assembler_bytes :
    assemble [{ mnemonic := .op .appendCmd, operands := [0xAE, 0xD5, 0x80] }, { mnemonic := .sendData, operands := [0x01] }]
      = some [0x01, 0x03, 0x00, 0xAE, 0xD5, 0x80, 0x04, 0x01, 0x00, 0x01, 0x05] := by decide

/-- R78: a format F0 operation has no operands. -/
theorem test_assembler_refuses : assemble [{ mnemonic := .op .send, operands := [0x01] }] = none := by decide

/-! ## The parameter sets and the burst -/

/-- Both of the spec's configurations are legal, and a capacity of 31 is not (40_batcher R102). -/
theorem test_params_legal : (smallParams .spi).Legal (smallArgs.resolve (smallParams .spi))
    ∧ cappedParams.Legal (smallArgs.resolve cappedParams)
    ∧ resetParams.Legal (resetConfigArgs.resolve resetParams)
    ∧ ¬ { cappedParams with cap := some 31 : Params }.Legal (smallArgs.resolve cappedParams) := by decide

/-- CFG_S with a burst encoding of its own. -/
def tableParams (es : List (List Byte)) : Params := { smallParams .i2c with burst := .table es }

/-- burst(CFG_S)'s 18 entries, with the entry at place `n` replaced. -/
def smallTable (n : Nat) (e : List Byte) : List (List Byte) :=
  (smallArgs.resolve (smallParams .i2c)).standardBurst.set n e

/-- 30_encoding R86: another table may change an opcode byte; it keeps the multiplex ratio, both windows and the charge-pump
argument, and has 18 entries, none of them empty (R83, 92 D12). -/
theorem test_params_table :
    [smallTable 2 [0xA9, 0x0F], smallTable 10 [0x23, 0x00, 0xEE, 0x01], smallTable 2 [0xA8, 0x0E],
      smallTable 10 [0x22, 0x01, 0x00], smallTable 11 [0x21, 0x00, 0x04], smallTable 16 [0x8D, 0x14], smallTable 0 [],
      (smallTable 0 [0xAE]).take 17].map (fun es => decide ((tableParams es).Legal (smallArgs.resolve (tableParams es))))
      = [true, true, false, false, false, false, false, false] := by decide

/-- burst(CFG_S) and burst(CFG_A). -/
theorem test_burst : burst (smallParams .i2c) (smallArgs.resolve (smallParams .i2c)) = smallBurst
    ∧ burst resetParams (resetConfigArgs.resolve resetParams) = largeBurst := by decide

/-! ## The batcher: vectors V-B, V-S, V-R -/

/-- V-B2's second append. -/
theorem test_append_cmd_extends :
    after batchView (exec (.appendCmd [0xAF]) (batchOf .i2c [] (some (cmdRun [0xAE])) (answers [] [] [] [])))
      = some ([cmdRun [0xAE, 0xAF]], [0x00]) := by decide

/-- V-B13. -/
theorem test_append_cmd_overflow :
    after batchView (exec (.appendCmd [0x20])
      ((blockOf cappedParams .unknown (answers [] [] [] [])).setBatch [] (some (cmdRun (List.replicate 31 0x01)))))
      = some ([cmdRun (List.replicate 31 0x01)], [0x07]) := by decide

/-- V-B3. -/
theorem test_append_data_starts_run :
    after batchView (exec (.appendData [0x01, 0x02])
      (batchOf .i2c [] (some (cmdRun [0xAE, 0xAF])) (answers [] [] [] [])))
      = some ([cmdRun [0xAE, 0xAF], dataRun [0x01, 0x02]], [0x00]) := by decide

/-- V-B14: no run is finalized. -/
theorem test_append_data_overflow :
    after (fun s => (s.runs, s.cur, s.responses)) (exec (.appendData [0x55])
      ((blockOf cappedParams .unknown (answers [] [] [] [])).setBatch [] (some (cmdRun (List.replicate 30 0x01)))))
      = some ([], some (cmdRun (List.replicate 30 0x01)), [0x07]) := by decide

/-- V-B8. -/
theorem test_set_cmd_replaces :
    after batchView (exec (.setCmd [0xA6]) (batchOf .i2c [] (some (dataRun [0x01])) (answers [] [] [] [])))
      = some ([cmdRun [0xA6]], [0x00]) := by decide

/-- V-B15. -/
theorem test_set_cmd_atomic :
    after batchView (exec (.setCmd (List.replicate 32 0x01))
      ((blockOf cappedParams .unknown (answers [] [] [] [])).setBatch [] (some (dataRun [0x01]))))
      = some ([dataRun [0x01]], [0x07]) := by decide

/-- V-B9. -/
theorem test_set_data_empty :
    after batchView (exec (.setData []) (batchOf .i2c [cmdRun [0xAE]] (some (dataRun [0x01])) (answers [] [] [] [])))
      = some ([], [0x00]) := by decide

/-- V-B10. -/
theorem test_set_data_replaces :
    after batchView (exec (.setData [0xFF]) (batchOf .i2c [cmdRun [0xAE]] (some (dataRun [0x01])) (answers [] [] [] [])))
      = some ([dataRun [0xFF]], [0x00]) := by decide

/-- V-S4. -/
theorem test_send_second_write_fails :
    after traceView (exec .send (batchOf .i2c [cmdRun [0xAE]] (some (dataRun [0x01, 0x02]))
      (answers [true] [.ok, .fail 1] [] [])))
      = some ([.busReady true, .busWrite [0x00, 0xAE] .ok, .busWrite [0x40, 0x01, 0x02] (.fail 1)], [], [0x03]) := by decide

/-- V-S6. -/
theorem test_send_spi :
    after (fun s => (traceView s, s.dc)) (exec .send (batchOf .spi [{ tag := .cmd, bytes := [0xAE] }]
      (some { tag := .data, bytes := [0x01, 0x02] }) (answers [true] [.ok, .ok] [.ok, .ok] [])))
      = some (([.selectCmd .ok, .busWrite [0xAE] .ok, .selectData .ok, .busWrite [0x01, 0x02] .ok].cons (.busReady true),
          [], [0x00]), .high) := by decide

/-- V-R1's first operation. -/
theorem test_batch_reset :
    after traceView (exec .batchReset (batchOf .i2c [] (some (cmdRun [0xAE])) (answers [] [] [] [])))
      = some ([], [], [0x00]) := by decide

/-! ## INIT, DISPLAY, CLEAR: vectors V-I, V-T, V-C -/

/-- V-I1, and P1's first step. -/
theorem test_init_ready :
    after (fun s => (s.trace, s.dev, s.buf)) (exec .init (blockOf (smallParams .i2c) .unknown
      (answers [true, true, true] [.ok, .ok] [] [])))
      = some ([.busReady true, .delay .rstWait 100000000, .busReady true, .busWrite (0x00 :: smallBurst) .ok, .busReady true,
          .busWrite [0x40, 0, 0, 0, 0, 0, 0, 0, 0] .ok, .delay .settle 0], .ready, []) := by decide

/-- V-I8. -/
theorem test_init_image_fails :
    after (fun s => (s.dev, s.bufBytes, s.responses)) (exec .init (blockOf
      { smallParams .i2c with startupImage := some [1, 2, 3, 4, 5, 6, 7, 8] } .unknown
      (answers [true, true, true] [.ok, .fail 3] [] [])))
      = some (.aborted, [1, 2, 3, 4, 5, 6, 7, 8], [0x03]) := by decide

/-- V-T11. -/
theorem test_display_checkerboard :
    after (fun s => (s.bufBytes, s.responses)) (exec .display (blockOf (smallParams .i2c) .ready
      (answers [true] [.ok] [] [{ width := 4, height := 16, px := checkerboard }])))
      = some ([0x55, 0xAA, 0x55, 0xAA, 0x55, 0xAA, 0x55, 0xAA], [0x00]) := by decide

/-- V-T17: the length is right, the shape is wrong. -/
theorem test_display_wrong_shape :
    after (fun s => (s.trace.length, s.buf, s.responses)) (exec .display (blockOf (smallParams .i2c) .ready
      (answers [true] [.ok] [] [{ width := 8, height := 8, px := checkerboard }])))
      = some (1, [], [0x05]) := by decide

/-- V-C1. -/
theorem test_clear_zeroes :
    after traceView (exec .clear ((blockOf (smallParams .i2c) .ready (answers [true] [.ok] [] [])).setBuf
      [0xFF, 0, 0, 0, 0xFF, 0x80, 0x80, 0x82]))
      = some ([.surfaceClear, .busReady true, .busWrite [0x40, 0, 0, 0, 0, 0, 0, 0, 0] .ok], [], [0x00]) := by decide

/-- V-C3. -/
theorem test_clear_unavailable :
    after batchView (exec .clear (blockOf (smallParams .i2c) .ready (answers [false] [] [] [])))
      = some ([dataRun [0, 0, 0, 0, 0, 0, 0, 0]], [0x01]) := by decide

/-- 42_transcoder R151's table, at its edges. -/
theorem test_pixel_decision :
    [127, 128].map (pixelOn (smallParams .i2c)) = [false, true]
      ∧ [127, 128].map (pixelOn { smallParams .i2c with fgRef := 0x00, bgRef := 0xFF }) = [true, false]
      ∧ [127, 128].map (pixelOn { smallParams .i2c with fgRef := 0xFE }) = [false, true]
      ∧ [64, 65].map (pixelOn { smallParams .i2c with fgRef := 0x80 }) = [false, true] := by decide

/-- V-E5 as a step: the illegal frame is one byte. -/
theorem test_step_illegal :
    after (fun s => (s.rx, s.responses)) (step ((blockOf (smallParams .i2c) .ready (answers [] [] [] [])).deliver [0x13, 0x05]))
      = some ([0x05], [0x06]) := by decide

/-- The word of a table row is what the next step runs. -/
theorem test_step_runs_table_word :
    after batchView (step ((batchOf .i2c [] (some (cmdRun [0xAE])) (answers [] [] [] [])).withFetchWord 8 0x06))
      = some ([], [0x00]) := by decide

/-! ## Witnesses: for each statement of Certificates/Slice0/Obligations.lean with hypotheses, what meets them together -/

/-- A CFG_S block that is Ready, with one snapshot to come. -/
def readyBlock (b : Bus) (e : Env) : State := blockOf (smallParams b) .ready e

/-- A snapshot that fits CFG_S. -/
def fitting : Snapshot := { width := 4, height := 16, px := checkerboard }

/-- CFG_S with a reset line. -/
def lineParams (b : Bus) : Params := { smallParams b with hasResetLine := true }

theorem witness_StepRunsDecodedInstruction :
    ∃ (s : State) (i : Instr) (rest : List Byte), s.busy = false ∧ decode s.rx = .frame i rest :=
  ⟨State.reset.deliver [0x03, 0x01, 0x00, 0xA6, 0x05], .setCmd [0xA6], [0x05], by decide⟩

/-- Each range's two ends. -/
theorem witness_IllegalFrameAnswersErrIllegal : ∀ op ∈ ([0x00, 0x07, 0x0F, 0x13, 0xFF] : List Byte),
    ∃ (s : State) (rest : List Byte), s.busy = false ∧ s.rx = op :: rest ∧
      (op.toNat = 0x00 ∨ (0x07 ≤ op.toNat ∧ op.toNat ≤ 0x0F) ∨ 0x13 ≤ op.toNat) := by
  intro op hop
  exact ⟨State.reset.deliver [op, 0x05], [0x05], rfl, rfl, by revert op; decide⟩

theorem witness_PartialFrameWaits_partial : ∃ (s : State) (i : Instr) (bs : List Byte),
    i.WellFormed ∧ s.busy = false ∧ bs <+: encode i ∧ bs ≠ encode i ∧ s.rx = bs :=
  ⟨State.reset.deliver [0x01, 0x01, 0x00], .appendCmd [0xAE], [0x01, 0x01, 0x00], by decide⟩

theorem witness_PartialFrameWaits_whole : ∃ (s : State) (i : Instr) (rest : List Byte),
    i.WellFormed ∧ s.busy = false ∧ s.rx = encode i ++ rest :=
  ⟨State.reset.deliver [0x02, 0x00, 0x00, 0x02], .appendData [], [0x02], by decide⟩

/-- The longest payload, and none. -/
theorem witness_DecodeEncodeRoundTrip :
    (Instr.appendData (List.replicate 65535 0x5A)).WellFormed ∧ (Instr.setCmd []).WellFormed :=
  ⟨test_wellFormed_longest 0x5A, by decide⟩

theorem witness_DecodedFrameIsItsEncoding : ∃ (bs rest : List Byte) (i : Instr), decode bs = .frame i rest :=
  ⟨_, _, _, test_decode_set_cmd⟩

theorem witness_PseudoInstructionsExpand : (List.replicate 65535 (0x5A : Byte)).length ≤ 65535 :=
  test_wellFormed_longest 0x5A

theorem witness_OperationAnswersOnceOrHangs : State.reset.waiting = none := rfl

theorem witness_StatusesPerOperation : ∃ (i : Instr) (s t : State),
    s.par.Legal s.cfg ∧ exec i s = .next t ∧ t.busy = false :=
  ⟨.clear, readyBlock .i2c (answers [false] [] [] []), _, by decide, rfl, by decide⟩

theorem witness_UnansweredCallHoldsForever : ∃ (i : Instr) (s t : State) (r : List (Reply Bool)),
    s.env.ready = .never :: r ∧ exec i s = .next t ∧ t.busy = true ∧ step t = .next t :=
  ⟨.send, batchOf .i2c [] (some (cmdRun [0xAE])) { ready := [.never], writes := [], drives := [], pixels := [] }, _, [], rfl,
    rfl, by decide, rfl⟩

theorem witness_EventsHappenWhileBusy : ∃ (i : Instr) (s t : State), exec i s = .next t ∧ t.trace ≠ s.trace :=
  ⟨.send, batchOf .i2c [] none (answers [true] [] [] []), _, rfl, by decide⟩

/-- A batch that the payload fills to the last byte of CAP. -/
theorem witness_AppendAddsPayload : ∃ (t : Tag) (bs : List Byte) (s : State) (c : Nat), bs ≠ [] ∧ s.par.cap = some c
    ∧ s.pendingBytes + (newRunBytes t s).length + bs.length = c :=
  ⟨.cmd, [0x1F], (blockOf cappedParams .unknown (answers [] [] [] [])).setBatch [] (some (cmdRun (List.replicate 30 0x01))),
    32, by decide⟩

/-- One byte too many. -/
theorem witness_CapacityRefusesWhole : ∃ (t : Tag) (bs : List Byte) (s : State) (c : Nat), bs ≠ [] ∧ s.par.cap = some c
    ∧ s.pendingBytes + (newRunBytes t s).length + bs.length = c + 1 :=
  ⟨.data, [0x55], (blockOf cappedParams .unknown (answers [] [] [] [])).setBatch [] (some (cmdRun (List.replicate 30 0x01))),
    32, by decide⟩

theorem witness_CapacityRefusesWhole_unbounded : ∃ (t : Tag) (bs : List Byte) (s u : State), s.par.cap = none
    ∧ exec (appendOp t bs) s = .next u :=
  ⟨.cmd, [0xAE], State.reset, _, rfl, rfl⟩

theorem witness_CapacityRefusesWhole_construct : ∃ (p : Params) (a : ConfigArgs) (c : Nat), p.cap = some c
    ∧ c < max (burst p (a.resolve p)).length p.bufLen + 1 :=
  ⟨{ cappedParams with cap := some 31 }, smallArgs, 31, by decide⟩

theorem witness_CapacityRefusesWhole_device : ∃ (s : State) (bs : List Byte), s.par.Legal s.cfg
    ∧ s.par.cap = some 32 ∧ bs = burst s.par s.cfg :=
  ⟨blockOf cappedParams .unknown (answers [] [] [] []), smallBurst, by decide⟩

theorem witness_SetReplacesBatch : ∃ (t : Tag) (bs : List Byte) (s : State) (c : Nat), bs ≠ [] ∧ s.par.cap = some c
    ∧ bs.length + (startBytes s.par.bus t).length = c :=
  ⟨.cmd, List.replicate 31 0x01, blockOf cappedParams .unknown (answers [] [] [] []), 32, by decide⟩

theorem witness_OverflowingSetKeepsBatch : ∃ (t : Tag) (bs : List Byte) (s : State) (c : Nat), bs ≠ [] ∧ s.par.cap = some c
    ∧ bs.length + (startBytes s.par.bus t).length = c + 1 :=
  ⟨.cmd, List.replicate 32 0x01, blockOf cappedParams .unknown (answers [] [] [] []), 32, by decide⟩

/-- Two runs, on each bus. -/
theorem witness_SendWritesEveryRun : ∀ b : Bus, ∃ (s : State) (r : List (Reply Bool)) (w : List (Reply WriteAnswer))
    (d : List (Reply DriveAnswer)), s.par.bus = b ∧ s.batch ≠ [] ∧ s.env.ready = .answer true :: r
    ∧ s.env.writes = okWrites s.batch.length ++ w
    ∧ s.env.drives = okDrives (drivesPerRun s.par.bus * s.batch.length) ++ d := by
  intro b
  cases b with
  | i2c => exact ⟨batchOf .i2c [cmdRun [0xAE]] (some (dataRun [0x01])) (answers [true] [.ok, .ok] [] []), [], [], [], by decide⟩
  | spi =>
    exact ⟨batchOf .spi [{ tag := .cmd, bytes := [0xAE] }] (some { tag := .data, bytes := [0x01] })
      (answers [true] [.ok, .ok] [.ok, .ok] []), [], [], [], by decide⟩

theorem witness_UnavailableSendKeepsBatch : ∃ (s : State) (r : List (Reply Bool)), s.batch ≠ []
    ∧ s.env.ready = .answer false :: r :=
  ⟨batchOf .i2c [] (some (dataRun [0x11, 0x22])) (answers [false] [] [] []), [], by decide⟩

theorem witness_SecondSendSendsNothing_first : ∃ s t : State, exec .send s = .next t
    ∧ t.responses = s.responses ++ [0x00] :=
  ⟨batchOf .i2c [] (some (cmdRun [0xAE])) (answers [true] [.ok] [] []), _, rfl, by decide⟩

theorem witness_SecondSendSendsNothing_failed : ∃ s t : State, exec .send s = .next t
    ∧ t.responses = s.responses ++ [0x03] :=
  ⟨batchOf .i2c [] (some (cmdRun [0xAE])) (answers [true] [.fail 0] [] []), _, rfl, by decide⟩

theorem witness_SecondSendSendsNothing_second : ∀ b : Bool, ∃ (s : State) (r : List (Reply Bool)),
    s.runs = [] ∧ s.cur = none ∧ s.env.ready = .answer b :: r :=
  fun b => ⟨batchOf .i2c [] none (answers [b] [] [] []), [], rfl, rfl, rfl⟩

theorem witness_FailedSendDropsTheRest_write : ∃ (s : State) (done later : List Run) (x : Run) (k : Nat)
    (r : List (Reply Bool)) (w : List (Reply WriteAnswer)) (d : List (Reply DriveAnswer)),
    done ≠ [] ∧ later ≠ [] ∧ s.batch = done ++ x :: later ∧ s.env.ready = .answer true :: r
    ∧ s.env.writes = okWrites done.length ++ .answer (.fail k) :: w
    ∧ s.env.drives = okDrives (drivesPerRun s.par.bus * (done.length + 1)) ++ d :=
  ⟨batchOf .i2c [cmdRun [0xAE], dataRun [0x01]] (some (cmdRun [0xAF])) (answers [true] [.ok, .fail 0] [] []),
    [cmdRun [0xAE]], [cmdRun [0xAF]], dataRun [0x01], 0, [], [], [], by decide⟩

theorem witness_FailedSendDropsTheRest_select : ∃ (s : State) (done later : List Run) (x : Run)
    (r : List (Reply Bool)) (w : List (Reply WriteAnswer)) (d : List (Reply DriveAnswer)),
    s.par.bus = .spi ∧ s.batch = done ++ x :: later ∧ s.env.ready = .answer true :: r
    ∧ s.env.writes = okWrites done.length ++ w ∧ s.env.drives = okDrives done.length ++ .answer .fail :: d :=
  ⟨batchOf .spi [{ tag := .cmd, bytes := [0xAE] }] (some { tag := .data, bytes := [0x01] })
      (answers [true] [.ok] [.ok, .fail] []),
    [{ tag := .cmd, bytes := [0xAE] }], [], { tag := .data, bytes := [0x01] }, [], [], [], by decide⟩

theorem witness_PanelReceivesBatchInOrder : ∃ s t : State, exec .send s = .next t
    ∧ t.responses = s.responses ++ [0x00] ∧ busStream t.trace ≠ busStream s.trace :=
  ⟨batchOf .i2c [] (some (cmdRun [0xAE])) (answers [true] [.ok] [] []), _, rfl, by decide⟩

theorem witness_PanelReceivesBatchInOrder_failed : ∃ s t : State, exec .send s = .next t
    ∧ t.responses = s.responses ++ [0x03] ∧ busStream t.trace ≠ busStream s.trace :=
  ⟨batchOf .i2c [] (some (cmdRun [0xAE])) (answers [true] [.fail 1] [] []), _, rfl, by decide⟩

/-- P2's appends: three maximal runs, and a SEND that answers `OK`. -/
theorem witness_AppendsBecomeMaximalRuns : ∃ (s t u : State), s.runs = [] ∧ s.cur = none
    ∧ AppendsAnswerOk [(.cmd, [0xAE]), (.cmd, []), (.data, [0x00, 0x40]), (.data, [0x01]), (.cmd, [0x40])] s t
    ∧ exec .send t = .next u ∧ u.responses = t.responses ++ [0x00] :=
  ⟨batchOf .i2c [] none (answers [true] [.ok, .ok, .ok] [] []), _, _, rfl, rfl,
    ⟨_, rfl, by decide, _, rfl, by decide, _, rfl, by decide, _, rfl, by decide, _, rfl, by decide, rfl⟩, rfl, by decide⟩

theorem witness_BatcherIgnoresDeviceState : ∀ i ∈ [Instr.send, .batchReset, appendOp .cmd [0xAE], setOp .data []],
    (i = .send ∨ i = .batchReset ∨ ∃ tag bs, i = appendOp tag bs ∨ i = setOp tag bs) := by
  intro i hi
  simp only [List.mem_cons, List.not_mem_nil, or_false] at hi
  rcases hi with rfl | rfl | rfl | rfl
  · exact .inl rfl
  · exact .inr (.inl rfl)
  · exact .inr (.inr ⟨_, _, .inl rfl⟩)
  · exact .inr (.inr ⟨_, _, .inr rfl⟩)

theorem witness_BatcherIgnoresDeviceState_next : ∃ s t : State, s.dev = .aborted ∧ exec .send s = .next t :=
  ⟨blockOf (smallParams .i2c) .aborted (answers [true] [] [] []), _, rfl, rfl⟩

theorem witness_BatchOperationsFrame : ∃ (i : Instr) (s t : State),
    (i = .batchReset ∨ ∃ tag bs, i = appendOp tag bs ∨ i = setOp tag bs) ∧ exec i s = .next t :=
  ⟨appendOp .cmd [0xAE], State.reset, _, .inr ⟨_, _, .inl rfl⟩, rfl⟩

theorem witness_SendFrame : ∃ s t : State, s.par.bus = .i2c ∧ exec .send s = .next t ∧ t.trace ≠ s.trace :=
  ⟨batchOf .i2c [] (some (cmdRun [0xAE])) (answers [true] [.ok] [] []), _, rfl, rfl, by decide⟩

theorem witness_InitReachesReady : ∀ b : Bus, ∃ (s : State) (r : List (Reply Bool)) (w : List (Reply WriteAnswer))
    (d : List (Reply DriveAnswer)), s.par.bus = b ∧ s.par.Legal s.cfg ∧ s.dev = .unknown
    ∧ s.env.ready = .answer true :: .answer true :: .answer true :: r ∧ s.env.writes = okWrites 2 ++ w
    ∧ s.env.drives = okDrives (pulseDrives s.par + drivesPerRun s.par.bus * 2) ++ d := by
  intro b
  cases b with
  | i2c => exact ⟨blockOf (lineParams .i2c) .unknown (answers [true, true, true] [.ok, .ok] [.ok, .ok] []), [], [], [], by decide⟩
  | spi =>
    exact ⟨blockOf (smallParams .spi) .unknown (answers [true, true, true] [.ok, .ok] [.ok, .ok] []), [], [], [], by decide⟩

theorem witness_InitOnlyInUnknown : ∀ d : DeviceState, d ≠ .unknown →
    (blockOf (smallParams .i2c) d (answers [] [] [] [])).dev ≠ .unknown := fun _ h => h

theorem witness_UnusableTransportAbortsInit : ∃ (s : State) (r : List (Reply Bool)), s.dev = .unknown
    ∧ s.env.ready = .answer false :: r :=
  ⟨blockOf (smallParams .i2c) .unknown (answers [false] [] [] []), [], by decide⟩

theorem witness_FailedResetDriveAbortsInit : ∀ d ∈ ([[.fail], [.ok, .fail]] : List (List DriveAnswer)), ∃ s : State,
    s.dev = .unknown ∧ s.par.hasResetLine = true ∧ s.env.ready = [.answer true] ∧ s.env.drives = d.map .answer :=
  fun d _ => ⟨blockOf (lineParams .i2c) .unknown (answers [true] [] d []), rfl, rfl, rfl, rfl⟩

theorem witness_UnsentBurstAbortsInit_unavailable : ∃ (s : State) (r : List (Reply Bool)) (d : List (Reply DriveAnswer)),
    s.par.Legal s.cfg ∧ s.dev = .unknown ∧ s.env.ready = .answer true :: .answer false :: r
    ∧ s.env.drives = okDrives (pulseDrives s.par) ++ d :=
  ⟨blockOf (lineParams .i2c) .unknown (answers [true, false] [] [.ok, .ok] []), [], [], by decide⟩

theorem witness_UnsentBurstAbortsInit_failed : ∃ (s : State) (k : Nat) (r : List (Reply Bool))
    (w : List (Reply WriteAnswer)) (d : List (Reply DriveAnswer)), s.par.Legal s.cfg ∧ s.dev = .unknown
    ∧ s.env.ready = .answer true :: .answer true :: r ∧ s.env.writes = .answer (.fail k) :: w
    ∧ s.env.drives = okDrives (pulseDrives s.par + drivesPerRun s.par.bus) ++ d :=
  ⟨blockOf (smallParams .spi) .unknown (answers [true, true] [.fail 5] [.ok] []), 5, [], [], [], by decide⟩

theorem witness_UnsentBurstAbortsInit_select : ∃ (s : State) (r : List (Reply Bool)) (d : List (Reply DriveAnswer)),
    s.par.Legal s.cfg ∧ s.dev = .unknown ∧ s.par.bus = .spi ∧ s.env.ready = .answer true :: .answer true :: r
    ∧ s.env.drives = okDrives (pulseDrives s.par) ++ .answer .fail :: d :=
  ⟨blockOf (lineParams .spi) .unknown (answers [true, true] [] [.ok, .ok, .fail] []), [], [], by decide⟩

theorem witness_UnsentImageAbortsInit_unavailable : ∃ (s : State) (r : List (Reply Bool)) (w : List (Reply WriteAnswer))
    (d : List (Reply DriveAnswer)), s.par.Legal s.cfg ∧ s.dev = .unknown
    ∧ s.env.ready = .answer true :: .answer true :: .answer false :: r ∧ s.env.writes = .answer .ok :: w
    ∧ s.env.drives = okDrives (pulseDrives s.par + drivesPerRun s.par.bus) ++ d :=
  ⟨blockOf (smallParams .spi) .unknown (answers [true, true, false] [.ok] [.ok] []), [], [], [], by decide⟩

theorem witness_UnsentImageAbortsInit_select : ∃ (s : State) (r : List (Reply Bool)) (w : List (Reply WriteAnswer))
    (d : List (Reply DriveAnswer)), s.par.Legal s.cfg ∧ s.dev = .unknown ∧ s.par.bus = .spi
    ∧ s.env.ready = .answer true :: .answer true :: .answer true :: r ∧ s.env.writes = .answer .ok :: w
    ∧ s.env.drives = okDrives (pulseDrives s.par + 1) ++ .answer .fail :: d :=
  ⟨blockOf (lineParams .spi) .unknown (answers [true, true, true] [.ok] [.ok, .ok, .ok, .fail] []), [], [], [], by decide⟩

theorem witness_UnsentImageAbortsInit_failed : ∃ (s : State) (k : Nat) (r : List (Reply Bool)) (w : List (Reply WriteAnswer))
    (d : List (Reply DriveAnswer)), s.par.Legal s.cfg ∧ s.dev = .unknown
    ∧ s.env.ready = .answer true :: .answer true :: .answer true :: r
    ∧ s.env.writes = .answer .ok :: .answer (.fail k) :: w
    ∧ s.env.drives = okDrives (pulseDrives s.par + drivesPerRun s.par.bus * 2) ++ d :=
  ⟨blockOf (smallParams .i2c) .unknown (answers [true, true, true] [.ok, .fail 3] [] []), 3, [], [], [], by decide⟩

/-- An image that fits, and one that is a byte short. -/
theorem witness_InitialImageFitsBuffer :
    (∃ s : State, ∃ img, s.par.startupImage = some img ∧ img.length = s.par.bufLen)
      ∧ ∃ s : State, ∃ img, s.par.startupImage = some img ∧ img.length ≠ s.par.bufLen :=
  ⟨⟨blockOf { smallParams .i2c with startupImage := some [1, 2, 3, 4, 5, 6, 7, 8] } .unknown (answers [] [] [] []), _, rfl,
      by decide⟩,
    blockOf { smallParams .i2c with startupImage := some [1, 2, 3, 4, 5, 6, 7] } .unknown (answers [] [] [] []), _, rfl,
      by decide⟩

theorem witness_InitEndsReadyOrAborted : ∃ s t : State, s.par.Legal s.cfg ∧ s.dev = .unknown ∧ exec .init s = .next t :=
  ⟨State.reset, _, by decide, rfl, rfl⟩

theorem witness_InitWaitsBeforeWriting : ∃ (s t : State) (new before rest : List Event) (bytes : List Byte)
    (a : WriteAnswer), exec .init s = .next t ∧ t.trace = s.trace ++ new ∧ new = before ++ .busWrite bytes a :: rest :=
  ⟨blockOf (lineParams .i2c) .unknown (answers [true, true] [.fail 0] [.ok, .ok] []), _,
    [.busReady true, .assertReset .ok, .delay .rstLow 3000, .releaseReset .ok, .delay .rstWait 100000000, .busReady true,
      .busWrite (0x00 :: smallBurst) (.fail 0)],
    [.busReady true, .assertReset .ok, .delay .rstLow 3000, .releaseReset .ok, .delay .rstWait 100000000, .busReady true],
    [], 0x00 :: smallBurst, .fail 0, rfl, by decide, rfl⟩

theorem witness_StateOutputReadsInitializing : ∃ s t : State, s.dev = .unknown ∧ exec .init s = .next t :=
  ⟨State.reset, _, rfl, rfl⟩

theorem witness_PendingHostBytesAreNeverSent : ∀ i ∈ [Instr.init, .display, .clear], ∃ s t : State,
    (i = .init ∨ i = .display ∨ i = .clear) ∧ s.cur ≠ none ∧ exec i s = .next t := by
  intro i hi
  have hs : ((readyBlock .i2c (answers [true] [.ok] [] [fitting])).setBatch [] (some (cmdRun [0xA5]))).cur ≠ none := by decide
  simp only [List.mem_cons, List.not_mem_nil, or_false] at hi
  rcases hi with rfl | rfl | rfl
  · exact ⟨_, _, .inl rfl, hs, rfl⟩
  · exact ⟨_, _, .inr (.inl rfl), hs, rfl⟩
  · exact ⟨_, _, .inr (.inr rfl), hs, rfl⟩

theorem witness_InitFrame : ∃ s t : State, s.par.bus = .i2c ∧ s.par.hasResetLine = false
    ∧ Memory.within s.par.bufLen s.buf = true ∧ exec .init s = .next t ∧ t.dev = .ready :=
  ⟨blockOf (smallParams .i2c) .unknown (answers [true, true, true] [.ok, .ok] [] []), _, rfl, rfl, by decide, rfl, by decide⟩

/-- References in either order, FE and 00, and a tie. -/
theorem witness_PixelDecisionClosedForm :
    (∃ p : Params, p.bgRef.toNat < p.fgRef.toNat ∧ p.fgRef = 0xFF ∧ p.bgRef = 0x00 ∧ p.fgRef ≠ p.bgRef)
      ∧ (∃ p : Params, p.fgRef.toNat < p.bgRef.toNat)
      ∧ (∃ (p : Params) (v : Byte), p.fgRef = 0xFE ∧ p.bgRef = 0x00 ∧ v = 127
        ∧ 2 * v.toNat = p.fgRef.toNat + p.bgRef.toNat) :=
  ⟨⟨resetParams, by decide⟩, ⟨{ resetParams with fgRef := 0x00, bgRef := 0xFF }, by decide⟩,
    ⟨{ resetParams with fgRef := 0xFE }, 127, by decide⟩⟩

/-- The last page, column and row. -/
theorem witness_TranscodePacksPixels : ∃ (p : Params) (page col r : Nat), page < p.height / 8 ∧ col < p.width ∧ r < 8 :=
  ⟨resetParams, 7, 127, 7, by decide⟩

theorem witness_DisplaySendsPackedImage : ∀ b : Bus, ∃ (s : State) (x : Snapshot) (xs : List Snapshot)
    (r : List (Reply Bool)) (w : List (Reply WriteAnswer)) (d : List (Reply DriveAnswer)), s.par.bus = b
    ∧ s.par.Legal s.cfg ∧ s.dev = .ready ∧ s.env.pixels = x :: xs ∧ x.width = s.par.width ∧ x.height = s.par.height
    ∧ x.px.length = s.par.width * s.par.height ∧ s.env.ready = .answer true :: r ∧ s.env.writes = .answer .ok :: w
    ∧ s.env.drives = okDrives (drivesPerRun s.par.bus) ++ d := by
  intro b
  cases b with
  | i2c => exact ⟨readyBlock .i2c (answers [true] [.ok] [] [fitting]), fitting, [], [], [], [], by decide⟩
  | spi => exact ⟨readyBlock .spi (answers [true] [.ok] [.ok] [fitting]), fitting, [], [], [], [], by decide⟩

/-- V-T15, V-T16, V-T17: each of the three checks fails. -/
theorem witness_MismatchedSurfaceIsRefused :
    ∀ x ∈ ([{ width := 4, height := 8, px := checkerboard.take 32 }, { width := 4, height := 16, px := checkerboard.take 63 },
      { width := 8, height := 8, px := checkerboard }] : List Snapshot), ∃ s : State, s.dev = .ready ∧ s.env.pixels = [x] ∧
      (x.width ≠ s.par.width ∨ x.height ≠ s.par.height ∨ x.px.length ≠ s.par.width * s.par.height) := by
  intro x hx
  exact ⟨readyBlock .i2c (answers [] [] [] [x]), rfl, rfl, by revert x; decide⟩

theorem witness_UnsentImageStaysInBuffer_unavailable : ∃ (s : State) (x : Snapshot) (r : List (Reply Bool)),
    s.par.Legal s.cfg ∧ s.dev = .ready ∧ s.env.pixels = [x] ∧ x.width = s.par.width ∧ x.height = s.par.height
    ∧ x.px.length = s.par.width * s.par.height ∧ s.env.ready = .answer false :: r :=
  ⟨readyBlock .i2c (answers [false] [] [] [fitting]), fitting, [], by decide⟩

theorem witness_UnsentImageStaysInBuffer_failed : ∃ (s : State) (x : Snapshot) (k : Nat) (r : List (Reply Bool))
    (w : List (Reply WriteAnswer)) (d : List (Reply DriveAnswer)),
    s.par.Legal s.cfg ∧ s.dev = .ready ∧ s.env.pixels = [x] ∧ x.width = s.par.width ∧ x.height = s.par.height
    ∧ x.px.length = s.par.width * s.par.height ∧ s.env.ready = .answer true :: r ∧ s.env.writes = .answer (.fail k) :: w
    ∧ s.env.drives = okDrives (drivesPerRun s.par.bus) ++ d :=
  ⟨readyBlock .spi (answers [true] [.fail 4] [.ok] [fitting]), fitting, 4, [], [], [], by decide⟩

theorem witness_UnsentImageStaysInBuffer_select : ∃ (s : State) (x : Snapshot) (r : List (Reply Bool))
    (d : List (Reply DriveAnswer)),
    s.par.Legal s.cfg ∧ s.dev = .ready ∧ s.env.pixels = [x] ∧ x.width = s.par.width ∧ x.height = s.par.height
    ∧ x.px.length = s.par.width * s.par.height ∧ s.par.bus = .spi ∧ s.env.ready = .answer true :: r
    ∧ s.env.drives = .answer .fail :: d :=
  ⟨readyBlock .spi (answers [true] [] [.fail] [fitting]), fitting, [], [], by decide⟩

/-- The first pixel and the last one. -/
theorem witness_DisplayedBitIsPixel : ∃ (s t : State) (x : Snapshot) (xs : List Snapshot), s.par.Legal s.cfg ∧ s.dev = .ready
    ∧ s.env.pixels = x :: xs ∧ x.width = s.par.width ∧ x.height = s.par.height
    ∧ x.px.length = s.par.width * s.par.height ∧ exec .display s = .next t
    ∧ (0 < s.par.height ∧ 0 < s.par.width) ∧ 15 < s.par.height ∧ 3 < s.par.width :=
  ⟨readyBlock .i2c (answers [true] [.ok] [] [fitting]), _, fitting, [], by decide, rfl, rfl, rfl, rfl, by decide, rfl,
    by decide⟩

theorem witness_UniformSurfacePacksUniformly : ∀ v ∈ ([0xFF, 0x00] : List Byte), ∃ (p : Params) (c : ControllerConfig)
    (px : List Byte), p.Legal c ∧ px.length = p.width * p.height ∧ (v = p.fgRef ∨ v = p.bgRef) ∧ ∀ w ∈ px, w = v := by
  intro v hv
  refine ⟨smallParams .i2c, smallArgs.resolve (smallParams .i2c), List.replicate 64 v, by decide, List.length_replicate,
    by revert v; decide, fun w hw => List.eq_of_mem_replicate hw⟩

/-- The surface of 42_transcoder R159, or its one-row variant. -/
def firstColumn (n : Nat) : List Byte :=
  (List.range 8192).map fun i => if i / 128 < n ∧ i % 128 = 0 then 0xFF else 0x00

theorem witness_FirstColumnScenario : ∀ n, (n = 8 ∨ n = 1) → ∃ (p : Params) (px : List Byte), p.width = 128 ∧ p.height = 64
    ∧ p.fgRef ≠ p.bgRef ∧ px.length = 8192 ∧ ∀ row col, row < 64 → col < 128 →
      px.getD (row * 128 + col) 0 = if row < n ∧ col = 0 then p.fgRef else p.bgRef := by
  intro n _
  refine ⟨resetParams, firstColumn n, rfl, rfl, by decide, by simp [firstColumn], fun row col hr hc => ?_⟩
  have h1 : (row * 128 + col) / 128 = row := by omega
  have h2 : (row * 128 + col) % 128 = col := by omega
  have h3 : row * 128 + col < 8192 := by omega
  simp [firstColumn, List.getD, h3, h1, h2, resetParams]

theorem witness_DisplayAndClearNeedReady : ∀ d : DeviceState, d ≠ .ready →
    (blockOf (smallParams .i2c) d (answers [] [] [] [])).dev ≠ .ready := fun _ h => h

theorem witness_ClearSendsZeros : ∀ b : Bus, ∃ (s : State) (r : List (Reply Bool)) (w : List (Reply WriteAnswer))
    (d : List (Reply DriveAnswer)), s.par.bus = b ∧ s.par.Legal s.cfg ∧ s.dev = .ready ∧ s.env.ready = .answer true :: r
    ∧ s.env.writes = .answer .ok :: w ∧ s.env.drives = okDrives (drivesPerRun s.par.bus) ++ d := by
  intro b
  cases b with
  | i2c => exact ⟨readyBlock .i2c (answers [true] [.ok] [] []), [], [], [], by decide⟩
  | spi => exact ⟨readyBlock .spi (answers [true] [.ok] [.ok] []), [], [], [], by decide⟩

/-- An old buffer, a write that fails, a select drive that fails, and a transport that is unavailable. -/
theorem witness_ClearAlwaysZeroes :
    (∃ s t : State, s.dev = .ready ∧ s.buf ≠ [] ∧ exec .clear s = .next t)
      ∧ (∃ (s : State) (r : List (Reply Bool)) (a : WriteAnswer) (w : List (Reply WriteAnswer))
        (d : List (Reply DriveAnswer)), s.par.Legal s.cfg ∧ s.dev = .ready ∧ s.env.ready = .answer true :: r
        ∧ s.env.writes = .answer a :: w ∧ s.env.drives = okDrives (drivesPerRun s.par.bus) ++ d)
      ∧ (∃ (s : State) (r : List (Reply Bool)) (d : List (Reply DriveAnswer)), s.par.Legal s.cfg ∧ s.dev = .ready
        ∧ s.par.bus = .spi ∧ s.env.ready = .answer true :: r ∧ s.env.drives = .answer .fail :: d)
      ∧ ∃ (s : State) (r : List (Reply Bool)), s.par.Legal s.cfg ∧ s.dev = .ready ∧ s.env.ready = .answer false :: r :=
  ⟨⟨(readyBlock .i2c (answers [true] [.ok] [] [])).setBuf [0x00, 0xFF], _, by decide, by decide, rfl⟩,
    ⟨readyBlock .spi (answers [true] [.fail 9] [.ok] []), [], .fail 9, [], [], by decide⟩,
    ⟨readyBlock .spi (answers [true] [] [.fail] []), [], [], by decide⟩,
    ⟨readyBlock .i2c (answers [false] [] [] []), [], by decide⟩⟩

theorem witness_DisplayAndClearFrame : ∀ i ∈ [Instr.display, .clear], ∃ s t : State, (i = .display ∨ i = .clear)
    ∧ s.par.bus = .i2c ∧ Memory.within s.par.bufLen s.buf = true ∧ exec i s = .next t := by
  intro i hi
  have hs : Memory.within (readyBlock .i2c (answers [true] [.ok] [] [fitting])).par.bufLen
      (readyBlock .i2c (answers [true] [.ok] [] [fitting])).buf = true := by decide
  simp only [List.mem_cons, List.not_mem_nil, or_false] at hi
  rcases hi with rfl | rfl
  · exact ⟨_, _, .inl rfl, rfl, hs, rfl⟩
  · exact ⟨_, _, .inr rfl, rfl, hs, rfl⟩

/-- The largest panel and the smallest: every default is a byte (10_state R29). -/
theorem witness_ConfigurationDefaults :
    (∃ (p : Params) (a : ConfigArgs), p.width = 256 ∧ p.height = 256 ∧ a.multiplex = none ∧ a.endPage = none
        ∧ a.endCol = none ∧ a.startPage = none ∧ a.startCol = none)
      ∧ ∃ (p : Params) (a : ConfigArgs), p.width = 1 ∧ p.height = 8 ∧ a.multiplex = some 0x0F ∧ a.endPage = some 0
        ∧ a.endCol = some 0 ∧ a.startPage = some 0 ∧ a.startCol = some 0 :=
  ⟨⟨{ resetParams with width := 256, height := 256 }, resetConfigArgs, by decide⟩,
    { resetParams with width := 1, height := 8 },
    { resetConfigArgs with multiplex := some 0x0F, endPage := some 0, endCol := some 0, startPage := some 0, startCol := some 0 },
    by decide⟩

/-- A set that makes a block, and one set outside each bound by one (`test_params_table` has the burst encodings). -/
theorem witness_ConstructionChecksParameters :
    State.construct resetParams resetConfigArgs = some State.reset
      ∧ (∃ p : Params, p.width = 0) ∧ (∃ p : Params, p.width = 257) ∧ (∃ p : Params, p.height = 7)
      ∧ (∃ p : Params, p.height = 257) ∧ (∃ p : Params, p.height = 12 ∧ p.height % 8 ≠ 0)
      ∧ (∃ p : Params, p.fgRef = p.bgRef) ∧ (∃ p : Params, p.tRstLow = 2999) ∧ (∃ p : Params, p.tRstWait = 99999999)
      ∧ ∃ a : ConfigArgs, a.addrMode = 3 :=
  ⟨by decide, ⟨{ resetParams with width := 0 }, rfl⟩, ⟨{ resetParams with width := 257 }, rfl⟩,
    ⟨{ resetParams with height := 7 }, rfl⟩, ⟨{ resetParams with height := 257 }, rfl⟩,
    ⟨{ resetParams with height := 12 }, by decide⟩, ⟨{ resetParams with bgRef := 0xFF }, rfl⟩,
    ⟨{ resetParams with tRstLow := 2999 }, rfl⟩, ⟨{ resetParams with tRstWait := 99999999 }, rfl⟩,
    ⟨{ resetConfigArgs with addrMode := 3 }, rfl⟩⟩

theorem witness_ReadyAndAbortedArePermanent : ∀ d ∈ [DeviceState.ready, .aborted], ∃ s t : State,
    (s.dev = .ready ∨ s.dev = .aborted) ∧ s.dev = d ∧ Sys2Proof.core.run 0 s = .next t := by
  intro d hd
  exact ⟨blockOf (smallParams .i2c) d (answers [] [] [] []), _, by revert d; decide, rfl, rfl⟩

theorem witness_OnlyInitMovesDeviceState : ∃ s t : State, step s = .next t ∧ t.dev ≠ s.dev :=
  ⟨(blockOf (smallParams .i2c) .unknown (answers [false] [] [] [])).deliver [0x10], _, rfl, by decide⟩

theorem witness_StepAppendsAndKeepsConfiguration : ∃ s t : State, step s = .next t ∧ t.trace ≠ s.trace :=
  ⟨(blockOf (smallParams .i2c) .unknown (answers [false] [] [] [])).deliver [0x10], _, rfl, by decide⟩

/-- A CFG_S block that holds nothing but bytes on its port meets the invariant. -/
theorem small_inv (b : Bus) (e : Env) (bs : List Byte) : ((blockOf (smallParams b) .unknown e).deliver bs).Inv where
  legal := by
    show (smallParams b).Legal (smallArgs.resolve (smallParams b))
    cases b <;> decide
  runs_ok := by simp [State.batch, State.deliver, blockOf, State.fresh]
  runs_alternate := rfl
  open_run_first _ _ := rfl
  batch_fits := rfl
  buf_wf := rfl
  buf_within := rfl
  busy_iff_waiting := rfl
  initializing_busy := by simp [State.deliver, blockOf]
  i2c_select_unknown _ := rfl
  no_line_reset_unknown _ := rfl
  unknown_buf_zero _ := rfl
  unknown_reset_unknown _ := rfl
  ready_released := by simp [State.deliver, blockOf]
  samples_length := rfl
  samples_busy := by simp [State.deliver, blockOf, State.fresh]
  codes_known := by simp [State.deliver, blockOf, State.fresh]

theorem witness_StepKeepsStateInvariant : ∃ s t : State, s.Inv ∧ step s = .next t ∧ t.dev = .ready :=
  ⟨_, _, small_inv .i2c (answers [true, true, true] [.ok, .ok] [] []) [0x10], rfl, by decide⟩

theorem witness_ConstructedBlockMeetsInvariant : ∃ (p : Params) (a : ConfigArgs) (s : State), State.construct p a = some s :=
  ⟨smallParams .spi, smallArgs, State.fresh (smallParams .spi) (smallArgs.resolve (smallParams .spi)), by decide⟩

theorem emptyTrace_framed (b : Bus) (line : Bool) : TraceFramed b line [] where
  i2c_control_byte := by simp
  i2c_no_select := by simp
  spi_selected := by simp
  delivered_short := by simp
  no_line_no_reset := by simp

theorem witness_StepKeepsTraceFraming : ∃ s t : State, s.Inv ∧ TraceFramed s.par.bus s.par.hasResetLine s.trace
    ∧ step s = .next t ∧ t.trace ≠ [] :=
  ⟨_, _, small_inv .spi (answers [true, true, true] [.ok, .ok] [.ok, .ok] []) [0x10], emptyTrace_framed _ _, rfl, by decide⟩

end Sys2Proof.Machine
end

section
/-! PROOFS. Construction (00_scope R6, R8; 70_reset R200): what an illegal parameter set breaks, and the block made otherwise. -/

namespace Sys2Proof.Machine

/-- Only a finite CAP can be too small (40_batcher R102). -/
theorem not_capLegal_iff (p : Params) (c : ControllerConfig) :
    ¬ capLegal p c = true ↔ ∃ n, p.cap = some n ∧ n < max (burst p c).length p.bufLen + 1 := by
  unfold capLegal
  cases p.cap with
  | none => simp
  | some n => simp only [decide_eq_true_eq, not_le, Option.some.injEq, exists_eq_left']

/-- An illegal burst encoding breaks R83, D12, or one of the four entries of 30_encoding R86. -/
theorem not_burstLegal_iff (p : Params) (c : ControllerConfig) :
    ¬ burstLegal p c = true ↔
      (burstEntries p c).length ≠ 18 ∨ [] ∈ burstEntries p c
        ∨ ¬ List.Sublist [c.multiplex] ((burstEntries p c).getD 2 [])
        ∨ ¬ List.Sublist [c.startPage, c.endPage] ((burstEntries p c).getD 10 [])
        ∨ ¬ List.Sublist [c.startCol, c.endCol] ((burstEntries p c).getD 11 [])
        ∨ ¬ List.Sublist [c.chargePumpSetting] ((burstEntries p c).getD 16 []) := by
  have hkept : (∀ k ∈ c.keptBytes, List.Sublist k.2 ((burstEntries p c).getD k.1 [])) ↔
      List.Sublist [c.multiplex] ((burstEntries p c).getD 2 [])
        ∧ List.Sublist [c.startPage, c.endPage] ((burstEntries p c).getD 10 [])
        ∧ List.Sublist [c.startCol, c.endCol] ((burstEntries p c).getD 11 [])
        ∧ List.Sublist [c.chargePumpSetting] ((burstEntries p c).getD 16 []) := by
    simp only [ControllerConfig.keptBytes, List.forall_mem_cons, List.not_mem_nil, false_implies,
      implies_true, and_true]
  rw [burstLegal_iff, hkept]
  simp only [not_and_or, not_not, ne_eq]

/-- An illegal set breaks a bound of 00_scope R6, has `addrMode` 3, or has an illegal CAP or burst
encoding. -/
theorem not_legal_iff (p : Params) (c : ControllerConfig) :
    ¬ p.Legal c ↔ p.width = 0 ∨ 256 < p.width ∨ p.height < 8 ∨ 256 < p.height ∨ p.height % 8 ≠ 0 ∨ p.fgRef = p.bgRef
      ∨ p.tRstLow < 3000 ∨ p.tRstWait < 100000000 ∨ c.addrMode = 3
      ∨ ¬ capLegal p c = true ∨ ¬ burstLegal p c = true := by
  rw [or_comm (a := ¬ capLegal p c = true)]
  simp only [Params.Legal, not_and_or, not_le, Nat.lt_one_iff, ne_eq, not_not]

/-- After construction the buffer reads as zeros (10_state R37). -/
theorem bufBytes_fresh (p : Params) (c : ControllerConfig) : (State.fresh p c).bufBytes = zeros p.bufLen := by
  have hbuf : (State.fresh p c).setBuf (zeros p.bufLen) = State.fresh p c := by
    rw [State.setBuf, Memory.ofBytes_zeros]
    rfl
  rw [← hbuf]
  exact bufBytes_setBuf (zeros_length p.bufLen)

/-- Settles O53: no block exactly from an illegal set, and a block that is made is `State.fresh`. -/
theorem constructionChecksParameters : Obligations.ConstructionChecksParameters := by
  unfold Obligations.ConstructionChecksParameters
  refine ⟨fun p a => ?_, fun p a s hs => ?_⟩
  · have haddr : (a.resolve p).addrMode = a.addrMode := rfl
    rw [construct_eq_none, not_legal_iff, not_capLegal_iff, not_burstLegal_iff, haddr]
  · obtain ⟨_, rfl⟩ := construct_eq_some.mp hs
    exact ⟨rfl, rfl, rfl, rfl, rfl, rfl, bufBytes_fresh p (a.resolve p), rfl, rfl, rfl, rfl, rfl⟩

end Sys2Proof.Machine
end

section
/-! PROOFS. How an operation and a step end (00_scope R12, 10_state R22): one inversion lemma each, and what follows from
them for the device state (R24), the trace and its samples (R42), and the configuration (R26, R30). -/

namespace Sys2Proof.Machine

/-! ## How an operation ends -/

/-- An operation's next state: what it touched, while the port showed `d` and busy, and one answer or a call that waits. -/
inductive Ended (d : DeviceState) (s : State) : State → Prop
  | answered (u : State) (st : Status) (h : Touched d s.accept u) (hw : u.waiting = s.waiting) : Ended d s (u.respond st)
  | held (u : State) (h : Touched d s.accept u) (hw : u.waiting.isSome = true) : Ended d s u

theorem Ran.ended {d : DeviceState} {s : State} {r : Res Status} (h : Ran d s.accept r) : Ended d s (conclude r) := by
  cases h with
  | done st u h _ hw => exact .answered u st h hw
  | hung u h _ hw => exact .held u h hw

theorem InitRan.ended {s : State} {r : Res Status} (h : InitRan s.accept r) : Ended .initializing s (conclude r) := by
  cases h with
  | ready u h _ hw => exact .answered u .ok h hw
  | aborted st u h _ hw => exact .answered u st h hw
  | hung u h _ hw => exact .held u h hw

/-- Every operation gives a next state, and that one ended. -/
theorem exec_ended (i : Instr) (s : State) : ∃ t d, exec i s = .next t ∧ Ended d s t := by
  obtain ⟨r, he, hr | ⟨_, _, hr⟩⟩ := exec_ran i s
  · exact ⟨_, _, he, hr.ended⟩
  · exact ⟨_, _, he, hr.ended⟩

theorem ended_of_exec {i : Instr} {s t : State} (h : exec i s = .next t) : ∃ d, Ended d s t := by
  obtain ⟨u, d, he, hu⟩ := exec_ended i s
  rw [h, Host.Outcome.next.injEq] at he
  exact ⟨d, he ▸ hu⟩

/-- An INIT accepted in Unknown runs while the port shows Initializing (41_device R145). -/
theorem ended_of_init {s t : State} (hd : s.dev = .unknown) (h : exec .init s = .next t) : Ended .initializing s t := by
  obtain rfl : conclude (initSequence s.accept) = t := by simpa only [exec, execInit, runOperation_eq,
    Host.Outcome.next.injEq] using h
  exact (initSequence_ran (s := s.accept) rfl hd).ended

section
variable {d : DeviceState} {s t : State}

theorem Ended.par (h : Ended d s t) : t.par = s.par := by
  cases h with
  | answered u st h _ => exact h.par
  | held _ h _ => exact h.par

theorem Ended.cfg (h : Ended d s t) : t.cfg = s.cfg := by
  cases h with
  | answered u st h _ => exact h.cfg
  | held _ h _ => exact h.cfg

theorem Ended.events (h : Ended d s t) : ∃ es, t.trace = s.trace ++ es
    ∧ t.samples = s.samples ++ List.replicate es.length { dev := d, busy := true } := by
  cases h with
  | answered u st h _ => exact h.events
  | held _ h _ => exact h.events

/-- Under I2C no operation drives the select line (10_state R40). -/
theorem Ended.dc (h : Ended d s t) : s.par.bus = .i2c → t.dc = s.dc := by
  cases h with
  | answered u st h _ => exact h.dc
  | held _ h _ => exact h.dc

/-- Without a reset line no operation drives it (10_state R41). -/
theorem Ended.rst (h : Ended d s t) : s.par.hasResetLine = false → t.rst = s.rst := by
  cases h with
  | answered u st h _ => exact h.rst
  | held _ h _ => exact h.rst

theorem Ended.within (h : Ended d s t) :
    Memory.within s.par.bufLen s.buf = true → Memory.within s.par.bufLen t.buf = true := by
  cases h with
  | answered u st h _ => exact h.within
  | held _ h _ => exact h.within

/-- One answer and idle, or held for ever and busy (10_state R22, 20_memory R62). -/
theorem Ended.answers (h : Ended d s t) :
    (t.busy = false ∧ t.waiting = s.waiting ∧ ∃ st : Status, t.responses = s.responses ++ [st.code])
      ∨ (t.busy = true ∧ t.waiting.isSome = true ∧ t.responses = s.responses) := by
  cases h with
  | answered u st h hw => exact .inl ⟨rfl, hw, st, by rw [State.respond_responses, h.responses, State.accept_responses]⟩
  | held _ h hw => exact .inr ⟨h.busy, hw, h.responses⟩

theorem Ended.responses_prefix (h : Ended d s t) : s.responses <+: t.responses := by
  obtain ⟨_, _, st, hr⟩ | ⟨_, _, hr⟩ := h.answers
  · exact ⟨[st.code], hr.symm⟩
  · exact ⟨[], by rw [List.append_nil, hr]⟩

end

/-! ## How a step ends -/

/-- The illegal frame touches nothing but the response (30_encoding R75). -/
theorem illegalFrame_eq (s : State) : illegalFrame s = .next (s.accept.respond .errIllegal) := rfl

/-- A step leaves the state as it is, or takes a frame from an idle block: an illegal one, or an operation's. -/
theorem step_cases {s t : State} (h : step s = .next t) :
    t = s ∨ (s.busy = false ∧ ∃ rest, t = (s.setRx rest).accept.respond .errIllegal)
      ∨ (s.busy = false ∧ ∃ i rest, decode s.rx = .frame i rest ∧ exec i (s.setRx rest) = .next t) := by
  cases hb : s.busy with
  | true =>
    rw [step_busy hb, Host.Outcome.next.injEq] at h
    exact .inl h.symm
  | false =>
    rw [step, if_neg (by simp [portHeld, hb])] at h
    cases hdec : decode s.rx with
    | frame i rest =>
      simp only [hdec] at h
      exact .inr (.inr ⟨rfl, i, rest, rfl, h⟩)
    | illegal op rest =>
      simp only [hdec, illegalFrame_eq, Host.Outcome.next.injEq] at h
      exact .inr (.inl ⟨rfl, rest, h.symm⟩)
    | incomplete =>
      simp only [hdec, Host.Outcome.next.injEq] at h
      exact .inl h.symm

/-- A step leaves the state as it is, or an operation or an illegal frame ended after a frame was taken. -/
theorem step_ended {s t : State} (h : step s = .next t) : t = s ∨ ∃ d rest, Ended d (s.setRx rest) t := by
  obtain rfl | ⟨_, rest, rfl⟩ | ⟨_, i, rest, _, he⟩ := step_cases h
  · exact .inl rfl
  · exact .inr ⟨s.dev, rest, .answered _ _ (.refl _ _) rfl⟩
  · obtain ⟨d, hd⟩ := ended_of_exec he
    exact .inr ⟨d, rest, hd⟩

/-- A run of one step more begins with a step. -/
theorem run_succ_cases {M : Host.Core} {n : Nat} {s t : M.State} (h : M.run (n + 1) s = .next t) :
    ∃ u, M.step s = .next u ∧ M.run n u = .next t := by
  rw [Host.Core.run] at h
  cases hs : M.step s with
  | next u =>
    rw [hs] at h
    exact ⟨u, rfl, h⟩
  | fault r => simp [hs] at h
  | refused r => simp [hs] at h

/-! ## The device state -/

theorem Ran.conclude_dev {d : DeviceState} {s : State} {r : Res Status} (h : Ran d s r) : (conclude r).dev = d := by
  cases h with
  | done st u _ hd _ => exact hd
  | hung u _ hd _ => exact hd

/-- Where INIT leads from Unknown (41_device R130). -/
theorem InitRan.conclude_dev {s : State} {r : Res Status} (hb : s.busy = true) (h : InitRan s r) :
    (conclude r).dev = .ready ∨ (conclude r).dev = .aborted
      ∨ ((conclude r).dev = .initializing ∧ (conclude r).busy = true) := by
  cases h with
  | ready u _ hd _ => exact .inl hd
  | aborted st u _ hd _ => exact .inr (.inl hd)
  | hung u h hd _ => exact .inr (.inr ⟨hd, h.busy.trans hb⟩)

/-- Only an INIT accepted in Unknown moves the device state (41_device R130). -/
theorem exec_dev {i : Instr} {s t : State} (h : exec i s = .next t) :
    t.dev = s.dev ∨ (i = .init ∧ s.dev = .unknown
      ∧ (t.dev = .ready ∨ t.dev = .aborted ∨ (t.dev = .initializing ∧ t.busy = true))) := by
  obtain ⟨r, he, hr⟩ := exec_ran i s
  rw [h, Host.Outcome.next.injEq] at he
  subst he
  obtain hr | ⟨hi, hd, hr⟩ := hr
  · exact .inl hr.conclude_dev
  · exact .inr ⟨hi, hd, hr.conclude_dev rfl⟩

theorem step_dev {s t : State} (h : step s = .next t) (hd : s.dev ≠ .unknown) : t.dev = s.dev := by
  obtain rfl | ⟨_, rest, rfl⟩ | ⟨_, i, rest, _, he⟩ := step_cases h
  · rfl
  · rfl
  · obtain hdev | ⟨_, hu, _⟩ := exec_dev he
    · exact hdev
    · exact absurd hu hd

/-- Outside Unknown no run of steps moves the device state (10_state R24). -/
theorem run_dev {n : Nat} {s t : State} (hd : s.dev ≠ .unknown) (h : Sys2Proof.core.run n s = .next t) :
    t.dev = s.dev := by
  induction n generalizing s with
  | zero =>
    obtain rfl : s = t := Host.Outcome.next.inj h
    rfl
  | succ n ih =>
    obtain ⟨u, hu, hrun⟩ := run_succ_cases h
    have hdev := step_dev hu hd
    exact (ih (hdev ▸ hd) hrun).trans hdev

/-! ## The obligations -/

/-- Settles O8: every operation ended, answered or held. -/
theorem operationAnswersOnceOrHangs : Obligations.OperationAnswersOnceOrHangs := by
  unfold Obligations.OperationAnswersOnceOrHangs
  intro i s hw
  obtain ⟨t, d, he, ht⟩ := exec_ended i s
  exact ⟨t, he, hw ▸ ht.answers⟩

/-- Settles O11: an operation's events and samples are logged together, each sample busy. -/
theorem eventsHappenWhileBusy : Obligations.EventsHappenWhileBusy := by
  unfold Obligations.EventsHappenWhileBusy
  intro i s t h
  obtain ⟨d, ht⟩ := ended_of_exec h
  obtain ⟨es, htrace, hsamples⟩ := ht.events
  refine ⟨_, es, hsamples, htrace, List.length_replicate, fun x hx => ?_⟩
  rw [List.eq_of_mem_replicate hx]

/-- Settles O36: INIT in Unknown runs in Initializing from its first event to its last. -/
theorem stateOutputReadsInitializing : Obligations.StateOutputReadsInitializing := by
  unfold Obligations.StateOutputReadsInitializing
  intro s t hd h
  obtain ⟨es, htrace, hsamples⟩ := (ended_of_init hd h).events
  exact ⟨es.length, hsamples, by rw [htrace, List.length_append]⟩

/-- Settles O55, by induction on the number of steps (`run_dev`). -/
theorem readyAndAbortedArePermanent : Obligations.ReadyAndAbortedArePermanent := by
  unfold Obligations.ReadyAndAbortedArePermanent
  intro n s t hd h
  exact run_dev (by rintro hu; simp [hu] at hd) h

/-- Settles O57: a step ends an operation or does nothing, and no operation writes these but at their ends. -/
theorem stepAppendsAndKeepsConfiguration : Obligations.StepAppendsAndKeepsConfiguration := by
  unfold Obligations.StepAppendsAndKeepsConfiguration
  intro s t h
  obtain rfl | ⟨d, rest, ht⟩ := step_ended h
  · exact ⟨List.prefix_rfl, List.prefix_rfl, List.prefix_rfl, rfl, rfl⟩
  · obtain ⟨es, htrace, hsamples⟩ := ht.events
    exact ⟨⟨es, htrace.symm⟩, ht.responses_prefix, ⟨_, hsamples.symm⟩, ht.par, ht.cfg⟩

end Sys2Proof.Machine
end

section
/-! PROOFS. The batch's clauses of `State.Inv` (10_state R34, R35; 40_batcher R102): what a run and a batch need, and that
appends and every end of a send keep them. -/

namespace Sys2Proof.Machine

/-! ## Runs -/

theorem payload_frameBytes (b : Bus) (t : Tag) (bs : List Byte) :
    Run.payload b { tag := t, bytes := frameBytes b t bs } = bs := by
  cases b <;> rfl

/-- A run is well formed exactly if its bytes frame a payload that is not empty (10_state R34, R35). -/
theorem runOk_iff (b : Bus) (r : Run) : runOk b r = true ↔ ∃ bs, bs ≠ [] ∧ r.bytes = frameBytes b r.tag bs := by
  simp only [runOk, Bool.and_eq_true, decide_eq_true_eq, Bool.not_eq_true', List.isEmpty_eq_false_iff]
  constructor
  · rintro ⟨hbytes, hne⟩
    exact ⟨_, hne, hbytes⟩
  · rintro ⟨bs, hne, hbytes⟩
    have hpay : r.payload b = bs := by
      have := payload_frameBytes b r.tag bs
      rwa [← hbytes] at this
    rw [hpay]
    exact ⟨hbytes, hne⟩

theorem runOk_flushRun (p : Params) (t : Tag) {bs : List Byte} (h : bs ≠ []) : runOk p.bus (flushRun p t bs) = true :=
  (runOk_iff _ _).mpr ⟨bs, h, rfl⟩

/-- More payload keeps a run well formed. -/
theorem runOk_append {b : Bus} {r : Run} (h : runOk b r = true) (bs : List Byte) :
    runOk b { tag := r.tag, bytes := r.bytes ++ bs } = true := by
  obtain ⟨payload, hne, hbytes⟩ := (runOk_iff b r).mp h
  refine (runOk_iff _ _).mpr ⟨payload ++ bs, by simp [hne], ?_⟩
  rw [hbytes, frameBytes, frameBytes, List.append_assoc]

/-- `alternating` looks at the tags only, and at neighbours only. -/
theorem alternating_iff_isChain (rs : List Run) : alternating rs = true ↔ (rs.map Run.tag).IsChain (· ≠ ·) := by
  induction rs with
  | nil => simp [alternating]
  | cons r rs ih =>
    cases rs with
    | nil => simp [alternating]
    | cons r' rs => simpa [alternating] using fun _ => ih

/-- The last run may be replaced by one of its tag. -/
theorem alternating_append_congr {rs : List Run} {r r' : Run} (htag : r'.tag = r.tag)
    (h : alternating (rs ++ [r]) = true) : alternating (rs ++ [r']) = true := by
  rw [alternating_iff_isChain, List.map_append] at h ⊢
  rwa [List.map_singleton, htag]

/-- A run of another tag than the last one's may follow. -/
theorem alternating_concat {rs : List Run} {r r' : Run} (htag : r.tag ≠ r'.tag)
    (h : alternating (rs ++ [r]) = true) : alternating (rs ++ [r] ++ [r']) = true := by
  rw [alternating_iff_isChain] at h ⊢
  rw [List.map_append, List.isChain_append]
  exact ⟨h, by simp, by simpa using htag⟩

/-! ## Batches -/

/-- What `State.Inv` says of the runs of a batch. -/
structure BatchOk (p : Params) (rs : List Run) : Prop where
  runs_ok : ∀ r ∈ rs, runOk p.bus r = true
  alternate : alternating rs = true
  fits : exceedsCap p (rs.map (fun r => r.bytes.length)).sum = false

/-- The batch between two operations: no closed run without an open one (10_state R35). -/
structure AtRest (s : State) : Prop where
  batch : BatchOk s.par s.batch
  open_run_first : s.cur = none → s.runs = []

/-- The batch's clauses of `State.Inv`: a held operation may have closed its last run (log 3). -/
structure BatchInv (s : State) : Prop where
  batch : BatchOk s.par s.batch
  open_run_first : s.busy = false → s.cur = none → s.runs = []

/-- An accepted operation finds the batch of an idle block. -/
theorem State.Inv.accept_atRest {s : State} (h : s.Inv) (hidle : s.busy = false) : AtRest s.accept :=
  ⟨⟨h.runs_ok, h.runs_alternate, h.batch_fits⟩, h.open_run_first hidle⟩

theorem BatchInv.idle {s : State} (h : BatchOk s.par s.batch) (hopen : s.cur = none → s.runs = []) : BatchInv s :=
  ⟨h, fun _ => hopen⟩

theorem BatchInv.held {s : State} (h : BatchOk s.par s.batch) (hb : s.busy = true) : BatchInv s :=
  ⟨h, by simp [hb]⟩

theorem exceedsCap_zero (p : Params) : exceedsCap p 0 = false := by
  cases hc : p.cap <;> simp [exceedsCap, hc]

theorem BatchOk.nil (p : Params) : BatchOk p [] := ⟨by simp, rfl, exceedsCap_zero p⟩

/-- A flush's batch of one run that fits. -/
theorem BatchOk.flushRun {p : Params} {t : Tag} {bs : List Byte} (hne : bs ≠ [])
    (hfit : exceedsCap p (bs.length + (startBytes p.bus t).length) = false) : BatchOk p [flushRun p t bs] := by
  refine ⟨by simpa using runOk_flushRun p t hne, rfl, ?_⟩
  rw [Nat.add_comm] at hfit
  simpa [Machine.flushRun, frameBytes] using hfit

theorem AtRest.of_batchReset (s : State) : AtRest (batchReset s) := ⟨.nil _, fun _ => rfl⟩

/-- A batch of no run (40_batcher R107). -/
theorem BatchInv.empty {s : State} (hruns : s.runs = []) (hcur : s.cur = none) : BatchInv s := by
  refine .idle ?_ fun _ => hruns
  rw [State.batch, hruns, hcur]
  exact .nil _

/-! ## Appends -/

/-- The batch after an append, by what was open (40_batcher R100). -/
theorem extendBatch_batch (t : Tag) (bs : List Byte) (s : State) : (extendBatch t bs s).batch
    = match s.cur with
      | none => s.runs ++ [flushRun s.par t bs]
      | some r => if r.tag = t then s.runs ++ [{ tag := t, bytes := r.bytes ++ bs }]
          else s.runs ++ [r] ++ [flushRun s.par t bs] := by
  unfold extendBatch
  cases s.cur with
  | none => rfl
  | some r => dsimp only; split <;> rfl

theorem extendBatch_cur_ne_none (t : Tag) (bs : List Byte) (s : State) : (extendBatch t bs s).cur ≠ none := by
  unfold extendBatch
  split
  · simp
  · split <;> simp

theorem extendBatch_par (t : Tag) (bs : List Byte) (s : State) : (extendBatch t bs s).par = s.par := by
  rw [extendBatch_eq]

/-- An append adds the bytes that `addedBytes` counts (40_batcher R100). -/
theorem extendBatch_pendingBytes (t : Tag) (bs : List Byte) (s : State) :
    (extendBatch t bs s).pendingBytes = s.pendingBytes + addedBytes t bs s := by
  rw [State.pendingBytes, extendBatch_batch]
  cases hc : s.cur with
  | none => simp [State.pendingBytes, State.batch, addedBytes, startsRun, hc, flushRun, frameBytes]; omega
  | some r =>
    by_cases ht : r.tag = t
    · simp [State.pendingBytes, State.batch, addedBytes, startsRun, hc, ht]; omega
    · simp [State.pendingBytes, State.batch, addedBytes, startsRun, hc, ht, flushRun, frameBytes]; omega

theorem AtRest.extendBatch {s : State} (h : AtRest s) {t : Tag} {bs : List Byte} (hne : bs ≠ [])
    (hfit : exceedsCap s.par (s.pendingBytes + addedBytes t bs s) = false) : AtRest (extendBatch t bs s) := by
  refine ⟨?_, fun hnone => absurd hnone (extendBatch_cur_ne_none t bs s)⟩
  obtain ⟨⟨hok, halt, _⟩, hopen⟩ := h
  have hnew := runOk_flushRun s.par t hne
  rw [extendBatch_par]
  rw [← extendBatch_pendingBytes] at hfit
  suffices hruns : (∀ r ∈ (Machine.extendBatch t bs s).batch, runOk s.par.bus r = true)
      ∧ alternating (Machine.extendBatch t bs s).batch = true from ⟨hruns.1, hruns.2, hfit⟩
  rw [extendBatch_batch]
  rw [State.batch] at hok halt
  cases hc : s.cur with
  | none =>
    rw [hopen hc]
    exact ⟨by simpa using hnew, rfl⟩
  | some r =>
    rw [hc, Option.toList_some] at hok halt
    by_cases ht : r.tag = t
    · subst ht
      rw [List.forall_mem_append] at hok
      obtain ⟨hclosed, hlast⟩ := hok
      have hlonger := runOk_append (hlast r (List.mem_singleton_self r)) bs
      simp only [if_true]
      exact ⟨List.forall_mem_append.mpr ⟨hclosed, by simpa using hlonger⟩, alternating_append_congr (r := r) rfl halt⟩
    · simp only [ht, if_false]
      exact ⟨List.forall_mem_append.mpr ⟨hok, by simpa using hnew⟩, alternating_concat ht halt⟩

theorem AtRest.append {s : State} (h : AtRest s) (t : Tag) (bs : List Byte) : AtRest (append t bs s).2 := by
  obtain ⟨he, _⟩ | ⟨he, _⟩ | ⟨he, hne, hfit⟩ := append_cases t bs s <;> rw [he]
  · exact h
  · exact h
  · exact h.extendBatch hne hfit

theorem AtRest.setBatchTo {s : State} (h : AtRest s) (t : Tag) (bs : List Byte) : AtRest (setBatchTo t bs s).2 := by
  unfold Machine.setBatchTo
  split
  · exact h
  · exact (AtRest.of_batchReset s).append t bs

/-! ## Sends -/

/-- A SEND leaves the batch, empties it, or is held with its last run closed. -/
theorem SendEnds.batchInv {s : State} {r : Res Status} (hr : SendEnds s r) (hb : s.busy = true) (h : AtRest s) :
    BatchInv (conclude r) := by
  cases hr with
  | held e n => exact .held h.batch hb
  | unavailable e n => exact .idle h.batch h.open_run_first
  | empty e n _ => exact .idle h.batch h.open_run_first
  | loop e n r _ hr =>
    cases hr with
    | sent e n => exact .empty rfl rfl
    | writeFailed before after x k e n _ _ => exact .empty rfl rfl
    | selectFailed before after x e n _ _ => exact .empty rfl rfl
    | held before after x c l es e n _ _ _ =>
      refine .held ?_ hb
      show BatchOk s.par (s.batch ++ [])
      rw [List.append_nil]
      exact h.batch

/-- A flush leaves its one run, or nothing. -/
theorem FlushEnds.batchInv {x : Run} {s : State} {r : Res Status} (hr : FlushEnds x s r) (hb : s.busy = true)
    (hx : BatchOk s.par [x]) : BatchInv (conclude r) := by
  cases hr with
  | heldAtQuery e n => exact .held hx hb
  | unavailable e n => exact .idle hx (by simp)
  | sent e n => exact .empty rfl rfl
  | writeFailed k e n _ => exact .empty rfl rfl
  | selectFailed e n _ => exact .empty rfl rfl
  | held c l es e n _ _ => exact .held hx hb

theorem PulseEnds.batchInv {s : State} {r : Res Status} (hr : PulseEnds s r) (hb : s.busy = true) (h : AtRest s) :
    BatchInv (conclude r) := by
  cases hr with
  | noLine _ => exact .idle h.batch h.open_run_first
  | pulsed _ e n => exact .idle h.batch h.open_run_first
  | assertFailed _ e n => exact .idle h.batch h.open_run_first
  | releaseFailed _ e n => exact .idle h.batch h.open_run_first
  | heldAtAssert _ e n => exact .held h.batch hb
  | heldAtRelease _ e n => exact .held h.batch hb

end Sys2Proof.Machine
end

section
/-! PROOFS. Every step keeps `State.Inv`: what an operation does to the DeviceBuffer and the reset line (10_state R37, R41;
41_device R132), and the invariant put together from that, the batch's clauses and how an operation ends. -/

namespace Sys2Proof.Machine

/-! ## The buffer and the reset line -/

/-- The clauses of `State.Inv` on the DeviceBuffer's contents and the reset line, by device state. -/
structure PanelInv (s : State) : Prop where
  buf_wf : Memory.wf s.buf = true
  unknown_buf_zero : s.dev = .unknown → s.buf = []
  unknown_reset_unknown : s.dev = .unknown → s.rst = .unknown
  ready_released : s.dev = .ready → s.par.hasResetLine = true → s.rst = .released

theorem State.Inv.accept_panelInv {s : State} (h : s.Inv) : PanelInv s.accept :=
  ⟨h.buf_wf, h.unknown_buf_zero, h.unknown_reset_unknown, h.ready_released⟩

/-- Neither Unknown nor Ready: only the buffer's form counts. -/
theorem PanelInv.of_dev {s : State} (hwf : Memory.wf s.buf = true) (hdev : s.dev = .initializing ∨ s.dev = .aborted) :
    PanelInv s := by
  have hunknown : s.dev ≠ .unknown := by rcases hdev with h | h <;> simp [h]
  have hready : s.dev ≠ .ready := by rcases hdev with h | h <;> simp [h]
  exact ⟨hwf, fun h => absurd h hunknown, fun h => absurd h hunknown, fun h => absurd h hready⟩

/-- An operation but INIT in Unknown drives no reset line, commits whole images and only in Ready, and keeps the batch's
clauses. -/
structure Kept (s t : State) : Prop where
  rst : t.rst = s.rst
  buf : t.buf = s.buf ∨ (s.dev = .ready ∧ ∃ bs, t.buf = Memory.ofBytes bs)
  batch : BatchInv t

theorem Kept.panelInv {s t : State} (h : Kept s t) (hs : PanelInv s) (hpar : t.par = s.par) (hdev : t.dev = s.dev) :
    PanelInv t where
  buf_wf := by
    obtain hbuf | ⟨_, bs, hbuf⟩ := h.buf <;> rw [hbuf]
    · exact hs.buf_wf
    · exact Memory.wf_ofBytes bs
  unknown_buf_zero hu := by
    rw [hdev] at hu
    obtain hbuf | ⟨hr, _⟩ := h.buf
    · rw [hbuf, hs.unknown_buf_zero hu]
    · simp [hu] at hr
  unknown_reset_unknown hu := by rw [h.rst, hs.unknown_reset_unknown (hdev ▸ hu)]
  ready_released hr hl := by rw [h.rst, hs.ready_released (hdev ▸ hr) (hpar ▸ hl)]

/-- A procedure that answers with the batch at rest, and writes neither the buffer nor the reset line. -/
theorem AtRest.kept {s u : State} (h : AtRest u) (hrst : u.rst = s.rst) (hbuf : u.buf = s.buf) (st : Status) :
    Kept s (u.respond st) :=
  ⟨hrst, .inl hbuf, .idle h.batch h.open_run_first⟩

theorem append_kept {s : State} (h : AtRest s) (t : Tag) (bs : List Byte) (st : Status) :
    Kept s ((append t bs s).2.respond st) :=
  (h.append t bs).kept (by rw [append_batch]; rfl) (by rw [append_batch]; rfl) st

theorem setBatchTo_kept {s : State} (h : AtRest s) (t : Tag) (bs : List Byte) (st : Status) :
    Kept s ((setBatchTo t bs s).2.respond st) := by
  have hsame : (setBatchTo t bs s).2.rst = s.rst ∧ (setBatchTo t bs s).2.buf = s.buf := by
    unfold setBatchTo
    split
    · exact ⟨rfl, rfl⟩
    · rw [append_batch]
      exact ⟨rfl, rfl⟩
  exact (h.setBatchTo t bs).kept hsame.1 hsame.2 st

theorem Sent.conclude_panel {s : State} {r : Res Status} (h : Sent s r) :
    (conclude r).rst = s.rst ∧ (conclude r).buf = s.buf := by
  cases h with
  | done st es l e n rs c _ => exact ⟨rfl, rfl⟩
  | hung es l e n rs c w _ => exact ⟨rfl, rfl⟩

theorem send_kept {s : State} (hb : s.busy = true) (h : AtRest s) : Kept s (conclude (send s)) := by
  obtain ⟨hrst, hbuf⟩ := (send_sent s hb).conclude_panel
  exact ⟨hrst, .inl hbuf, (send_ends s hb).batchInv hb h⟩

/-- A flush moves neither the device state nor the reset line, and writes no image. -/
theorem FlushEnds.conclude_panel {x : Run} {s : State} {r : Res Status} (h : FlushEnds x s r) :
    (conclude r).dev = s.dev ∧ (conclude r).rst = s.rst ∧ (conclude r).buf = s.buf := by
  cases h with
  | heldAtQuery e n => exact ⟨rfl, rfl, rfl⟩
  | unavailable e n => exact ⟨rfl, rfl, rfl⟩
  | sent e n => exact ⟨rfl, rfl, rfl⟩
  | writeFailed k e n _ => exact ⟨rfl, rfl, rfl⟩
  | selectFailed e n _ => exact ⟨rfl, rfl, rfl⟩
  | held c l es e n _ _ => exact ⟨rfl, rfl, rfl⟩

/-- A device operation's batch of one run meets the batch's clauses (40_batcher R102, R118). -/
theorem flushRun_batchOk {p : Params} {c : ControllerConfig} (h : p.Legal c) {bs : List Byte} (t : Tag)
    (hbs : bs = burst p c ∨ bs.length = p.bufLen) : BatchOk p [flushRun p t bs] :=
  .flushRun (flush_ne_nil h hbs) (flush_fits h t hbs)

/-- In Ready an image is committed, then flushed. -/
theorem FlushEnds.kept {x : Run} {s u : State} {r : Res Status} {image : List Byte} (h : FlushEnds x u r)
    (hb : u.busy = true) (hx : BatchOk u.par [x]) (hd : s.dev = .ready) (hrst : u.rst = s.rst)
    (hbuf : u.buf = Memory.ofBytes image) : Kept s (conclude r) := by
  obtain ⟨_, hrst', hbuf'⟩ := h.conclude_panel
  exact ⟨hrst'.trans hrst, .inr ⟨hd, image, hbuf'.trans hbuf⟩, h.batchInv hb hx⟩

theorem displaySurface_kept {s : State} (hl : s.par.Legal s.cfg) (hb : s.busy = true) (h : AtRest s) :
    Kept s (conclude (displaySurface s)) := by
  have hends := displaySurface_ends hl hb
  generalize displaySurface s = r at hends
  cases hends with
  | notReady _ => exact h.kept rfl rfl _
  | mismatch x e n _ _ => exact ⟨rfl, .inl rfl, .idle h.batch h.open_run_first⟩
  | flushed x e n r hd _ hr => exact hr.kept hb (flushRun_batchOk hl .data (.inr (transcode_length _ _))) hd rfl rfl

theorem clearSurface_kept {s : State} (hl : s.par.Legal s.cfg) (hb : s.busy = true) (h : AtRest s) :
    Kept s (conclude (clearSurface s)) := by
  have hends := clearSurface_ends hl hb
  generalize clearSurface s = r at hends
  cases hends with
  | notReady _ => exact h.kept rfl rfl _
  | flushed r hd hr => exact hr.kept hb (flushRun_batchOk hl .data (.inr (zeros_length _))) hd rfl rfl

theorem exec_kept {i : Instr} {s t : State} (hl : s.par.Legal s.cfg) (h : AtRest s.accept)
    (hinit : i = .init → s.dev ≠ .unknown) (he : exec i s = .next t) : Kept s.accept t := by
  cases i with
  | appendCmd bs => exact Host.Outcome.next.inj he ▸ append_kept h .cmd bs _
  | appendData bs => exact Host.Outcome.next.inj he ▸ append_kept h .data bs _
  | setCmd bs => exact Host.Outcome.next.inj he ▸ setBatchTo_kept h .cmd bs _
  | setData bs => exact Host.Outcome.next.inj he ▸ setBatchTo_kept h .data bs _
  | send => exact Host.Outcome.next.inj he ▸ send_kept rfl h
  | batchReset => exact Host.Outcome.next.inj he ▸ (AtRest.of_batchReset s.accept).kept (s := s.accept) rfl rfl .ok
  | init =>
    have hd : s.accept.dev ≠ .unknown := hinit rfl
    have hrefused : initSequence s.accept = .done .errState s.accept := if_pos hd
    rw [exec, execInit, runOperation_eq, hrefused] at he
    exact Host.Outcome.next.inj he ▸ h.kept rfl rfl _
  | display => exact Host.Outcome.next.inj he ▸ displaySurface_kept hl rfl h
  | clear => exact Host.Outcome.next.inj he ▸ clearSurface_kept hl rfl h

/-! ## INIT in Unknown -/

theorem PulseEnds.conclude_panel {s : State} {r : Res Status} (h : PulseEnds s r) :
    (conclude r).dev = s.dev ∧ (conclude r).buf = s.buf := by
  cases h with
  | noLine _ => exact ⟨rfl, rfl⟩
  | pulsed _ e n => exact ⟨rfl, rfl⟩
  | assertFailed _ e n => exact ⟨rfl, rfl⟩
  | releaseFailed _ e n => exact ⟨rfl, rfl⟩
  | heldAtAssert _ e n => exact ⟨rfl, rfl⟩
  | heldAtRelease _ e n => exact ⟨rfl, rfl⟩

/-- A failed stage of INIT is held as it was, or the device is Aborted (60_exceptions R176). -/
theorem conclude_failed (r : Res Status) :
    conclude r.failed = conclude r ∨ conclude r.failed = (conclude r).setDev .aborted := by
  cases r with
  | done st s => exact .inr rfl
  | hung s => exact .inl rfl

/-- A failed stage of INIT leaves what the stage left. -/
theorem failed_keeps {r : Res Status} (hdev : (conclude r).dev = .initializing)
    (hwf : Memory.wf (conclude r).buf = true) (hbatch : BatchInv (conclude r)) :
    PanelInv (conclude r.failed) ∧ BatchInv (conclude r.failed) := by
  obtain h | h := conclude_failed r <;> rw [h]
  · exact ⟨.of_dev hwf (.inl hdev), hbatch⟩
  · exact ⟨.of_dev hwf (.inr rfl), ⟨hbatch.batch, hbatch.open_run_first⟩⟩

theorem FlushEnds.failed_keeps {x : Run} {s : State} {r : Res Status} (h : FlushEnds x s r) (hb : s.busy = true)
    (hx : BatchOk s.par [x]) (hd : s.dev = .initializing) (hwf : Memory.wf s.buf = true) :
    PanelInv (conclude r.failed) ∧ BatchInv (conclude r.failed) := by
  obtain ⟨hdev, _, hbuf⟩ := h.conclude_panel
  exact Machine.failed_keeps (hdev.trans hd) (hbuf ▸ hwf) (h.batchInv hb hx)

/-- However INIT ends from Unknown, it keeps the clauses on the buffer, the reset line and the batch. -/
theorem InitEnds.keeps {s : State} {r : Res Status} (h : InitEnds s r) (hl : s.par.Legal s.cfg) (hb : s.busy = true)
    (hrest : AtRest s) (hwf : Memory.wf s.buf = true) : PanelInv (conclude r) ∧ BatchInv (conclude r) := by
  have himage : BatchOk s.par [flushRun s.par .data (initialImage s.par)] :=
    flushRun_batchOk hl .data (.inr (initialImage_length _))
  cases h with
  | heldAtCheck e n => exact ⟨.of_dev hwf (.inl rfl), .held hrest.batch hb⟩
  | unusable e n => exact ⟨.of_dev hwf (.inr rfl), .idle hrest.batch hrest.open_run_first⟩
  | atPulse e n r hr _ =>
    obtain ⟨hdev, hbuf⟩ := hr.conclude_panel
    exact failed_keeps hdev (hbuf ▸ hwf) (hr.batchInv hb ⟨hrest.batch, hrest.open_run_first⟩)
  | atBurst e n r hr _ => exact hr.failed_keeps hb (flushRun_batchOk hl .cmd (.inl rfl)) rfl hwf
  | atImage e n r hr _ => exact hr.failed_keeps hb himage rfl (Memory.wf_ofBytes _)
  | ready e n =>
    refine ⟨⟨Memory.wf_ofBytes _, nofun, nofun, fun _ hline => ?_⟩, .empty rfl rfl⟩
    have hline' : s.par.hasResetLine = true := hline
    exact if_pos hline'

/-! ## The invariant -/

theorem code_toNat_le (st : Status) : st.code.toNat ≤ 7 := by
  cases st <;> decide

/-- The invariant says nothing of the bytes on the port. -/
theorem State.Inv.setRx {s : State} (h : s.Inv) (bs : List Byte) : (s.setRx bs).Inv where
  __ := h

/-- An operation that ended keeps the invariant if it kept the clauses on the batch, the buffer and the reset line. -/
theorem Ended.inv {d : DeviceState} {s t : State} (he : Ended d s t) (h : s.Inv) (hidle : s.busy = false)
    (hpanel : PanelInv t) (hbatch : BatchInv t) (hinit : t.dev = .initializing → t.busy = true) : t.Inv where
  legal := by rw [he.par, he.cfg]; exact h.legal
  runs_ok := hbatch.batch.runs_ok
  runs_alternate := hbatch.batch.alternate
  open_run_first := hbatch.open_run_first
  batch_fits := hbatch.batch.fits
  buf_wf := hpanel.buf_wf
  buf_within := by rw [he.par]; exact he.within h.buf_within
  busy_iff_waiting := by
    have hnone : s.waiting.isSome = false := h.busy_iff_waiting ▸ hidle
    obtain ⟨hb, hw, _⟩ | ⟨hb, hw, _⟩ := he.answers
    · rw [hb, hw, hnone]
    · rw [hb, hw]
  initializing_busy := hinit
  i2c_select_unknown hbus := by
    rw [he.par] at hbus
    rw [he.dc hbus, h.i2c_select_unknown hbus]
  no_line_reset_unknown hline := by
    rw [he.par] at hline
    rw [he.rst hline, h.no_line_reset_unknown hline]
  unknown_buf_zero := hpanel.unknown_buf_zero
  unknown_reset_unknown := hpanel.unknown_reset_unknown
  ready_released := hpanel.ready_released
  samples_length := by
    obtain ⟨es, htrace, hsamples⟩ := he.events
    simp [htrace, hsamples, h.samples_length]
  samples_busy := by
    obtain ⟨es, _, hsamples⟩ := he.events
    rw [hsamples, List.forall_mem_append]
    exact ⟨h.samples_busy, fun x hx => by rw [List.eq_of_mem_replicate hx]⟩
  codes_known := by
    obtain ⟨_, _, st, hr⟩ | ⟨_, _, hr⟩ := he.answers
    · rw [hr, List.forall_mem_append]
      exact ⟨h.codes_known, by simpa using code_toNat_le st⟩
    · rw [hr]
      exact h.codes_known

/-- INIT accepted in Unknown keeps the clauses on the buffer, the reset line and the batch. -/
theorem init_keeps {s t : State} (h : s.Inv) (hidle : s.busy = false) (hd : s.dev = .unknown)
    (he : exec .init s = .next t) : PanelInv t ∧ BatchInv t := by
  have hends : InitEnds s.accept (initSequence s.accept) := initSequence_ends h.legal rfl hd
  exact Host.Outcome.next.inj he ▸ hends.keeps h.legal rfl (h.accept_atRest hidle) h.buf_wf

/-- Every operation keeps them. -/
theorem exec_keeps {i : Instr} {s t : State} (h : s.Inv) (hidle : s.busy = false) (he : exec i s = .next t) :
    PanelInv t ∧ BatchInv t := by
  by_cases hinit : i = .init ∧ s.dev = .unknown
  · obtain ⟨rfl, hd⟩ := hinit
    exact init_keeps h hidle hd he
  · obtain ⟨d, hended⟩ := ended_of_exec he
    have hdev : t.dev = s.dev := (exec_dev he).resolve_right fun ⟨hi, hd, _⟩ => hinit ⟨hi, hd⟩
    have hkept := exec_kept h.legal (h.accept_atRest hidle) (fun hi hd => hinit ⟨hi, hd⟩) he
    exact ⟨hkept.panelInv h.accept_panelInv hended.par hdev, hkept.batch⟩

/-- An idle block is not in Initializing (41_device R138). -/
theorem State.Inv.not_initializing {s : State} (h : s.Inv) (hidle : s.busy = false) : s.dev ≠ .initializing := by
  intro hd
  simpa [hidle] using h.initializing_busy hd

/-- Only an INIT that is held for ever leaves Initializing behind (41_device R138). -/
theorem exec_initializing_busy {i : Instr} {s t : State} (he : exec i s = .next t) (hs : s.dev ≠ .initializing)
    (hi : t.dev = .initializing) : t.busy = true := by
  obtain hdev | ⟨_, _, hready | haborted | ⟨_, hb⟩⟩ := exec_dev he
  · exact absurd (hdev ▸ hi) hs
  · simp [hready] at hi
  · simp [haborted] at hi
  · exact hb

/-- Whatever operation an idle block accepts, the invariant holds again when it ended. -/
theorem exec_inv {i : Instr} {s t : State} (h : s.Inv) (hidle : s.busy = false) (he : exec i s = .next t) : t.Inv := by
  obtain ⟨d, hended⟩ := ended_of_exec he
  obtain ⟨hpanel, hbatch⟩ := exec_keeps h hidle he
  exact hended.inv h hidle hpanel hbatch (exec_initializing_busy he (h.not_initializing hidle))

/-- An illegal frame keeps the invariant (30_encoding R75). -/
theorem illegalFrame_inv {s : State} (h : s.Inv) (hidle : s.busy = false) : (s.accept.respond .errIllegal).Inv := by
  have hended : Ended s.dev s (s.accept.respond .errIllegal) := .answered _ _ (.refl _ _) rfl
  have hkept : Kept s.accept (s.accept.respond .errIllegal) := (h.accept_atRest hidle).kept rfl rfl _
  exact hended.inv h hidle (hkept.panelInv h.accept_panelInv rfl rfl) hkept.batch
    fun hi => absurd hi (h.not_initializing hidle)

/-- Settles O58, by the ways a step ends (`step_cases`): each keeps the invariant. -/
theorem stepKeepsStateInvariant : Obligations.StepKeepsStateInvariant := by
  unfold Obligations.StepKeepsStateInvariant
  intro s t h hstep
  obtain rfl | ⟨hidle, rest, rfl⟩ | ⟨hidle, i, rest, _, he⟩ := step_cases hstep
  · exact h
  · exact illegalFrame_inv (h.setRx rest) hidle
  · exact exec_inv (h.setRx rest) hidle he

end Sys2Proof.Machine
end

section
/-! PROOFS. The configuration registers' defaults and their arguments (10_state R26, R27, R29). -/

namespace Sys2Proof.Machine

/-- A byte holds the last index of a space of 1 to 256 places. -/
theorem toNat_ofNat_sub_one {n : Nat} (h : n ≤ 256) : (BitVec.ofNat 8 (n - 1)).toNat = n - 1 := by
  rw [BitVec.toNat_ofNat]
  omega

/-- Settles O52: each field is its argument or the default, and each default fits a byte. -/
theorem configurationDefaults : Obligations.ConfigurationDefaults := by
  unfold Obligations.ConfigurationDefaults
  intro p a _ hw _ hh
  have hp : p.height / 8 ≤ 256 := by omega
  have hmultiplex : (a.resolve p).multiplex = a.multiplex.getD (BitVec.ofNat 8 (p.height - 1)) := rfl
  have hendPage : (a.resolve p).endPage = a.endPage.getD (BitVec.ofNat 8 (p.height / 8 - 1)) := rfl
  have hendCol : (a.resolve p).endCol = a.endCol.getD (BitVec.ofNat 8 (p.width - 1)) := rfl
  have hstartPage : (a.resolve p).startPage = a.startPage.getD 0 := rfl
  have hstartCol : (a.resolve p).startCol = a.startCol.getD 0 := rfl
  rw [hmultiplex, hendPage, hendCol, hstartPage, hstartCol]
  refine ⟨fun h => ?_, fun h => ?_, fun h => ?_, fun h => ?_, fun h => ?_, fun v h => ?_, fun v h => ?_, fun v h => ?_,
    fun v h => ?_, fun v h => ?_⟩ <;> rw [h]
  · exact toNat_ofNat_sub_one hh
  · exact toNat_ofNat_sub_one hp
  · exact toNat_ofNat_sub_one hw
  all_goals rfl

end Sys2Proof.Machine
end

section
/-! PROOFS. The memory family: a call that is never answered (20_memory R62), the bytes the panel receives (R56, R67) and the
DeviceBuffer's bits after a DISPLAY (R51, R53). -/

namespace Sys2Proof.Machine

/-! ## A transport that never answers -/

/-- A SEND whose query is never answered waits at that query, its batch as it was (20_memory R62). -/
theorem exec_send_never {s : State} {r : List (Reply Bool)} (h : s.env.ready = .never :: r) :
    exec .send s = .next ((s.accept.drawn { s.env with ready := r }).hang .busReady) := by
  rw [exec, execSend, runOperation_eq, send, busReady_never (s := s.accept) h]
  rfl

/-- An operation that leaves the block busy answered nothing (10_state R22). -/
theorem Ended.responses_of_busy {d : DeviceState} {s t : State} (h : Ended d s t) (hb : t.busy = true) :
    t.responses = s.responses := by
  obtain ⟨hidle, _, _⟩ | ⟨_, _, hr⟩ := h.answers
  · simp [hidle] at hb
  · exact hr

/-- Settles O10: a held operation's block is busy, and a busy block accepts nothing (`run_busy`). -/
theorem unansweredCallHoldsForever : Obligations.UnansweredCallHoldsForever := by
  unfold Obligations.UnansweredCallHoldsForever
  refine ⟨fun i s t h hb => ?_, fun s r h => exec_send_never h, fun s hb => step_busy hb⟩
  obtain ⟨d, ht⟩ := ended_of_exec h
  exact ⟨ht.responses_of_busy hb, run_busy hb⟩

/-! ## The bytes on the bus -/

@[simp] theorem busStream_append (tr tr' : List Event) : busStream (tr ++ tr') = busStream tr ++ busStream tr' :=
  List.flatMap_append

/-- A select drive delivers nothing (20_memory R58). -/
@[simp] theorem busStream_selectEvent (t : Tag) (a : DriveAnswer) : busStream [selectEvent t a] = [] := by
  cases t <;> rfl

/-- A run's events deliver what its write does (20_memory R56). -/
@[simp] theorem busStream_runEvents (b : Bus) (r : Run) (a : WriteAnswer) :
    busStream (runEvents b r a) = delivered (.busWrite r.bytes a) := by
  have hselect : busStream (selectEvents b r.tag .ok) = [] := by
    cases b with
    | i2c => rfl
    | spi => exact busStream_selectEvent r.tag .ok
  rw [runEvents, busStream_append, hselect]
  simp [busStream]

/-- Runs sent whole deliver their bytes in order (40_batcher R111). -/
@[simp] theorem busStream_okRuns (b : Bus) (rs : List Run) :
    busStream (rs.flatMap fun x => runEvents b x .ok) = rs.flatMap Run.bytes := by
  induction rs with
  | nil => rfl
  | cons x rs ih => rw [List.flatMap_cons, busStream_append, busStream_runEvents, ih, List.flatMap_cons, delivered]

/-- The first runs' bytes and a first part of the next run's begin all runs' bytes (40_batcher R113). -/
theorem prefix_flatMap_bytes {rs before after : List Run} {x : Run} {part : List Byte} (hrs : rs = before ++ x :: after)
    (hpart : part <+: x.bytes) : before.flatMap Run.bytes ++ part <+: rs.flatMap Run.bytes := by
  rw [hrs, List.flatMap_append, List.flatMap_cons]
  exact (List.prefix_append_right_inj _).2 (hpart.trans (List.prefix_append _ _))

section
variable {rs : List Run} {s u : State}

/-- SEND's loop answers `OK` only after it wrote every run. -/
theorem SendRunsEnds.busStream_ok (h : SendRunsEnds rs s (.done .ok u)) :
    busStream u.trace = busStream s.trace ++ rs.flatMap Run.bytes := by
  cases h with
  | sent e n => simp

/-- SEND's loop answers `ERR_IO` after a first part of the runs' bytes (40_batcher R113). -/
theorem SendRunsEnds.busStream_errIo (h : SendRunsEnds rs s (.done .errIo u)) :
    ∃ part, part <+: rs.flatMap Run.bytes ∧ busStream u.trace = busStream s.trace ++ part := by
  cases h with
  | writeFailed before after x k e n hrs hk =>
    exact ⟨_, prefix_flatMap_bytes hrs (List.take_prefix k x.bytes), by simp [delivered]⟩
  | selectFailed before after x e n hrs hbus =>
    exact ⟨_, prefix_flatMap_bytes hrs List.nil_prefix, by simp⟩

/-- SEND's query delivers nothing (20_memory R57). -/
theorem busStream_queried (e : Env) (n : Nat) :
    busStream ((s.traffic [.busReady true] s.dc e n).setBatch s.batch none).trace = busStream s.trace := by
  simp [busStream, delivered]

theorem SendEnds.busStream_ok (h : SendEnds s (.done .ok u)) :
    busStream u.trace = busStream s.trace ++ s.batch.flatMap Run.bytes := by
  cases h with
  | loop e n _ _ hr => rw [hr.busStream_ok, busStream_queried]

theorem SendEnds.busStream_errIo (h : SendEnds s (.done .errIo u)) :
    ∃ part, part <+: s.batch.flatMap Run.bytes ∧ busStream u.trace = busStream s.trace ++ part := by
  cases h with
  | loop e n _ _ hr =>
    obtain ⟨part, hpart, hstream⟩ := hr.busStream_errIo
    exact ⟨part, hpart, by rw [hstream, busStream_queried]⟩

end

/-! ## The status a procedure answered -/

/-- The status codes differ (60_exceptions R170). -/
theorem code_injective : Function.Injective Status.code := by
  intro a b h
  cases a <;> cases b <;> simp [Status.code] at h ⊢

/-- The response delivered is the code of the status that ended the procedure (30_encoding R77). -/
theorem Ran.done_of_responses {d : DeviceState} {s : State} {r : Res Status} {st : Status} (h : Ran d s r)
    (hr : (conclude r).responses = s.responses ++ [st.code]) : ∃ u, r = .done st u ∧ conclude r = u.respond st := by
  cases h with
  | done st' u hu _ _ =>
    rw [conclude_done, State.respond_responses, hu.responses] at hr
    obtain rfl : st' = st := code_injective (by simpa using hr)
    exact ⟨u, rfl, rfl⟩
  | hung u hu _ _ =>
    rw [conclude_hung, hu.responses] at hr
    simp at hr

/-- A SEND's answer tells how `send()` ended. -/
theorem sendEnds_of_responses {s t : State} {st : Status} (h : exec .send s = .next t)
    (hr : t.responses = s.responses ++ [st.code]) : ∃ u, SendEnds s.accept (.done st u) ∧ t = u.respond st := by
  obtain rfl : conclude (send s.accept) = t := Host.Outcome.next.inj h
  obtain ⟨u, hu, ht⟩ := (send_sent s.accept rfl).ran.done_of_responses hr
  exact ⟨u, hu ▸ send_ends s.accept rfl, ht⟩

/-- Settles O21: the answer tells how SEND's loop ended, and each ending says what it delivered. -/
theorem panelReceivesBatchInOrder : Obligations.PanelReceivesBatchInOrder := by
  unfold Obligations.PanelReceivesBatchInOrder
  constructor
  · intro s t h hr
    obtain ⟨u, hu, rfl⟩ := sendEnds_of_responses (st := .ok) h hr
    exact hu.busStream_ok
  · intro s t h hr
    obtain ⟨u, hu, rfl⟩ := sendEnds_of_responses (st := .errIo) h hr
    exact hu.busStream_errIo

/-! ## The DeviceBuffer after a DISPLAY -/

theorem snapshotFits_iff (p : Params) (x : Snapshot) : snapshotFits p x = true
    ↔ x.width = p.width ∧ x.height = p.height ∧ x.px.length = p.width * p.height := by
  simp [snapshotFits, and_assoc]

/-- In Ready a fitting snapshot's image is committed, then flushed (42_transcoder R155). -/
theorem displaySurface_fits {s : State} {x : Snapshot} {xs : List Snapshot} (hb : s.busy = true) (hd : s.dev = .ready)
    (hx : s.env.pixels = x :: xs) (hfit : snapshotFits s.par x = true) :
    displaySurface s = flush .data (transcode s.par x.px)
      ((s.traffic [.getPixels x] s.dc { s.env with pixels := xs } (s.draws + 1)).setBuf (transcode s.par x.px)) := by
  rw [displaySurface, if_neg (not_not_intro hd), getPixels_answer hx, State.drawn_emit s _ _ hb, if_neg (by simp [hfit])]
  exact congrArg (flush .data · _) (bufBytes_setBuf (s := s.traffic _ _ _ _) (transcode_length _ _))

/-- After a DISPLAY of a fitting snapshot the buffer holds its image, whatever the transport answers (42_transcoder R156). -/
theorem exec_display_buf {s t : State} {x : Snapshot} {xs : List Snapshot} (hd : s.dev = .ready)
    (hx : s.env.pixels = x :: xs) (hfit : snapshotFits s.par x = true) (h : exec .display s = .next t) :
    t.buf = Memory.ofBytes (transcode s.par x.px) := by
  obtain rfl : conclude (displaySurface s.accept) = t := Host.Outcome.next.inj h
  rw [displaySurface_fits (s := s.accept) rfl hd hx hfit]
  exact (flush_sent _ _ _ rfl).conclude_panel.2

/-- A pixel's bit: page `row / 8`, bit `row % 8` (20_memory R51, 42_transcoder R154). -/
theorem getLsbD_transcode (p : Params) (px : List Byte) {row col : Nat} (hrow : row / 8 < p.pages) (hcol : col < p.width) :
    ((transcode p px).getD (row / 8 * p.width + col) 0).getLsbD (row % 8)
      = pixelOn p (pixRead px (row * p.width + col)) := by
  rw [getD_transcode p px _ _ hrow hcol, getLsbD_packByte p px _ _ _ (Nat.mod_lt _ (by decide)), Nat.div_add_mod']

/-- Settles O44: the committed image is the transcoder's, and no ending of the flush writes the buffer. -/
theorem displayedBitIsPixel : Obligations.DisplayedBitIsPixel := by
  unfold Obligations.DisplayedBitIsPixel
  intro s t x xs hl hd hx hw hh hlen h row col hrow hcol
  obtain ⟨_, _, _, _, hmod, _⟩ := hl
  have hpage : row / 8 < s.par.pages := by
    rw [Params.pages]
    omega
  rw [exec_display_buf hd hx ((snapshotFits_iff _ _).2 ⟨hw, hh, hlen⟩) h, Memory.read_ofBytes]
  exact getLsbD_transcode s.par x.px hpage hcol

end Sys2Proof.Machine
end

section
/-! PROOFS. The request frames (30_encoding R70 to R79): encoder and decoder are inverse on well-formed operations, how an
idle block's step reads the port, the pseudo-instructions, and the default burst's lengths (R85). -/

namespace Sys2Proof

/-! ## A frame's form, by format (30_encoding R71) -/

theorem encode_build_f0 {o : Opcode} (hf : o.format = .f0) (bs : List Byte) : encode (o.build bs) = [o.byte] := by
  simp [encode, hf]

theorem encode_build_fb {o : Opcode} (hf : o.format = .fb) (bs : List Byte) :
    encode (o.build bs) = o.byte :: lenLow bs.length :: lenHigh bs.length :: bs := by
  simp [encode, hf, Opcode.build_payload_fb hf]

/-- The two forms of an operation: an OP byte alone, or an OP byte with a payload (30_encoding R71). -/
theorem Instr.format_cases (i : Instr) :
    (∃ o : Opcode, o.format = .f0 ∧ i = o.build []) ∨ ∃ o : Opcode, o.format = .fb ∧ i = o.build i.payload := by
  cases hf : i.opcode.format with
  | f0 =>
    have hnone : i.payload = [] := by simpa using Opcode.build_payload_f0 hf i.payload
    exact .inl ⟨i.opcode, hf, by rw [← hnone, Instr.build_self]⟩
  | fb => exact .inr ⟨i.opcode, hf, i.build_self.symm⟩

/-! ## What the decoder reads (30_encoding R74) -/

theorem decode_f0 {o : Opcode} (hf : o.format = .f0) (tail : List Byte) :
    decode (o.byte :: tail) = .frame (o.build []) tail := by
  simp [decode, hf]

theorem decode_fb {o : Opcode} (hf : o.format = .fb) (tail : List Byte) : decode (o.byte :: tail) = decodeList o tail := by
  simp [decode, hf]

theorem decode_illegal {op : Byte} (hop : Opcode.ofByte op = none) (tail : List Byte) :
    decode (op :: tail) = .illegal op tail := by
  simp [decode, hop]

/-- A LEN that fits 16 bits is read back, so the payload is cut at its own length (30_encoding R72). -/
theorem decodeList_len_append (o : Opcode) {bs : List Byte} (hlen : bs.length ≤ 65535) (rest : List Byte) :
    decodeList o (lenLow bs.length :: lenHigh bs.length :: (bs ++ rest)) = .frame (o.build bs) rest := by
  have hfits : bs.length ≤ (bs ++ rest).length := by
    rw [List.length_append]
    omega
  rw [decodeList, lenOf_low_high hlen, if_pos hfits, List.take_left, List.drop_left]

/-- The bytes after OP are not all there yet, or they are a LEN, a payload of that length, and what is left over. -/
theorem decodeList_cases (o : Opcode) (tail : List Byte) :
    decodeList o tail = .incomplete
      ∨ ∃ bs rest : List Byte, bs.length ≤ 65535 ∧ tail = lenLow bs.length :: lenHigh bs.length :: (bs ++ rest)
        ∧ decodeList o tail = .frame (o.build bs) rest := by
  match tail with
  | [] => exact .inl rfl
  | [_] => exact .inl rfl
  | byte1 :: byte2 :: body =>
    by_cases hfits : lenOf byte1 byte2 ≤ body.length
    · have hlen : (body.take (lenOf byte1 byte2)).length = lenOf byte1 byte2 := List.length_take_of_le hfits
      refine .inr ⟨body.take (lenOf byte1 byte2), body.drop (lenOf byte1 byte2), ?_, ?_, if_pos hfits⟩
      · rw [hlen]
        exact lenOf_le byte1 byte2
      · rw [hlen, lenLow_lenOf, lenHigh_lenOf, List.take_append_drop]
    · exact .inl (if_neg hfits)

theorem of_decode_eq_illegal {bs rest : List Byte} {op : Byte} (h : decode bs = .illegal op rest) :
    Opcode.ofByte op = none ∧ bs = op :: rest := by
  obtain ⟨_, hd⟩ | ⟨_, _, rfl, hop, hd⟩ | ⟨_, _, _, _, hd⟩ | ⟨o, tail, _, _, hd⟩ := decode_cases bs <;> rw [hd] at h
  · cases h
  · cases h
    exact ⟨hop, rfl⟩
  · cases h
  · obtain hl | ⟨_, _, _, _, hl⟩ := decodeList_cases o tail <;> rw [hl] at h <;> cases h

/-! ## Encoder and decoder are inverse -/

theorem decode_encode_append {i : Instr} (hw : i.WellFormed) (rest : List Byte) :
    decode (encode i ++ rest) = .frame i rest := by
  obtain ⟨o, hf, hi⟩ | ⟨o, hf, hi⟩ := i.format_cases
  · rw [hi, encode_build_f0 hf]
    exact decode_f0 hf rest
  · rw [hi, encode_build_fb hf]
    exact (decode_fb hf _).trans (decodeList_len_append o hw rest)

theorem of_decode_eq_frame {bs rest : List Byte} {i : Instr} (h : decode bs = .frame i rest) :
    i.WellFormed ∧ bs = encode i ++ rest := by
  obtain ⟨_, hd⟩ | ⟨_, _, _, _, hd⟩ | ⟨o, tail, rfl, hf, hd⟩ | ⟨o, tail, rfl, hf, hd⟩ := decode_cases bs <;> rw [hd] at h
  · cases h
  · cases h
  · cases h
    exact ⟨by simp [Instr.WellFormed, Opcode.build_payload_f0 hf], by rw [encode_build_f0 hf, List.singleton_append]⟩
  · obtain hl | ⟨payload, _, hlen, rfl, hl⟩ := decodeList_cases o tail <;> rw [hl] at h <;> cases h
    exact ⟨by rwa [Instr.WellFormed, Opcode.build_payload_fb hf], by rw [encode_build_fb hf]; rfl⟩

/-- No frame begins another: were a proper part of a frame read as a frame, the whole would be read with bytes left over. -/
theorem decode_properPrefix {i : Instr} (hw : i.WellFormed) {bs : List Byte} (hpre : bs <+: encode i)
    (hne : bs ≠ encode i) : decode bs = .incomplete := by
  obtain ⟨more, hmore⟩ := hpre
  have hwhole : decode (bs ++ more) = .frame i [] := by
    rw [hmore, ← List.append_nil (encode i), decode_encode_append hw]
  cases hd : decode bs with
  | incomplete => rfl
  | illegal op rest =>
    obtain ⟨hop, rfl⟩ := of_decode_eq_illegal hd
    rw [List.cons_append, decode_illegal hop] at hwhole
    cases hwhole
  | frame j rest =>
    obtain ⟨hj, rfl⟩ := of_decode_eq_frame hd
    rw [List.append_assoc, decode_encode_append hj, Decoded.frame.injEq, List.append_eq_nil_iff] at hwhole
    obtain ⟨_, _, rfl⟩ := hwhole
    exact absurd (by rw [← hmore, List.append_nil]) hne

/-- The three ranges of 30_encoding R75 name no operation. -/
theorem Opcode.ofByte_eq_none {op : Byte}
    (hop : op.toNat = 0x00 ∨ (0x07 ≤ op.toNat ∧ op.toNat ≤ 0x0F) ∨ 0x13 ≤ op.toNat) : Opcode.ofByte op = none := by
  cases h : Opcode.ofByte op with
  | none => rfl
  | some o =>
    obtain rfl := Opcode.byte_of_ofByte h
    cases o <;> simp [Opcode.byte] at hop

end Sys2Proof

namespace Sys2Proof.Machine

/-! ## What an idle block's step does with the port's front (30_encoding R74, R75) -/

section
variable {s : State}

theorem step_frame (hidle : s.busy = false) {i : Instr} {rest : List Byte} (hd : decode s.rx = .frame i rest) :
    step s = exec i (s.setRx rest) := by
  simp [step, portHeld, hidle, hd]

theorem step_illegal (hidle : s.busy = false) {op : Byte} {rest : List Byte} (hd : decode s.rx = .illegal op rest) :
    step s = .next ((s.setRx rest).accept.respond .errIllegal) := by
  simp [step, portHeld, hidle, hd, illegalFrame_eq]

theorem step_incomplete (hidle : s.busy = false) (hd : decode s.rx = .incomplete) : step s = .next s := by
  simp [step, portHeld, hidle, hd]

/-- A response without an operation leaves an idle block idle (10_state R22). -/
theorem State.accept_respond (hidle : s.busy = false) (st : Status) :
    s.accept.respond st = { s with responses := s.responses ++ [st.code] } := by
  rw [State.respond, State.accept, ← hidle]

end

/-! ## The obligations -/

/-- Settles O5: each format's frame is read back (`decode_encode_append`). -/
theorem decodeEncodeRoundTrip : Obligations.DecodeEncodeRoundTrip := by
  unfold Obligations.DecodeEncodeRoundTrip
  exact fun i rest hw => decode_encode_append hw rest

/-- Settles O3: the byte names no operation, and the illegal frame writes only the response. -/
theorem illegalFrameAnswersErrIllegal : Obligations.IllegalFrameAnswersErrIllegal := by
  unfold Obligations.IllegalFrameAnswersErrIllegal
  intro s op rest hidle hrx hop
  have hd : decode s.rx = .illegal op rest := by rw [hrx, decode_illegal (Opcode.ofByte_eq_none hop)]
  rw [step_illegal hidle hd, State.accept_respond (s := s.setRx rest) hidle]
  rfl

/-- Settles O4: a proper part of a frame is incomplete, and a whole frame is read back. -/
theorem partialFrameWaits : Obligations.PartialFrameWaits := by
  unfold Obligations.PartialFrameWaits
  intro s i hw hidle
  refine ⟨fun bs hpre hne hrx => ?_, fun rest hrx => ?_⟩
  · exact step_incomplete hidle (hrx ▸ decode_properPrefix hw hpre hne)
  · exact step_frame hidle (hrx ▸ decode_encode_append hw rest)

/-- Settles O6, by the decoder's answers (`of_decode_eq_frame`). -/
theorem decodedFrameIsItsEncoding : Obligations.DecodedFrameIsItsEncoding := by
  unfold Obligations.DecodedFrameIsItsEncoding
  exact fun _ _ _ h => of_decode_eq_frame h

/-- Settles O1 (`step_frame`). -/
theorem stepRunsDecodedInstruction : Obligations.StepRunsDecodedInstruction := by
  unfold Obligations.StepRunsDecodedInstruction
  exact fun _ _ _ hidle hd => step_frame hidle hd

/-- Settles O2: the decoder run on each frame. -/
theorem sampleFramesDecode : Obligations.SampleFramesDecode := by
  unfold Obligations.SampleFramesDecode
  decide

/-- Settles O7: EMPTY is the frame of BATCH_RESET, and a payload that LEN can hold is refused by no SEND line. -/
theorem pseudoInstructionsExpand : Obligations.PseudoInstructionsExpand := by
  unfold Obligations.PseudoInstructionsExpand
  refine ⟨by decide, fun bs hlen => ?_⟩
  have hfits : ¬ 65535 < bs.length := Nat.not_lt.2 hlen
  exact ⟨if_neg hfits, if_neg hfits⟩

/-- Settles O51: no entry's length rests on what CFG holds, and I2C puts one control byte before the entries. -/
theorem defaultBurstLength : Obligations.DefaultBurstLength := by
  unfold Obligations.DefaultBurstLength
  intro c
  have hentries : c.standardBurst.length = 18 := rfl
  have hbytes : c.standardBurst.flatten.length = 31 := rfl
  have hi2c : frameBytes .i2c .cmd c.standardBurst.flatten = 0x00 :: c.standardBurst.flatten := rfl
  have hspi : frameBytes .spi .cmd c.standardBurst.flatten = c.standardBurst.flatten := rfl
  refine ⟨hentries, hbytes, ?_, ?_, hspi, rfl, rfl⟩
  · rw [hi2c, List.length_cons, hbytes]
  · rw [hi2c, List.head?_cons]

end Sys2Proof.Machine
end

section
/-! PROOFS. Appends, SETs and BATCH_RESET (40_batcher R100 to R107, R115): what each does to the batch, when CAP refuses it
(R102), and that it writes nothing but the batch and its answer. -/

namespace Sys2Proof.Machine

/-! ## The operations by tag -/

theorem exec_appendOp (t : Tag) (bs : List Byte) (s : State) :
    exec (appendOp t bs) s = .next ((append t bs s.accept).2.respond (append t bs s.accept).1) := by
  cases t <;> rfl

theorem exec_setOp (t : Tag) (bs : List Byte) (s : State) :
    exec (setOp t bs) s = .next ((setBatchTo t bs s.accept).2.respond (setBatchTo t bs s.accept).1) := by
  cases t <;> rfl

theorem exec_batchReset (s : State) : exec .batchReset s = .next ((s.accept.setBatch [] none).respond .ok) := rfl

/-! ## The capacity (40_batcher R102) -/

theorem exceedsCap_iff (p : Params) (n : Nat) : exceedsCap p n = true ↔ ∃ c, p.cap = some c ∧ c < n := by
  unfold exceedsCap
  cases p.cap with
  | none => simp
  | some c => simp

theorem not_exceedsCap_iff (p : Params) (n : Nat) : exceedsCap p n = false ↔ ∀ c, p.cap = some c → n ≤ c := by
  rw [← Bool.not_eq_true, exceedsCap_iff]
  simp only [not_exists, not_and, not_lt]

/-- An append adds its payload and what a new run starts with (40_batcher R100). -/
theorem addedBytes_eq (t : Tag) (bs : List Byte) (s : State) :
    addedBytes t bs s = (newRunBytes t s).length + bs.length := by
  rw [Nat.add_comm, addedBytes, startsRun, newRunBytes]
  cases s.cur with
  | none => rfl
  | some r => by_cases ht : r.tag = t <;> simp [ht]

/-- A payload that is not empty and alone on the batch needs its start bytes too (40_batcher R105). -/
theorem neededBytes_of_ne_nil (b : Bus) (t : Tag) {bs : List Byte} (hne : bs ≠ []) :
    neededBytes b t bs = bs.length + (startBytes b t).length :=
  if_neg hne

/-! ## What an append and a SET do -/

section
variable {t : Tag} {bs : List Byte} {s : State}

theorem append_nil : append t [] s = (.ok, s) := rfl

theorem append_fits (hne : bs ≠ []) (hfit : exceedsCap s.par (s.pendingBytes + addedBytes t bs s) = false) :
    append t bs s = (.ok, extendBatch t bs s) := by
  simp [append, hne, hfit]

theorem append_refused (hne : bs ≠ []) (hover : exceedsCap s.par (s.pendingBytes + addedBytes t bs s) = true) :
    append t bs s = (.errOverflow, s) := by
  simp [append, hne, hover]

/-- With nothing open a payload is its own run (40_batcher R101). -/
theorem extendBatch_none (hcur : s.cur = none) :
    extendBatch t bs s = s.setBatch s.runs (some (flushRun s.par t bs)) := by
  rw [extendBatch, hcur]
  rfl

/-- The open run of the tag gets the payload, and no second control byte (40_batcher R101). -/
theorem extendBatch_same {r : Run} (hcur : s.cur = some r) (ht : r.tag = t) :
    extendBatch t bs s = s.setBatch s.runs (some { tag := t, bytes := r.bytes ++ bs }) := by
  rw [extendBatch, hcur]
  exact if_pos ht

/-- An open run of the other tag is closed (40_batcher R100). -/
theorem extendBatch_other {r : Run} (hcur : s.cur = some r) (ht : r.tag ≠ t) :
    extendBatch t bs s = s.setBatch (s.runs ++ [r]) (some (flushRun s.par t bs)) := by
  rw [extendBatch, hcur]
  exact if_neg ht

/-- Without CAP no append is refused (40_batcher R102). -/
theorem append_answers_ok (hcap : s.par.cap = none) : (append t bs s).1 = .ok := by
  obtain ⟨h, _⟩ | ⟨_, _, hover⟩ | ⟨h, _⟩ := append_cases t bs s
  · rw [h]
  · rw [exceedsCap_iff] at hover
    simp [hcap] at hover
  · rw [h]

theorem setBatchTo_refused (hover : exceedsCap s.par (neededBytes s.par.bus t bs) = true) :
    setBatchTo t bs s = (.errOverflow, s) :=
  if_pos hover

theorem setBatchTo_nil : setBatchTo t [] s = (.ok, s.setBatch [] none) := by
  have hfit : ¬ exceedsCap s.par (neededBytes s.par.bus t []) = true := by simp [neededBytes, exceedsCap_zero]
  rw [setBatchTo, if_neg hfit, append_nil, batchReset]

theorem setBatchTo_fits (hne : bs ≠ []) (hfit : exceedsCap s.par (bs.length + (startBytes s.par.bus t).length) = false) :
    setBatchTo t bs s = (.ok, s.setBatch [] (some (flushRun s.par t bs))) := by
  rw [setBatchTo, neededBytes_of_ne_nil _ _ hne, if_neg (by simp [hfit]), append_empty hne hfit]
  rfl

end

/-- A SET writes nothing but the batch. -/
theorem setBatchTo_batch (t : Tag) (bs : List Byte) (s : State) :
    (setBatchTo t bs s).2 = s.setBatch (setBatchTo t bs s).2.runs (setBatchTo t bs s).2.cur := by
  unfold setBatchTo
  split
  · rfl
  · rw [append_batch]
    rfl

/-- The operations without a transport event write the batch and answer (40_batcher R103 to R107, R115). -/
theorem exec_batchOperation {i : Instr} {s t : State}
    (hi : i = .batchReset ∨ ∃ tag bs, i = appendOp tag bs ∨ i = setOp tag bs) (h : exec i s = .next t) :
    ∃ rs c st, t = (s.accept.setBatch rs c).respond st := by
  obtain rfl | ⟨tag, bs, rfl | rfl⟩ := hi
  · exact ⟨_, _, _, (Host.Outcome.next.inj h).symm⟩
  · rw [exec_appendOp, append_batch] at h
    exact ⟨_, _, _, (Host.Outcome.next.inj h).symm⟩
  · rw [exec_setOp, setBatchTo_batch] at h
    exact ⟨_, _, _, (Host.Outcome.next.inj h).symm⟩

/-! ## The obligations -/

/-- Settles O12: a payload that fits extends the batch, by what was open. -/
theorem appendAddsPayload : Obligations.AppendAddsPayload := by
  unfold Obligations.AppendAddsPayload
  refine ⟨fun t bs s hne hcap => ?_, rfl, rfl, rfl, rfl⟩
  have hfit : exceedsCap s.par (s.pendingBytes + addedBytes t bs s) = false := by
    rw [not_exceedsCap_iff, addedBytes_eq, ← Nat.add_assoc]
    exact hcap
  rw [exec_appendOp, append_fits (s := s.accept) hne hfit]
  cases hcur : s.cur with
  | none =>
    rw [extendBatch_none (s := s.accept) hcur]
    rfl
  | some r =>
    by_cases ht : r.tag = t
    · rw [extendBatch_same (s := s.accept) hcur ht]
      simp only [ht, if_true]
      rfl
    · rw [extendBatch_other (s := s.accept) hcur ht]
      simp only [ht, if_false]
      rfl

/-- Settles O14: CAP decides in `append`, construction refuses a CAP below the device operations' batches, and every legal one
holds them (`flush_fits`). -/
theorem capacityRefusesWhole : Obligations.CapacityRefusesWhole := by
  unfold Obligations.CapacityRefusesWhole
  refine ⟨fun t bs s c hne hcap hover => ?_, fun t bs s u hcap h => ?_, fun p a c hcap hsmall => ?_,
    fun s t bs hl hbs => ?_⟩
  · have hover' : exceedsCap s.par (s.pendingBytes + addedBytes t bs s) = true := by
      rw [exceedsCap_iff, addedBytes_eq, ← Nat.add_assoc]
      exact ⟨c, hcap, hover⟩
    rw [exec_appendOp, append_refused (s := s.accept) hne hover']
    rfl
  · rw [exec_appendOp, append_answers_ok (s := s.accept) hcap, append_batch] at h
    exact Host.Outcome.next.inj h ▸ rfl
  · rw [construct_eq_none]
    rintro ⟨_, _, _, _, _, _, _, _, _, _, hlegal⟩
    exact (not_capLegal_iff p _).2 ⟨c, hcap, hsmall⟩ hlegal
  · exact append_empty (flush_ne_nil hl hbs) (flush_fits hl t hbs)

/-- Settles O15: a SET is a reset, then an append of a payload that fits, or of none. -/
theorem setReplacesBatch : Obligations.SetReplacesBatch := by
  unfold Obligations.SetReplacesBatch
  intro t bs s hcap
  rw [exec_setOp]
  by_cases hne : bs = []
  · subst hne
    rw [setBatchTo_nil]
    rfl
  · have hfit := (not_exceedsCap_iff s.par _).2 (hcap hne)
    rw [setBatchTo_fits (s := s.accept) hne hfit, if_neg hne]
    rfl

/-- Settles O25: the next state is the state before with another batch and an answer (`exec_batchOperation`). -/
theorem batchOperationsFrame : Obligations.BatchOperationsFrame := by
  unfold Obligations.BatchOperationsFrame
  intro i s t hi h
  obtain ⟨rs, c, st, rfl⟩ := exec_batchOperation hi h
  exact ⟨rfl, fun _ => rfl⟩

/-- Settles O13 (`append_nil`). -/
theorem appendOfNothingChangesNothing : Obligations.AppendOfNothingChangesNothing := by
  unfold Obligations.AppendOfNothingChangesNothing
  intro t s
  rw [exec_appendOp, append_nil]
  rfl

/-- Settles O16: the payload and its start bytes exceed CAP, so nothing is reset (`setBatchTo_refused`). -/
theorem overflowingSetKeepsBatch : Obligations.OverflowingSetKeepsBatch := by
  unfold Obligations.OverflowingSetKeepsBatch
  intro t bs s c hne hcap hover
  have hover' : exceedsCap s.par (neededBytes s.par.bus t bs) = true := by
    rw [exceedsCap_iff, neededBytes_of_ne_nil _ _ hne]
    exact ⟨c, hcap, hover⟩
  rw [exec_setOp, setBatchTo_refused (s := s.accept) hover']
  rfl

/-- Settles O22 (`exec_batchReset`). -/
theorem batchResetDiscards : Obligations.BatchResetDiscards := by
  unfold Obligations.BatchResetDiscards
  exact exec_batchReset

end Sys2Proof.Machine
end

section
/-! PROOFS. The trace's framing (40_batcher R112, R117; 20_memory R56, R58, R59): framed lists of events put together are
framed, and so are the events that each procedure adds. -/

namespace Sys2Proof.Machine

/-! ## Framed lists of events -/

section
variable {b : Bus} {line : Bool}

/-- Framing is kept by adding framed events: what stands straight before a write does not change. -/
theorem TraceFramed.append {tr es : List Event} (h : TraceFramed b line tr) (h' : TraceFramed b line es) :
    TraceFramed b line (tr ++ es) where
  i2c_control_byte hb bytes a hmem := by
    obtain hmem | hmem := List.mem_append.1 hmem
    · exact h.i2c_control_byte hb bytes a hmem
    · exact h'.i2c_control_byte hb bytes a hmem
  i2c_no_select hb t a hmem := by
    obtain hmem | hmem := List.mem_append.1 hmem
    · exact h.i2c_no_select hb t a hmem
    · exact h'.i2c_no_select hb t a hmem
  spi_selected hb before bytes a rest heq := by
    obtain ⟨later, rfl, hes⟩ | ⟨_ | ⟨w, later⟩, rfl, hrest⟩ := List.append_eq_append_iff.1 heq
    · obtain ⟨hne, earlier, t, rfl⟩ := h'.spi_selected hb later bytes a rest hes
      exact ⟨hne, tr ++ earlier, t, (List.append_assoc _ _ _).symm⟩
    · obtain ⟨_, earlier, t, hnil⟩ := h'.spi_selected hb [] bytes a rest hrest.symm
      simp at hnil
    · obtain ⟨rfl, _⟩ := List.cons_eq_cons.1 hrest
      exact h.spi_selected hb before bytes a later rfl
  delivered_short bytes k hmem := by
    obtain hmem | hmem := List.mem_append.1 hmem
    · exact h.delivered_short bytes k hmem
    · exact h'.delivered_short bytes k hmem
  no_line_no_reset hl a := by
    obtain ⟨hassert, hrelease⟩ := h.no_line_no_reset hl a
    obtain ⟨hassert', hrelease'⟩ := h'.no_line_no_reset hl a
    simp [hassert, hrelease, hassert', hrelease']

/-- Without a write only the lines' drives count. -/
theorem framed_of_no_write {es : List Event} (hwrite : ∀ bytes a, .busWrite bytes a ∉ es)
    (hselect : b = .i2c → ∀ a, .selectCmd a ∉ es ∧ .selectData a ∉ es)
    (hreset : line = false → ∀ a, .assertReset a ∉ es ∧ .releaseReset a ∉ es) : TraceFramed b line es where
  i2c_control_byte _ bytes a hmem := absurd hmem (hwrite bytes a)
  i2c_no_select hb t a := by
    obtain ⟨hcmd, hdata⟩ := hselect hb a
    cases t with
    | cmd => exact hcmd
    | data => exact hdata
  spi_selected _ before bytes a rest heq := absurd (by simp [heq]) (hwrite bytes a)
  delivered_short bytes k hmem := absurd hmem (hwrite bytes (.fail k))
  no_line_no_reset := hreset

theorem framed_nil : TraceFramed b line [] :=
  framed_of_no_write (by simp) (by simp) (by simp)

theorem framed_busReady (usable : Bool) : TraceFramed b line [.busReady usable] :=
  framed_of_no_write (by simp) (by simp) (by simp)

theorem framed_delay (k : DelayKind) (min : Nat) : TraceFramed b line [.delay k min] :=
  framed_of_no_write (by simp) (by simp) (by simp)

theorem framed_getPixels (x : Snapshot) : TraceFramed b line [.getPixels x] :=
  framed_of_no_write (by simp) (by simp) (by simp)

theorem framed_surfaceClear : TraceFramed b line [.surfaceClear] :=
  framed_of_no_write (by simp) (by simp) (by simp)

/-- Under SPI the select line may be driven. -/
theorem framed_select (hbus : b = .spi) (t : Tag) (a : DriveAnswer) : TraceFramed b line [selectEvent t a] := by
  cases t <;> exact framed_of_no_write (by simp [selectEvent]) (by simp [hbus]) (by simp [selectEvent])

theorem framed_selectEvents (t : Tag) (a : DriveAnswer) : TraceFramed b line (selectEvents b t a) := by
  cases b with
  | i2c => exact framed_nil
  | spi => exact framed_select rfl t a

/-- Under I2C a write of a control byte and a payload is framed by itself (40_batcher R117). -/
theorem framed_i2cWrite (t : Tag) {payload : List Byte} (hne : payload ≠ []) {a : WriteAnswer}
    (ha : ∀ k, a = .fail k → k ≤ (ctrl t :: payload).length) :
    TraceFramed .i2c line [.busWrite (ctrl t :: payload) a] where
  i2c_control_byte _ bytes a' hmem := by
    obtain ⟨rfl, rfl⟩ := Event.busWrite.inj (List.mem_singleton.1 hmem)
    exact ⟨t, payload, hne, rfl⟩
  i2c_no_select _ t a' := by cases t <;> simp [selectEvent]
  spi_selected := nofun
  delivered_short bytes k hmem := by
    obtain ⟨rfl, rfl⟩ := Event.busWrite.inj (List.mem_singleton.1 hmem)
    exact ha k rfl
  no_line_no_reset := by simp

/-- Under SPI a write is framed by the drive straight before it (40_batcher R112). -/
theorem framed_spiWrite (t : Tag) {bytes : List Byte} (hne : bytes ≠ []) {a : WriteAnswer}
    (ha : ∀ k, a = .fail k → k ≤ bytes.length) :
    TraceFramed .spi line [selectEvent t .ok, .busWrite bytes a] where
  i2c_control_byte := nofun
  i2c_no_select := nofun
  spi_selected _ before bytes' a' rest heq := by
    rcases before with _ | ⟨drive, _ | ⟨event, before⟩⟩
    · cases t <;> simp [selectEvent] at heq
    · obtain ⟨rfl, hwrite⟩ := List.cons_eq_cons.1 heq
      obtain ⟨⟨rfl, rfl⟩, _⟩ := by simpa using hwrite
      exact ⟨hne, [], t, rfl⟩
    · simp at heq
  delivered_short bytes' k hmem := by
    obtain ⟨rfl, rfl⟩ : bytes' = bytes ∧ .fail k = a := by cases t <;> simpa [selectEvent] using hmem
    exact ha k rfl
  no_line_no_reset := by cases t <;> simp [selectEvent]

/-- A well-formed run is sent as its bus asks (10_state R34). -/
theorem framed_runEvents {r : Run} (hr : runOk b r = true) {a : WriteAnswer} (ha : ∀ k, a = .fail k → k ≤ r.bytes.length) :
    TraceFramed b line (runEvents b r a) := by
  obtain ⟨bs, hne, hbytes⟩ := (runOk_iff b r).1 hr
  rw [hbytes] at ha
  rw [runEvents, hbytes]
  cases b with
  | i2c => exact framed_i2cWrite r.tag hne ha
  | spi => exact framed_spiWrite r.tag hne ha

theorem framed_okRun {r : Run} (hr : runOk b r = true) : TraceFramed b line (runEvents b r .ok) :=
  framed_runEvents hr nofun

theorem framed_okRuns {rs : List Run} (hrs : ∀ r ∈ rs, runOk b r = true) :
    TraceFramed b line (rs.flatMap fun x => runEvents b x .ok) := by
  induction rs with
  | nil => exact framed_nil
  | cons r rs ih =>
    obtain ⟨hr, hrs⟩ := List.forall_mem_cons.1 hrs
    exact (framed_okRun hr).append (ih hrs)

/-- The runs before one that is not sent whole, and what was sent of it. -/
theorem framed_partOfRuns {rs before after : List Run} {x : Run} (hrs : ∀ r ∈ rs, runOk b r = true)
    (hsplit : rs = before ++ x :: after) {es : List Event} (hes : runOk b x = true → TraceFramed b line es) :
    TraceFramed b line (before.flatMap (fun x => runEvents b x .ok) ++ es) := by
  rw [hsplit, List.forall_mem_append, List.forall_mem_cons] at hrs
  obtain ⟨hbefore, hx, _⟩ := hrs
  exact (framed_okRuns hbefore).append (hes hx)

end

/-! ## What the procedures add to the trace -/

/-- The events between two states are framed. -/
def AddsFramed (s t : State) : Prop :=
  ∃ es, t.trace = s.trace ++ es ∧ TraceFramed s.par.bus s.par.hasResetLine es

theorem AddsFramed.of_trace_eq {s t : State} (h : t.trace = s.trace) : AddsFramed s t :=
  ⟨[], by rw [h, List.append_nil], framed_nil⟩

theorem AddsFramed.trans {s t u : State} (h : AddsFramed s t) (h' : AddsFramed t u) (hpar : t.par = s.par) :
    AddsFramed s u := by
  obtain ⟨es, htrace, hes⟩ := h
  obtain ⟨es', htrace', hes'⟩ := h'
  rw [hpar] at hes'
  exact ⟨es ++ es', by rw [htrace', htrace, List.append_assoc], hes.append hes'⟩

/-- An operation that adds framed events keeps the trace framed. -/
theorem AddsFramed.traceFramed {s t : State} (h : AddsFramed s t) (hpar : t.par = s.par)
    (hs : TraceFramed s.par.bus s.par.hasResetLine s.trace) : TraceFramed t.par.bus t.par.hasResetLine t.trace := by
  obtain ⟨es, htrace, hes⟩ := h
  rw [hpar, htrace]
  exact hs.append hes

/-- Each end of SEND's loop over well-formed runs (40_batcher R110 to R113). -/
theorem SendRunsEnds.framed {rs : List Run} {s : State} {r : Res Status} (h : SendRunsEnds rs s r)
    (hrs : ∀ x ∈ rs, runOk s.par.bus x = true) : AddsFramed s (conclude r) := by
  cases h with
  | sent e n => exact ⟨_, rfl, framed_okRuns hrs⟩
  | writeFailed before after x k e n hsplit hk =>
    exact ⟨_, rfl, framed_partOfRuns hrs hsplit fun hx => framed_runEvents hx (by rintro _ ⟨⟩; exact hk)⟩
  | selectFailed before after x e n hsplit hbus =>
    exact ⟨_, rfl, framed_partOfRuns hrs hsplit fun _ => framed_select hbus x.tag .fail⟩
  | held before after x c l es e n hsplit hes hl =>
    refine ⟨_, rfl, framed_partOfRuns hrs hsplit fun _ => ?_⟩
    obtain rfl | rfl := hes
    · exact framed_nil
    · exact framed_selectEvents x.tag .ok

theorem SendEnds.framed {s : State} {r : Res Status} (h : SendEnds s r) (hbatch : ∀ x ∈ s.batch, runOk s.par.bus x = true) :
    AddsFramed s (conclude r) := by
  cases h with
  | held e n => exact ⟨_, rfl, framed_nil⟩
  | unavailable e n => exact ⟨_, rfl, framed_busReady false⟩
  | empty e n _ => exact ⟨_, rfl, framed_busReady true⟩
  | loop e n r _ hr =>
    have hquery : AddsFramed s ((s.traffic [.busReady true] s.dc e n).setBatch s.batch none) :=
      ⟨_, rfl, framed_busReady true⟩
    exact hquery.trans (hr.framed hbatch) rfl

theorem FlushEnds.framed {x : Run} {s : State} {r : Res Status} (h : FlushEnds x s r) (hx : runOk s.par.bus x = true) :
    AddsFramed s (conclude r) := by
  cases h with
  | heldAtQuery e n => exact ⟨_, rfl, framed_nil⟩
  | unavailable e n => exact ⟨_, rfl, framed_busReady false⟩
  | sent e n => exact ⟨_, rfl, (framed_busReady true).append (framed_okRun hx)⟩
  | writeFailed k e n hk =>
    exact ⟨_, rfl, (framed_busReady true).append (framed_runEvents hx (by rintro _ ⟨⟩; exact hk))⟩
  | selectFailed e n hbus => exact ⟨_, rfl, (framed_busReady true).append (framed_select hbus x.tag .fail)⟩
  | held c l es e n hes hl =>
    obtain rfl | rfl := hes
    · exact ⟨_, rfl, framed_busReady true⟩
    · exact ⟨_, rfl, (framed_busReady true).append (framed_selectEvents x.tag .ok)⟩

/-- The reset pulse drives a line that is there (41_device R132). -/
theorem PulseEnds.framed {s : State} {r : Res Status} (h : PulseEnds s r) : AddsFramed s (conclude r) := by
  cases h with
  | noLine _ => exact .of_trace_eq rfl
  | pulsed hl e n => exact ⟨_, rfl, framed_of_no_write (by simp [pulseEvents, hl]) (by simp [pulseEvents, hl]) (by simp [hl])⟩
  | assertFailed hl e n => exact ⟨_, rfl, framed_of_no_write (by simp) (by simp) (by simp [hl])⟩
  | releaseFailed hl e n => exact ⟨_, rfl, framed_of_no_write (by simp) (by simp) (by simp [hl])⟩
  | heldAtAssert hl e n => exact ⟨_, rfl, framed_nil⟩
  | heldAtRelease hl e n => exact ⟨_, rfl, framed_of_no_write (by simp) (by simp) (by simp [hl])⟩

theorem framed_bootEvents (p : Params) : TraceFramed p.bus p.hasResetLine (bootEvents p) := by
  cases hl : p.hasResetLine <;>
    exact framed_of_no_write (by simp [bootEvents, pulseEvents, hl]) (by simp [bootEvents, pulseEvents, hl])
      (by simp [bootEvents, pulseEvents, hl])

/-- A device operation's run is well formed (40_batcher R118). -/
theorem runOk_deviceRun {p : Params} {c : ControllerConfig} (h : p.Legal c) (t : Tag) {bs : List Byte}
    (hbs : bs = burst p c ∨ bs.length = p.bufLen) : runOk p.bus (flushRun p t bs) = true :=
  runOk_flushRun p t (flush_ne_nil h hbs)

theorem DisplayEnds.framed {s : State} {r : Res Status} (h : DisplayEnds s r) (hl : s.par.Legal s.cfg) :
    AddsFramed s (conclude r) := by
  cases h with
  | notReady _ => exact .of_trace_eq rfl
  | mismatch x e n _ _ => exact ⟨_, rfl, framed_getPixels x⟩
  | flushed x e n r _ _ hr =>
    have hread : AddsFramed s ((s.traffic [.getPixels x] s.dc e n).setBuf (transcode s.par x.px)) :=
      ⟨_, rfl, framed_getPixels x⟩
    exact hread.trans (hr.framed (runOk_deviceRun hl .data (.inr (transcode_length _ _)))) rfl

theorem ClearEnds.framed {s : State} {r : Res Status} (h : ClearEnds s r) (hl : s.par.Legal s.cfg) :
    AddsFramed s (conclude r) := by
  cases h with
  | notReady _ => exact .of_trace_eq rfl
  | flushed r _ hr =>
    have hclear : AddsFramed s ((s.setBuf (zeros s.par.bufLen)).traffic [.surfaceClear] s.dc s.env s.draws) :=
      ⟨_, rfl, framed_surfaceClear⟩
    exact hclear.trans (hr.framed (runOk_deviceRun hl .data (.inr (zeros_length _)))) rfl

/-- Entering Aborted adds no event (60_exceptions R176). -/
theorem AddsFramed.failed {s : State} {r : Res Status} (h : AddsFramed s (conclude r)) :
    AddsFramed s (conclude r.failed) := by
  obtain hr | hr := conclude_failed r <;> rw [hr]
  · exact h
  · exact h

theorem InitEnds.framed {s : State} {r : Res Status} (h : InitEnds s r) (hl : s.par.Legal s.cfg) :
    AddsFramed s (conclude r) := by
  have hburst : runOk s.par.bus (flushRun s.par .cmd (burst s.par s.cfg)) = true := runOk_deviceRun hl .cmd (.inl rfl)
  have himage : runOk s.par.bus (flushRun s.par .data (initialImage s.par)) = true :=
    runOk_deviceRun hl .data (.inr (initialImage_length _))
  have htoBurst (e n) : AddsFramed s (burstPoint s e n) := ⟨_, rfl, framed_bootEvents s.par⟩
  have htoImage (e n) : AddsFramed s (imagePoint s e n) :=
    ⟨_, rfl, (framed_bootEvents s.par).append ((framed_busReady true).append (framed_okRun hburst))⟩
  cases h with
  | heldAtCheck e n => exact ⟨_, rfl, framed_nil⟩
  | unusable e n => exact ⟨_, rfl, framed_busReady false⟩
  | atPulse e n r hr _ =>
    have hcheck : AddsFramed s ((s.setDev .initializing).traffic [.busReady true] s.dc e n) :=
      ⟨_, rfl, framed_busReady true⟩
    exact (hcheck.trans hr.framed rfl).failed
  | atBurst e n r hr _ => exact ((htoBurst e n).trans (hr.framed hburst) rfl).failed
  | atImage e n r hr _ => exact ((htoImage e n).trans (hr.framed himage) rfl).failed
  | ready e n =>
    exact (htoImage e n).trans ⟨_, rfl,
      ((framed_busReady true).append (framed_okRun himage)).append (framed_delay .settle s.par.tSettle)⟩ rfl

/-! ## Every operation -/

/-- The operations without a transport event leave the trace alone. -/
theorem batchOperation_trace {i : Instr} {s t : State}
    (hi : i = .batchReset ∨ ∃ tag bs, i = appendOp tag bs ∨ i = setOp tag bs) (h : exec i s = .next t) :
    t.trace = s.trace := by
  obtain ⟨rs, c, st, rfl⟩ := exec_batchOperation hi h
  rfl

theorem initSequence_framed {s : State} (hl : s.par.Legal s.cfg) (hb : s.busy = true) :
    AddsFramed s (conclude (initSequence s)) := by
  by_cases hd : s.dev = .unknown
  · exact (initSequence_ends hl hb hd).framed hl
  · rw [initSequence, if_pos hd]
    exact .of_trace_eq rfl

/-- An operation's events are framed if the parameters are legal and the pending runs are well formed. -/
theorem exec_framed {i : Instr} {s t : State} (hl : s.par.Legal s.cfg) (hbatch : ∀ x ∈ s.batch, runOk s.par.bus x = true)
    (h : exec i s = .next t) : AddsFramed s t := by
  cases i with
  | appendCmd bs => exact .of_trace_eq (batchOperation_trace (.inr ⟨.cmd, bs, .inl rfl⟩) h)
  | appendData bs => exact .of_trace_eq (batchOperation_trace (.inr ⟨.data, bs, .inl rfl⟩) h)
  | setCmd bs => exact .of_trace_eq (batchOperation_trace (.inr ⟨.cmd, bs, .inr rfl⟩) h)
  | setData bs => exact .of_trace_eq (batchOperation_trace (.inr ⟨.data, bs, .inr rfl⟩) h)
  | batchReset => exact .of_trace_eq (batchOperation_trace (.inl rfl) h)
  | send => exact Host.Outcome.next.inj h ▸ (send_ends s.accept rfl).framed hbatch
  | init => exact Host.Outcome.next.inj h ▸ initSequence_framed (s := s.accept) hl rfl
  | display => exact Host.Outcome.next.inj h ▸ (displaySurface_ends (s := s.accept) hl rfl).framed hl
  | clear => exact Host.Outcome.next.inj h ▸ (clearSurface_ends (s := s.accept) hl rfl).framed hl

/-- Settles O60: a step that is not an operation's adds no event, and an operation adds framed ones (`exec_framed`). -/
theorem stepKeepsTraceFraming : Obligations.StepKeepsTraceFraming := by
  unfold Obligations.StepKeepsTraceFraming
  intro s t hinv hs h
  obtain rfl | ⟨_, rest, rfl⟩ | ⟨_, i, rest, _, he⟩ := step_cases h
  · exact hs
  · exact hs
  · obtain ⟨d, hended⟩ := ended_of_exec he
    exact (exec_framed (s := s.setRx rest) hinv.legal hinv.runs_ok he).traceFramed hended.par hs

end Sys2Proof.Machine
end

section
/-! PROOFS. SEND (40_batcher R110 to R114): what it does under answers that the environment fixes, what its answer says of the
batch, and what it leaves unchanged. -/

namespace Sys2Proof.Machine

/-! ## The two early checks (40_batcher R110) -/

theorem exec_send (s : State) : exec .send s = .next (conclude (send s.accept)) := rfl

section
variable {s : State} {r : List (Reply Bool)}

theorem send_unusable (hb : s.busy = true) (hr : s.env.ready = .answer false :: r) :
    send s = .done .errUnavailable (s.traffic [.busReady false] s.dc { s.env with ready := r } (s.draws + 1)) := by
  rw [send, busReady_answer hr, State.drawn_emit _ _ _ hb]
  rfl

theorem send_empty (hb : s.busy = true) (hempty : s.batch = []) (hr : s.env.ready = .answer true :: r) :
    send s = .done .errEmpty (s.traffic [.busReady true] s.dc { s.env with ready := r } (s.draws + 1)) := by
  rw [send, busReady_answer hr, State.drawn_emit _ _ _ hb, Res.andThen_done, if_neg (by simp),
    if_pos ((pending_iff_batch (s.traffic _ _ _ _)).2 hempty)]

theorem send_usable (hb : s.busy = true) (hne : s.batch ≠ []) (hr : s.env.ready = .answer true :: r) :
    send s = sendRuns s.batch
      ((s.traffic [.busReady true] s.dc { s.env with ready := r } (s.draws + 1)).setBatch s.batch none) := by
  rw [send, busReady_answer hr, State.drawn_emit _ _ _ hb, Res.andThen_done, if_neg (by simp),
    if_neg (fun h => hne ((pending_iff_batch (s.traffic _ _ _ _)).1 h)), finalize_eq]
  rfl

/-! ## Runs that are sent, and the first one that is not -/

/-- After the first runs' drives and writes answered ok, the loop goes on with the later ones (40_batcher R111, R112). -/
theorem send_okRuns {sent later : List Run} {w : List (Reply WriteAnswer)} {d : List (Reply DriveAnswer)}
    (hb : s.busy = true) (hbatch : s.batch = sent ++ later) (hne : s.batch ≠ [])
    (hr : s.env.ready = .answer true :: r) (hw : s.env.writes = okWrites sent.length ++ w)
    (hd : s.env.drives = okDrives (drivesPerRun s.par.bus * sent.length) ++ d) :
    send s = sendRuns later ((s.traffic (.busReady true :: sent.flatMap (fun x => runEvents s.par.bus x .ok))
      (levelAfterRuns s.par.bus sent s.dc) { s.env with ready := r, writes := w, drives := d }
      (s.draws + 1 + (1 + drivesPerRun s.par.bus) * sent.length)).setBatch s.batch none) := by
  rw [send_usable hb hne hr]
  generalize hrs : s.batch = rs at hbatch
  rw [hbatch, sendRuns_okRuns sent later ((s.traffic _ _ { s.env with ready := r } _).setBatch _ _) w d hb hw hd,
    setBatch_traffic, State.traffic_traffic]
  rfl

theorem sendRuns_writeFails {x : Run} {k : Nat} {w : List (Reply WriteAnswer)} {d : List (Reply DriveAnswer)}
    (later : List Run) (hb : s.busy = true) (hw : s.env.writes = .answer (.fail k) :: w)
    (hd : s.env.drives = okDrives (drivesPerRun s.par.bus) ++ d) :
    sendRuns (x :: later) s = .done .errIo ((s.traffic (runEvents s.par.bus x (.fail (min k x.bytes.length)))
      (levelAfterRuns s.par.bus [x] s.dc) { s.env with writes := w, drives := d }
      (s.draws + (1 + drivesPerRun s.par.bus))).setBatch [] none) := by
  rw [sendRuns, driveFor]
  cases hbus : s.par.bus with
  | i2c =>
    obtain rfl : s.env.drives = d := by simpa [hbus, drivesPerRun, okDrives] using hd
    simp only [Res.andThen_done]
    rw [busWrite_answer x.bytes hw, State.drawn_emit _ _ _ hb]
    rfl
  | spi =>
    have hdrive : s.env.drives = .answer .ok :: d := by simpa [hbus, drivesPerRun, okDrives] using hd
    simp only
    rw [selectLine_answer x.tag hdrive, State.drawn_setDc_emit _ _ _ _ hb]
    simp only [Res.andThen_done]
    rw [busWrite_answer x.bytes (s := s.traffic _ _ { s.env with drives := d } _) hw,
      State.drawn_emit (s.traffic _ _ _ _) _ _ hb, State.traffic_traffic]
    rfl

theorem sendRuns_selectFails {x : Run} {d : List (Reply DriveAnswer)} (later : List Run) (hb : s.busy = true)
    (hbus : s.par.bus = .spi) (hd : s.env.drives = .answer .fail :: d) :
    sendRuns (x :: later) s = .done .errIo ((s.traffic [selectEvent x.tag .fail] .unknown { s.env with drives := d }
      (s.draws + 1)).setBatch [] none) := by
  rw [sendRuns, driveFor, hbus]
  simp only
  rw [selectLine_answer x.tag hd, State.drawn_setDc_emit _ _ _ _ hb]
  rfl

end

theorem levelAfterRuns_concat (b : Bus) (rs : List Run) (x : Run) (l : SelectLevel) :
    levelAfterRuns b (rs ++ [x]) l = levelAfterRuns b [x] (levelAfterRuns b rs l) := by
  cases b <;> simp [levelAfterRuns]

/-! ## What SEND's answer says -/

/-- SEND's loop, once it ended, has emptied the batch (40_batcher R110, R113). -/
theorem SendRunsEnds.batch_emptied {rs : List Run} {s u : State} {st : Status} (h : SendRunsEnds rs s (.done st u)) :
    u.runs = [] ∧ u.cur = none := by
  cases h with
  | sent e n => exact ⟨rfl, rfl⟩
  | writeFailed before after x k e n _ _ => exact ⟨rfl, rfl⟩
  | selectFailed before after x e n _ _ => exact ⟨rfl, rfl⟩

/-- A SEND past its early checks has emptied the batch (40_batcher R114). -/
theorem SendEnds.batch_emptied {s u : State} {st : Status} (h : SendEnds s (.done st u))
    (hst : st = .ok ∨ st = .errIo) : u.runs = [] ∧ u.cur = none := by
  cases h with
  | unavailable e n => simp at hst
  | empty e n _ => simp at hst
  | loop e n _ _ hr => exact hr.batch_emptied

/-! ## The obligations -/

/-- Settles O17: the whole batch is sent (`send_okRuns`), and the loop's end empties it. -/
theorem sendWritesEveryRun : Obligations.SendWritesEveryRun := by
  unfold Obligations.SendWritesEveryRun
  intro s r w d hne hr hw hd
  rw [exec_send, send_okRuns (s := s.accept) rfl (List.append_nil _).symm hne hr hw hd]
  rfl

/-- Settles O19: an answer `OK` or `ERR_IO` comes from SEND's loop, and an empty batch never reaches it. -/
theorem secondSendSendsNothing : Obligations.SecondSendSendsNothing := by
  unfold Obligations.SecondSendSendsNothing
  refine ⟨fun s t h hr => ?_, fun s b r hruns hcur hr => ?_⟩
  · obtain hok | hio := hr
    · obtain ⟨u, hu, rfl⟩ := sendEnds_of_responses (st := .ok) h hok
      exact hu.batch_emptied (.inl rfl)
    · obtain ⟨u, hu, rfl⟩ := sendEnds_of_responses (st := .errIo) h hio
      exact hu.batch_emptied (.inr rfl)
  · have hempty : s.batch = [] := by rw [State.batch, hruns, hcur]; rfl
    cases b with
    | true =>
      rw [exec_send, send_empty (s := s.accept) rfl hempty hr]
      rfl
    | false =>
      rw [exec_send, send_unusable (s := s.accept) rfl hr]
      rfl

/-- Settles O20: the runs before were sent (`send_okRuns`), and the failing write or select drive ends the loop. -/
theorem failedSendDropsTheRest : Obligations.FailedSendDropsTheRest := by
  unfold Obligations.FailedSendDropsTheRest
  refine ⟨fun s sent later x k r w d hbatch hr hw hd => ?_, fun s sent later x r w d hbus hbatch hr hw hd => ?_⟩
  · have hne : s.batch ≠ [] := by simp [hbatch]
    have hd' : s.env.drives = okDrives (drivesPerRun s.par.bus * sent.length)
        ++ (okDrives (drivesPerRun s.par.bus) ++ d) := by
      rw [hd, okDrives, Nat.mul_succ, List.replicate_add, List.append_assoc]
      rfl
    rw [exec_send, send_okRuns (s := s.accept) rfl hbatch hne hr hw hd',
      sendRuns_writeFails later (s := (s.accept.traffic _ _ _ _).setBatch _ _) rfl rfl rfl,
      setBatch_traffic, State.traffic_traffic, levelAfterRuns_concat, Nat.mul_succ,
      ← Nat.add_assoc (s.draws + 1)]
    rfl
  · have hne : s.batch ≠ [] := by simp [hbatch]
    have hd' : s.env.drives = okDrives (drivesPerRun s.par.bus * sent.length) ++ .answer .fail :: d := by
      rw [hd, hbus, drivesPerRun, Nat.one_mul]
    have hdraws : s.draws + 2 + 2 * sent.length = s.draws + 1 + (1 + drivesPerRun s.par.bus) * sent.length + 1 := by
      rw [hbus, drivesPerRun]
      omega
    rw [exec_send, send_okRuns (s := s.accept) rfl hbatch hne hr hw hd',
      sendRuns_selectFails later (s := (s.accept.traffic _ _ _ _).setBatch _ _) rfl hbus rfl,
      setBatch_traffic, State.traffic_traffic, hdraws, ← hbus]
    rfl

/-- Settles O26: SEND's traffic and another batch are all it may write (`send_sent`). -/
theorem sendFrame : Obligations.SendFrame := by
  unfold Obligations.SendFrame
  intro s t h
  obtain rfl := Host.Outcome.next.inj h
  have hsent := send_sent s.accept rfl
  generalize send s.accept = res at hsent
  cases hsent with
  | done st es l e n rs c hl => exact ⟨rfl, hl, fun _ => rfl⟩
  | hung es l e n rs c w hl => exact ⟨rfl, hl, fun _ => rfl⟩

/-- Settles O18 (`send_unusable`). -/
theorem unavailableSendKeepsBatch : Obligations.UnavailableSendKeepsBatch := by
  unfold Obligations.UnavailableSendKeepsBatch
  intro s r hr
  rw [exec_send, send_unusable (s := s.accept) rfl hr]
  rfl

end Sys2Proof.Machine
end

section
/-! PROOFS. The batching law (40_batcher R116): a sequence of appends leaves its maximal same-tag runs, and a SEND that answers
`OK` writes each once. -/

namespace Sys2Proof.Machine

/-! ## Maximal runs -/

/-- Two payloads of one tag in a row are one payload. -/
theorem joinRun_joinRun_same (t : Tag) (bs bs' : List Byte) (rs : List (Tag × List Byte)) :
    joinRun t bs (joinRun t bs' rs) = joinRun t (bs ++ bs') rs := by
  cases rs with
  | nil => simp [joinRun]
  | cons x rs => by_cases ht : t = x.1 <;> simp [joinRun, ht]

/-- A payload of another tag begins a run of its own. -/
theorem joinRun_joinRun_other {t t' : Tag} (ht : t ≠ t') (bs bs' : List Byte) (rs : List (Tag × List Byte)) :
    joinRun t bs (joinRun t' bs' rs) = (t, bs) :: joinRun t' bs' rs := by
  cases rs with
  | nil => simp [joinRun, ht]
  | cons x rs =>
    by_cases ht' : t' = x.1
    · simp [joinRun, ← ht', ht]
    · simp [joinRun, ht, ht']

theorem maximalRuns_cons_nil (t : Tag) (xs : List (Tag × List Byte)) : maximalRuns ((t, []) :: xs) = maximalRuns xs := rfl

theorem maximalRuns_cons {bs : List Byte} (hne : bs ≠ []) (t : Tag) (xs : List (Tag × List Byte)) :
    maximalRuns ((t, bs) :: xs) = joinRun t bs (maximalRuns xs) :=
  if_neg hne

/-! ## Appends that answer `OK` -/

/-- An append that answered `OK` had no bytes, or extended the batch by them (40_batcher R102). -/
theorem exec_appendOp_ok {t : Tag} {bs : List Byte} {s u : State} (h : exec (appendOp t bs) s = .next u)
    (hr : u.responses = s.responses ++ [Status.ok.code]) :
    (bs = [] ∧ u = s.accept.respond .ok) ∨ (bs ≠ [] ∧ u = (extendBatch t bs s.accept).respond .ok) := by
  rw [exec_appendOp] at h
  obtain rfl := Host.Outcome.next.inj h
  obtain ⟨he, hnil⟩ | ⟨he, _⟩ | ⟨he, hne, _⟩ := append_cases t bs s.accept
  · rw [he]
    exact .inl ⟨hnil, rfl⟩
  · rw [he] at hr
    exact absurd hr (by simp [Status.code])
  · rw [he]
    exact .inr ⟨hne, rfl⟩

/-- Appends write nothing but the batch and their answers (40_batcher R103). -/
theorem AppendsAnswerOk.frame {xs : List (Tag × List Byte)} {s t : State} (h : AppendsAnswerOk xs s t) :
    t.par = s.par ∧ t.trace = s.trace := by
  induction xs generalizing s with
  | nil =>
    obtain rfl : s = t := h
    exact ⟨rfl, rfl⟩
  | cons x xs ih =>
    obtain ⟨u, hu, _, hrest⟩ := h
    obtain ⟨rs, c, st, rfl⟩ := exec_batchOperation (.inr ⟨x.1, x.2, .inl rfl⟩) hu
    exact ih (s := (s.accept.setBatch rs c).respond st) hrest

/-- The runs of a block's batch for payloads under their tags (40_batcher R101). -/
def runsOf (p : Params) (xs : List (Tag × List Byte)) : List Run := xs.map fun x => flushRun p x.1 x.2

/-- Appends after an open run: the closed runs stay, and the open one counts as a payload before the others. -/
theorem AppendsAnswerOk.batch_of_open {xs : List (Tag × List Byte)} {s t : State} {tag : Tag} {bs : List Byte}
    (hcur : s.cur = some (flushRun s.par tag bs)) (h : AppendsAnswerOk xs s t) :
    t.batch = s.runs ++ runsOf s.par (joinRun tag bs (maximalRuns xs)) := by
  induction xs generalizing s tag bs with
  | nil =>
    obtain rfl : s = t := h
    rw [State.batch, hcur]
    rfl
  | cons x xs ih =>
    obtain ⟨tag', bs'⟩ := x
    obtain ⟨u, hu, hr, hrest⟩ := h
    obtain ⟨rfl, rfl⟩ | ⟨hne, rfl⟩ := exec_appendOp_ok hu hr
    · rw [maximalRuns_cons_nil]
      exact ih (s := s.accept.respond .ok) hcur hrest
    · rw [maximalRuns_cons hne]
      by_cases ht : tag = tag'
      · subst ht
        rw [extendBatch_same (t := tag) (s := s.accept) hcur rfl] at hrest
        rw [joinRun_joinRun_same]
        refine ih (s := (s.accept.setBatch _ _).respond .ok) ?_ hrest
        simp [flushRun, frameBytes]
      · rw [extendBatch_other (s := s.accept) hcur ht] at hrest
        rw [joinRun_joinRun_other ht, ih (s := (s.accept.setBatch _ _).respond .ok) rfl hrest]
        exact List.append_assoc _ _ _

/-- Appends to an empty batch leave the maximal runs of their payloads. -/
theorem AppendsAnswerOk.batch_of_empty {xs : List (Tag × List Byte)} {s t : State} (hruns : s.runs = [])
    (hcur : s.cur = none) (h : AppendsAnswerOk xs s t) : t.batch = runsOf s.par (maximalRuns xs) := by
  induction xs generalizing s with
  | nil =>
    obtain rfl : s = t := h
    rw [State.batch, hruns, hcur]
    rfl
  | cons x xs ih =>
    obtain ⟨tag, bs⟩ := x
    obtain ⟨u, hu, hr, hrest⟩ := h
    obtain ⟨rfl, rfl⟩ | ⟨hne, rfl⟩ := exec_appendOp_ok hu hr
    · rw [maximalRuns_cons_nil]
      exact ih (s := s.accept.respond .ok) hruns hcur hrest
    · rw [extendBatch_none (s := s.accept) hcur] at hrest
      rw [maximalRuns_cons hne, AppendsAnswerOk.batch_of_open (s := (s.accept.setBatch _ _).respond .ok) rfl hrest]
      show s.runs ++ _ = _
      rw [hruns]
      rfl

/-! ## A SEND that answers `OK` -/

/-- A SEND answers `OK` only after its query and every run's events (40_batcher R110). -/
theorem SendEnds.trace_ok {s u : State} (h : SendEnds s (.done .ok u)) :
    u.trace = s.trace ++ .busReady true :: s.batch.flatMap (fun x => runEvents s.par.bus x .ok) := by
  cases h with
  | loop e n _ _ hr =>
    cases hr with
    | sent e' n' => simp

/-- Settles O23: the batch is the maximal runs (`AppendsAnswerOk.batch_of_empty`), and SEND's events are theirs. -/
theorem appendsBecomeMaximalRuns : Obligations.AppendsBecomeMaximalRuns := by
  unfold Obligations.AppendsBecomeMaximalRuns
  intro xs s t hruns hcur h
  have hbatch := h.batch_of_empty hruns hcur
  obtain ⟨hpar, htrace⟩ := h.frame
  refine ⟨hbatch, fun u hu hr => ?_⟩
  obtain ⟨v, hv, rfl⟩ := sendEnds_of_responses (st := .ok) hu hr
  have hevents : v.trace = t.trace ++ .busReady true :: t.batch.flatMap (fun x => runEvents t.par.bus x .ok) := hv.trace_ok
  rw [State.respond_trace, hevents, htrace, hpar, hbatch, runsOf, List.flatMap_map]
  rfl

end Sys2Proof.Machine
end

section
/-! PROOFS. Two runs side by side: what the batcher operations do does not depend on the device state (40_batcher R108), and
what INIT, DISPLAY and CLEAR do does not depend on the host's pending bytes (R118, 70_reset R215). -/

namespace Sys2Proof.Machine

/-! ## Runs that related states make alike -/

/-- A relation that no transport call sees: related states draw the same answers, and what a call does keeps them related. -/
structure Unseen (R : State → State → Prop) : Prop where
  par : ∀ {s s'}, R s s' → s'.par = s.par
  env : ∀ {s s'}, R s s' → s'.env = s.env
  draws : ∀ {s s'}, R s s' → s'.draws = s.draws
  drawn : ∀ {s s'}, R s s' → ∀ e, R (s.drawn e) (s'.drawn e)
  emit : ∀ {s s'}, R s s' → ∀ e, R (s.emit e) (s'.emit e)
  hang : ∀ {s s'}, R s s' → ∀ c, R (s.hang c) (s'.hang c)
  setDc : ∀ {s s'}, R s s' → ∀ l, R (s.setDc l) (s'.setDc l)
  setRst : ∀ {s s'}, R s s' → ∀ l, R (s.setRst l) (s'.setRst l)
  respond : ∀ {s s'}, R s s' → ∀ st, R (s.respond st) (s'.respond st)

/-- Two procedures end with one result, or are both held, in related states. -/
inductive Res.Alike {α : Type} (R : State → State → Prop) : Res α → Res α → Prop
  | done {a : α} {s s' : State} (h : R s s') : Res.Alike R (.done a s) (.done a s')
  | hung {s s' : State} (h : R s s') : Res.Alike R (.hung s) (.hung s')

section
variable {R : State → State → Prop} {s s' : State}

/-- What follows two alike procedures is alike if it is so from related states. -/
theorem Res.Alike.andThen {α β : Type} {r r' : Res α} {k k' : α → State → Res β} (h : Res.Alike R r r')
    (hk : ∀ a {u u'}, R u u' → Res.Alike R (k a u) (k' a u')) : Res.Alike R (r.andThen k) (r'.andThen k') := by
  cases h with
  | done h => exact hk _ h
  | hung h => exact .hung h

theorem Res.Alike.refl (hrefl : ∀ s, R s s) (r : Res Status) : Res.Alike R r r := by
  cases r with
  | done st s => exact .done (hrefl s)
  | hung s => exact .hung (hrefl s)

variable (hR : Unseen R)
include hR

theorem Res.Alike.conclude {r r' : Res Status} (h : Res.Alike R r r') : R (conclude r) (conclude r') := by
  cases h with
  | done h => exact hR.respond h _
  | hung h => exact h

theorem Unseen.drawReady (h : R s s') : ∃ a e, drawReady s = (a, s.drawn e) ∧ drawReady s' = (a, s'.drawn e) := by
  unfold Machine.drawReady
  rw [hR.env h, hR.draws h]
  split <;> exact ⟨_, _, rfl, rfl⟩

theorem Unseen.drawWrite (h : R s s') : ∃ a e, drawWrite s = (a, s.drawn e) ∧ drawWrite s' = (a, s'.drawn e) := by
  unfold Machine.drawWrite
  rw [hR.env h, hR.draws h]
  split <;> exact ⟨_, _, rfl, rfl⟩

theorem Unseen.drawDrive (h : R s s') : ∃ a e, drawDrive s = (a, s.drawn e) ∧ drawDrive s' = (a, s'.drawn e) := by
  unfold Machine.drawDrive
  rw [hR.env h, hR.draws h]
  split <;> exact ⟨_, _, rfl, rfl⟩

theorem Unseen.drawSnapshot (h : R s s') :
    ∃ x e, drawSnapshot s = (x, s.drawn e) ∧ drawSnapshot s' = (x, s'.drawn e) := by
  unfold Machine.drawSnapshot
  rw [hR.env h, hR.draws h]
  split <;> exact ⟨_, _, rfl, rfl⟩

theorem Unseen.busReady (h : R s s') : Res.Alike R (busReady s) (busReady s') := by
  obtain ⟨a, e, hs, hs'⟩ := hR.drawReady h
  unfold Machine.busReady
  rw [hs, hs']
  cases a with
  | answer b => exact .done (hR.emit (hR.drawn h e) _)
  | never => exact .hung (hR.hang (hR.drawn h e) _)

theorem Unseen.busWrite (h : R s s') (bytes : List Byte) : Res.Alike R (busWrite bytes s) (busWrite bytes s') := by
  obtain ⟨a, e, hs, hs'⟩ := hR.drawWrite h
  unfold Machine.busWrite
  rw [hs, hs']
  cases a with
  | answer a => exact .done (hR.emit (hR.drawn h e) _)
  | never => exact .hung (hR.hang (hR.drawn h e) _)

theorem Unseen.selectLine (h : R s s') (t : Tag) : Res.Alike R (selectLine t s) (selectLine t s') := by
  obtain ⟨a, e, hs, hs'⟩ := hR.drawDrive h
  unfold Machine.selectLine
  rw [hs, hs']
  cases a with
  | answer a => exact .done (hR.emit (hR.setDc (hR.drawn h e) _) _)
  | never => exact .hung (hR.hang (hR.drawn h e) _)

theorem Unseen.assertReset (h : R s s') : Res.Alike R (assertReset s) (assertReset s') := by
  obtain ⟨a, e, hs, hs'⟩ := hR.drawDrive h
  unfold Machine.assertReset
  rw [hs, hs']
  obtain (_ | _) | _ := a
  · exact .done (hR.emit (hR.setRst (hR.drawn h e) _) _)
  · exact .done (hR.emit (hR.setRst (hR.drawn h e) _) _)
  · exact .hung (hR.hang (hR.drawn h e) _)

theorem Unseen.releaseReset (h : R s s') : Res.Alike R (releaseReset s) (releaseReset s') := by
  obtain ⟨a, e, hs, hs'⟩ := hR.drawDrive h
  unfold Machine.releaseReset
  rw [hs, hs']
  obtain (_ | _) | _ := a
  · exact .done (hR.emit (hR.setRst (hR.drawn h e) _) _)
  · exact .done (hR.emit (hR.setRst (hR.drawn h e) _) _)
  · exact .hung (hR.hang (hR.drawn h e) _)

theorem Unseen.getPixels (h : R s s') : ∃ x u u', getPixels s = (x, u) ∧ getPixels s' = (x, u') ∧ R u u' := by
  obtain ⟨x, e, hs, hs'⟩ := hR.drawSnapshot h
  unfold Machine.getPixels
  rw [hs, hs']
  exact ⟨x, _, _, rfl, rfl, hR.emit (hR.drawn h e) _⟩

theorem Unseen.driveFor (h : R s s') (t : Tag) : Res.Alike R (driveFor t s) (driveFor t s') := by
  unfold Machine.driveFor
  rw [hR.par h]
  cases s.par.bus with
  | i2c => exact .done h
  | spi => exact hR.selectLine h t

theorem Unseen.usabilityCheck (h : R s s') : Res.Alike R (usabilityCheck s) (usabilityCheck s') :=
  (hR.busReady h).andThen fun _ _ _ hu => .done hu

theorem Unseen.resetPulse (h : R s s') : Res.Alike R (resetPulse s) (resetPulse s') := by
  unfold Machine.resetPulse
  rw [hR.par h]
  split
  · exact .done h
  · refine (hR.assertReset h).andThen fun a u u' hu => ?_
    cases a with
    | fail => exact .done hu
    | ok =>
      rw [hR.par hu]
      refine (hR.releaseReset (hR.emit hu _)).andThen fun a v v' hv => ?_
      cases a with
      | fail => exact .done hv
      | ok => exact .done hv

end

/-! ## The batcher in another device state (40_batcher R108) -/

/-- The same state but for the device state, and for what the samples show (log 6). -/
def SameButDev (d : DeviceState) (s s' : State) : Prop := ∃ x, s' = { s with dev := d, samples := x }

theorem unseen_sameButDev (d : DeviceState) : Unseen (SameButDev d) where
  par := by rintro _ _ ⟨x, rfl⟩; rfl
  env := by rintro _ _ ⟨x, rfl⟩; rfl
  draws := by rintro _ _ ⟨x, rfl⟩; rfl
  drawn := by rintro _ _ ⟨x, rfl⟩ e; exact ⟨x, rfl⟩
  emit := by rintro _ _ ⟨x, rfl⟩ e; exact ⟨_, rfl⟩
  hang := by rintro _ _ ⟨x, rfl⟩ c; exact ⟨x, rfl⟩
  setDc := by rintro _ _ ⟨x, rfl⟩ l; exact ⟨x, rfl⟩
  setRst := by rintro _ _ ⟨x, rfl⟩ l; exact ⟨x, rfl⟩
  respond := by rintro _ _ ⟨x, rfl⟩ st; exact ⟨x, rfl⟩

section
variable {d : DeviceState} {s s' : State}

theorem SameButDev.setBatch (h : SameButDev d s s') (rs : List Run) (c : Option Run) :
    SameButDev d (s.setBatch rs c) (s'.setBatch rs c) := by
  obtain ⟨x, rfl⟩ := h
  exact ⟨x, rfl⟩

theorem SameButDev.sendRuns (h : SameButDev d s s') (rs : List Run) :
    Res.Alike (SameButDev d) (sendRuns rs s) (sendRuns rs s') := by
  have hR := unseen_sameButDev d
  induction rs generalizing s s' with
  | nil => exact .done (h.setBatch [] none)
  | cons r rs ih =>
    refine (hR.driveFor h r.tag).andThen fun a u u' hu => ?_
    cases a with
    | fail => exact .done (hu.setBatch [] none)
    | ok =>
      refine (hR.busWrite hu r.bytes).andThen fun a v v' hv => ?_
      cases a with
      | fail k => exact .done (hv.setBatch [] none)
      | ok => exact ih hv

theorem SameButDev.send (h : SameButDev d s s') : Res.Alike (SameButDev d) (send s) (send s') := by
  refine ((unseen_sameButDev d).busReady h).andThen fun usable u u' hu => ?_
  obtain ⟨x, rfl⟩ := hu
  have hpending : ({ u with dev := d, samples := x } : State).pending = u.pending := rfl
  have hfinal : SameButDev d (finalize u) (finalize { u with dev := d, samples := x }) := by
    rw [finalize_eq, finalize_eq]
    exact ⟨x, rfl⟩
  have hruns : (finalize { u with dev := d, samples := x }).runs = (finalize u).runs := by
    obtain ⟨y, hy⟩ := hfinal
    rw [hy]
  rw [hpending, hruns]
  split
  · exact .done ⟨x, rfl⟩
  · split
    · exact .done ⟨x, rfl⟩
    · exact hfinal.sendRuns _

theorem SameButDev.extendBatch (h : SameButDev d s s') (t : Tag) (bs : List Byte) :
    SameButDev d (extendBatch t bs s) (extendBatch t bs s') := by
  obtain ⟨x, rfl⟩ := h
  unfold Machine.extendBatch
  cases s.cur with
  | none => exact ⟨x, rfl⟩
  | some r =>
    dsimp only
    split
    · exact ⟨x, rfl⟩
    · exact ⟨x, rfl⟩

theorem SameButDev.append (h : SameButDev d s s') (t : Tag) (bs : List Byte) :
    Res.Alike (SameButDev d) (.done (append t bs s).1 (append t bs s).2) (.done (append t bs s').1 (append t bs s').2) := by
  have hsame : exceedsCap s'.par (s'.pendingBytes + addedBytes t bs s')
      = exceedsCap s.par (s.pendingBytes + addedBytes t bs s) := by
    obtain ⟨x, rfl⟩ := h
    rfl
  unfold Machine.append
  rw [hsame]
  split
  · exact .done h
  · split
    · exact .done h
    · exact .done (h.extendBatch t bs)

theorem SameButDev.setBatchTo (h : SameButDev d s s') (t : Tag) (bs : List Byte) :
    Res.Alike (SameButDev d) (.done (setBatchTo t bs s).1 (setBatchTo t bs s).2)
      (.done (setBatchTo t bs s').1 (setBatchTo t bs s').2) := by
  unfold Machine.setBatchTo
  rw [(unseen_sameButDev d).par h]
  split
  · exact .done h
  · exact (h.setBatch [] none).append t bs

end

/-- Settles O24: from states that differ in the device state each batcher operation ends alike, and none writes it. -/
theorem batcherIgnoresDeviceState : Obligations.BatcherIgnoresDeviceState := by
  unfold Obligations.BatcherIgnoresDeviceState
  intro i s t d hi h
  have hdev : t.dev = s.dev := by
    refine (exec_dev h).resolve_right fun ⟨hinit, _⟩ => ?_
    subst hinit
    obtain hi | hi | ⟨_ | _, bs, hi | hi⟩ := hi <;> cases hi
  have hR := unseen_sameButDev d
  have haccept : SameButDev d s.accept ({ s with dev := d } : State).accept := ⟨s.samples, rfl⟩
  refine ⟨hdev, ?_⟩
  obtain rfl | rfl | ⟨tag, bs, rfl | rfl⟩ := hi
  · obtain rfl := Host.Outcome.next.inj h
    obtain ⟨x, hx⟩ := haccept.send.conclude hR
    exact ⟨x, congrArg _ hx⟩
  · obtain rfl := Host.Outcome.next.inj h
    exact ⟨s.samples, rfl⟩
  · rw [exec_appendOp] at h ⊢
    obtain rfl := Host.Outcome.next.inj h
    obtain ⟨x, hx⟩ := (haccept.append tag bs).conclude hR
    exact ⟨x, congrArg _ hx⟩
  · rw [exec_setOp] at h ⊢
    obtain rfl := Host.Outcome.next.inj h
    obtain ⟨x, hx⟩ := (haccept.setBatchTo tag bs).conclude hR
    exact ⟨x, congrArg _ hx⟩

/-! ## The device operations with another batch pending (40_batcher R118) -/

/-- The same state but for the batch. -/
def SameButBatch (s s' : State) : Prop := ∃ rs c, s' = s.setBatch rs c

theorem SameButBatch.refl (s : State) : SameButBatch s s := ⟨s.runs, s.cur, (setBatch_self s).symm⟩

theorem unseen_sameButBatch : Unseen SameButBatch where
  par := by rintro _ _ ⟨rs, c, rfl⟩; rfl
  env := by rintro _ _ ⟨rs, c, rfl⟩; rfl
  draws := by rintro _ _ ⟨rs, c, rfl⟩; rfl
  drawn := by rintro _ _ ⟨rs, c, rfl⟩ e; exact ⟨rs, c, rfl⟩
  emit := by rintro _ _ ⟨rs, c, rfl⟩ e; exact ⟨rs, c, rfl⟩
  hang := by rintro _ _ ⟨rs, c, rfl⟩ w; exact ⟨rs, c, rfl⟩
  setDc := by rintro _ _ ⟨rs, c, rfl⟩ l; exact ⟨rs, c, rfl⟩
  setRst := by rintro _ _ ⟨rs, c, rfl⟩ l; exact ⟨rs, c, rfl⟩
  respond := by rintro _ _ ⟨rs, c, rfl⟩ st; exact ⟨rs, c, rfl⟩

section
variable {s s' : State}

theorem SameButBatch.cfg (h : SameButBatch s s') : s'.cfg = s.cfg := by
  obtain ⟨rs, c, rfl⟩ := h
  rfl

theorem SameButBatch.dev (h : SameButBatch s s') : s'.dev = s.dev := by
  obtain ⟨rs, c, rfl⟩ := h
  rfl

theorem SameButBatch.bufBytes (h : SameButBatch s s') : s'.bufBytes = s.bufBytes := by
  obtain ⟨rs, c, rfl⟩ := h
  rfl

theorem SameButBatch.setDev (h : SameButBatch s s') (d : DeviceState) : SameButBatch (s.setDev d) (s'.setDev d) := by
  obtain ⟨rs, c, rfl⟩ := h
  exact ⟨rs, c, rfl⟩

theorem SameButBatch.setBuf (h : SameButBatch s s') (bs : List Byte) : SameButBatch (s.setBuf bs) (s'.setBuf bs) := by
  obtain ⟨rs, c, rfl⟩ := h
  exact ⟨rs, c, rfl⟩

/-- A flush empties the batch first, so from there on the two runs are one (40_batcher R118). -/
theorem SameButBatch.flush_eq (h : SameButBatch s s') (t : Tag) (bs : List Byte) : flush t bs s' = flush t bs s := by
  obtain ⟨rs, c, rfl⟩ := h
  rfl

theorem SameButBatch.flush (h : SameButBatch s s') (t : Tag) (bs : List Byte) :
    Res.Alike SameButBatch (flush t bs s) (flush t bs s') := by
  rw [h.flush_eq]
  exact .refl .refl _

/-- One stage of INIT's chain. -/
theorem Res.Alike.orAbort {r r' : Res Status} {k k' : State → Res Status} (h : Res.Alike SameButBatch r r')
    (hk : ∀ {u u'}, SameButBatch u u' → Res.Alike SameButBatch (k u) (k' u')) :
    Res.Alike SameButBatch (r.orAbort k) (r'.orAbort k') := by
  refine h.andThen fun st u u' hu => ?_
  split
  · exact hk hu
  · exact .done (hu.setDev .aborted)

theorem SameButBatch.initSequence (h : SameButBatch s s') :
    Res.Alike SameButBatch (initSequence s) (initSequence s') := by
  have hR := unseen_sameButBatch
  unfold Machine.initSequence
  rw [h.dev]
  split
  · exact .done h
  · refine (hR.usabilityCheck (h.setDev .initializing)).orAbort fun hu => ?_
    refine (hR.resetPulse hu).orAbort fun hv => ?_
    rw [hR.par hv, hv.cfg]
    refine ((SameButBatch.flush (hR.emit hv _)) .cmd _).orAbort fun hw => ?_
    rw [hR.par hw, (hw.setBuf _).bufBytes]
    refine ((hw.setBuf _).flush .data _).orAbort fun hx => ?_
    rw [hR.par hx]
    exact .done (SameButBatch.setDev (hR.emit hx _) .ready)

theorem SameButBatch.displaySurface (h : SameButBatch s s') :
    Res.Alike SameButBatch (displaySurface s) (displaySurface s') := by
  have hR := unseen_sameButBatch
  obtain ⟨x, u, u', hs, hs', hu⟩ := hR.getPixels h
  unfold Machine.displaySurface
  rw [h.dev, hR.par h, hs, hs']
  split
  · exact .done h
  · split
    · exact .done hu
    · dsimp only
      rw [(hu.setBuf _).bufBytes]
      exact (hu.setBuf _).flush .data _

theorem SameButBatch.clearSurface (h : SameButBatch s s') :
    Res.Alike SameButBatch (clearSurface s) (clearSurface s') := by
  have hR := unseen_sameButBatch
  unfold Machine.clearSurface
  rw [h.dev, hR.par h]
  split
  · exact .done h
  · have hclear : SameButBatch (surfaceClear (s.setBuf (zeros s.par.bufLen)))
        (surfaceClear (s'.setBuf (zeros s.par.bufLen))) := hR.emit (h.setBuf _) _
    dsimp only
    rw [hclear.bufBytes]
    exact hclear.flush .data _

end

/-- Settles O37: from states that differ in the batch each device operation ends alike, as its flushes empty it first. -/
theorem pendingHostBytesAreNeverSent : Obligations.PendingHostBytesAreNeverSent := by
  unfold Obligations.PendingHostBytesAreNeverSent
  intro i s t rs c hi h
  have haccept : SameButBatch s.accept ({ s with runs := rs, cur := c } : State).accept := ⟨rs, c, rfl⟩
  have hR := unseen_sameButBatch
  obtain rfl | rfl | rfl := hi <;> obtain rfl := Host.Outcome.next.inj h
  · obtain ⟨rs', c', ht⟩ := haccept.initSequence.conclude hR
    exact ⟨rs', c', congrArg _ ht⟩
  · obtain ⟨rs', c', ht⟩ := haccept.displaySurface.conclude hR
    exact ⟨rs', c', congrArg _ ht⟩
  · obtain ⟨rs', c', ht⟩ := haccept.clearSurface.conclude hR
    exact ⟨rs', c', congrArg _ ht⟩

end Sys2Proof.Machine
end

section
/-! PROOFS. INIT stage by stage (41_device R131 to R146): the state in which each stage of R131's pseudocode begins, each
stage's end under answers that the environment fixes, and the exact next states that follow. -/

namespace Sys2Proof.Machine

/-! ## One stage of INIT's chain (41_device R130) -/

theorem orAbort_of_ok {r : Res Status} {s : State} (h : r = .done .ok s) (k : State → Res Status) :
    r.orAbort k = k s := by
  rw [h, orAbort_ok]

theorem orAbort_of_failure {r : Res Status} {s : State} {st : Status} (h : r = .done st s) (hst : st ≠ .ok)
    (k : State → Res Status) : r.orAbort k = .done st (s.setDev .aborted) := by
  rw [h, orAbort_failed (by simp [hst]), Res.failed, abortInit]

/-! ## The stages of INIT's pseudocode (41_device R131) -/

theorem exec_init (s : State) : exec .init s = .next (conclude (initSequence s.accept)) := rfl

/-- INIT once its image was sent: the settle wait, and Ready. -/
def settle (s : State) : Res Status := .done .ok ((delay .settle s.par.tSettle s).setDev .ready)

/-- INIT once the image is in the buffer: it is sent. -/
def sendImage (s : State) : Res Status := (flush .data (initialImage s.par) s).orAbort settle

/-- INIT once the post-reset wait is over: the burst, then the image. -/
def sendBurst (s : State) : Res Status :=
  (flush .cmd (burst s.par s.cfg) s).orAbort fun s => sendImage (s.setBuf (initialImage s.par))

/-- The state in which INIT begins its reset pulse: the transport is usable. -/
def pulsePoint (s : State) (e : Env) (n : Nat) : State := (s.setDev .initializing).traffic [.busReady true] s.dc e n

/-- The image that INIT sends is the one it wrote to the buffer (41_device R142). -/
theorem flush_written_image :
    (fun s : State => (flush .data (s.setBuf (initialImage s.par)).bufBytes (s.setBuf (initialImage s.par))).orAbort
      settle) = fun s => sendImage (s.setBuf (initialImage s.par)) := by
  funext s
  rw [bufBytes_setBuf (initialImage_length s.par)]
  rfl

/-- After the pulse and the wait INIT is where it sends its burst (41_device R132, R133). -/
theorem wait_eq_burstPoint {s : State} (hb : s.busy = true) (e e' : Env) (n n' : Nat) :
    delay .rstWait s.par.tRstWait
      (((pulsePoint s e n).setRst (levelAfterPulse s.par s.rst)).traffic (pulseEvents s.par) s.dc e' n')
      = burstPoint s e' n' := by
  rw [delay, State.emit_eq_traffic _ _ (by exact hb), State.traffic_traffic]
  exact State.traffic_traffic ((s.setDev .initializing).setRst (levelAfterPulse s.par s.rst)) [.busReady true]
    (pulseEvents s.par ++ [.delay .rstWait s.par.tRstWait]) s.dc s.dc e e' n n'

section
variable (s : State) (rs : List Run) (c : Option Run) (es : List Event) (l : SelectLevel) (e e' : Env) (n n' : Nat)

theorem setRst_traffic (level : ResetLevel) :
    (s.traffic es l e n).setRst level = (s.setRst level).traffic es l e n := rfl

theorem burstPoint_traffic : ((burstPoint s e n).setBatch rs c).traffic es l e' n'
    = (((s.setDev .initializing).setRst (levelAfterPulse s.par s.rst)).setBatch rs c).traffic (bootEvents s.par ++ es)
        l e' n' :=
  State.traffic_traffic (((s.setDev .initializing).setRst (levelAfterPulse s.par s.rst)).setBatch rs c) _ _ s.dc _ e _ n _

theorem imagePoint_traffic : ((imagePoint s e n).setBatch rs c).traffic es l e' n'
    = ((((s.setDev .initializing).setRst (levelAfterPulse s.par s.rst)).setBatch rs c).setBuf
        (initialImage s.par)).traffic
        (bootEvents s.par ++ .busReady true :: runEvents s.par.bus (flushRun s.par .cmd (burst s.par s.cfg)) .ok ++ es)
        l e' n' :=
  State.traffic_traffic ((((s.setDev .initializing).setRst (levelAfterPulse s.par s.rst)).setBatch rs c).setBuf
    (initialImage s.par)) _ _ (levelAfterRuns s.par.bus [flushRun s.par .cmd (burst s.par s.cfg)] s.dc) _ e _ n _

end

/-- The select line's level after a device operation's run was sent (10_state R40). -/
theorem levelAfterRuns_flushRun (p : Params) (t : Tag) (bs : List Byte) (l : SelectLevel) :
    levelAfterRuns p.bus [flushRun p t bs] l = if p.bus = .spi then tagLevel t else l := by
  cases p.bus <;> rfl

/-- The level after the burst's and the image's run: the image's (41_device R131). -/
theorem levelAfterImage (p : Params) (bs bs' : List Byte) (l : SelectLevel) :
    levelAfterRuns p.bus [flushRun p .data bs'] (levelAfterRuns p.bus [flushRun p .cmd bs] l)
      = if p.bus = .spi then .high else l := by
  cases p.bus <;> rfl

/-! ## The check and the pulse under answers that the environment fixes -/

section
variable {s : State} {r : List (Reply Bool)} {d : List (Reply DriveAnswer)}

/-- Outside Unknown INIT is refused (41_device R138). -/
theorem initSequence_refused (hd : s.dev ≠ .unknown) : initSequence s = .done .errState s := if_pos hd

theorem initSequence_unusable (hb : s.busy = true) (hd : s.dev = .unknown) (hr : s.env.ready = .answer false :: r) :
    initSequence s = .done .errUnavailable (((s.setDev .initializing).traffic [.busReady false] s.dc
      { s.env with ready := r } (s.draws + 1)).setDev .aborted) := by
  rw [initSequence, if_neg (by simp [hd]), usabilityCheck, busReady_answer (s := s.setDev .initializing) hr,
    State.drawn_emit (s.setDev .initializing) _ _ hb]
  rfl

theorem initSequence_of_check (hd : s.dev = .unknown) {e : Env} {n : Nat}
    (h : busReady (s.setDev .initializing) = .done true (pulsePoint s e n)) :
    initSequence s = (resetPulse (pulsePoint s e n)).orAbort fun s => sendBurst (delay .rstWait s.par.tRstWait s) := by
  rw [initSequence, if_neg (by simp [hd]), usabilityCheck, h, Res.andThen_done, if_pos rfl, orAbort_ok]
  unfold sendBurst
  rw [← flush_written_image]
  rfl

theorem initSequence_usable (hb : s.busy = true) (hd : s.dev = .unknown) (hr : s.env.ready = .answer true :: r) :
    initSequence s = (resetPulse (pulsePoint s { s.env with ready := r } (s.draws + 1))).orAbort
      fun s => sendBurst (delay .rstWait s.par.tRstWait s) :=
  initSequence_of_check hd (by
    rw [busReady_answer (s := s.setDev .initializing) hr, State.drawn_emit (s.setDev .initializing) _ _ hb]
    rfl)

theorem resetPulse_assertFails (hb : s.busy = true) (hl : s.par.hasResetLine = true)
    (hd : s.env.drives = .answer .fail :: d) :
    resetPulse s = .done .errIo ((s.setRst .unknown).traffic [.assertReset .fail] s.dc { s.env with drives := d }
      (s.draws + 1)) := by
  rw [resetPulse, if_neg (by simp [hl]), assertReset_answer hd, State.emit_eq_traffic _ _ (by exact hb)]
  rfl

theorem resetPulse_releaseFails (hb : s.busy = true) (hl : s.par.hasResetLine = true)
    (hd : s.env.drives = .answer .ok :: .answer .fail :: d) :
    resetPulse s = .done .errIo ((s.setRst .unknown).traffic
      [.assertReset .ok, .delay .rstLow s.par.tRstLow, .releaseReset .fail] s.dc { s.env with drives := d }
      (s.draws + 2)) := by
  rw [resetPulse, if_neg (by simp [hl]), assertReset_answer hd]
  simp only [Res.andThen_done, delay]
  rw [releaseReset_answer (s := State.emit _ _) (d := d) rfl]
  simp [State.emit, State.drawn, State.setRst, State.traffic, State.logged, hb, List.replicate_succ]

/-- With a completed pulse and wait INIT sends its burst. -/
theorem initSequence_pulsed (hb : s.busy = true) (hd : s.dev = .unknown) (hr : s.env.ready = .answer true :: r)
    (hp : s.env.drives = okDrives (pulseDrives s.par) ++ d) :
    initSequence s
      = sendBurst (burstPoint s { s.env with ready := r, drives := d } (s.draws + 1 + pulseDrives s.par)) := by
  have hpulse := resetPulse_answered_ok (s := pulsePoint s { s.env with ready := r } (s.draws + 1)) hb hp
  rw [initSequence_usable hb hd hr, orAbort_of_ok hpulse]
  exact congrArg sendBurst (wait_eq_burstPoint hb _ _ _ _)

end

/-! ## The burst's and the image's flush under answers that the environment fixes -/

section
variable {s : State} (hl : s.par.Legal s.cfg) (hb : s.busy = true) {e : Env} {n : Nat}
  {r : List (Reply Bool)} {w : List (Reply WriteAnswer)} {d : List (Reply DriveAnswer)}
include hl hb

theorem sendBurst_unavailable (hr : e.ready = .answer false :: r) :
    sendBurst (burstPoint s e n) = .done .errUnavailable
      (((((s.setDev .initializing).setRst (levelAfterPulse s.par s.rst)).setBatch []
        (some (flushRun s.par .cmd (burst s.par s.cfg)))).traffic (bootEvents s.par ++ [.busReady false]) s.dc
        { e with ready := r } (n + 1)).setDev .aborted) := by
  have hflush := flush_answered_unavailable (s := burstPoint s e n) (t := .cmd) hl hb (.inl rfl) hr
  rw [sendBurst, orAbort_of_failure hflush (by decide), burstPoint_traffic]
  rfl

theorem sendBurst_writeFails {k : Nat} (hr : e.ready = .answer true :: r) (hw : e.writes = .answer (.fail k) :: w)
    (hd : e.drives = okDrives (drivesPerRun s.par.bus) ++ d) :
    sendBurst (burstPoint s e n) = .done .errIo
      (((((s.setDev .initializing).setRst (levelAfterPulse s.par s.rst)).setBatch [] none).traffic (bootEvents s.par
          ++ .busReady true :: runEvents s.par.bus (flushRun s.par .cmd (burst s.par s.cfg))
            (.fail (min k (frameBytes s.par.bus .cmd (burst s.par s.cfg)).length)))
        (if s.par.bus = .spi then .low else s.dc) { e with ready := r, writes := w, drives := d }
        (n + 2 + drivesPerRun s.par.bus)).setDev .aborted) := by
  have hflush := flush_answered_fail (s := burstPoint s e n) (t := .cmd) hl hb (.inl rfl) hr hw hd
  rw [sendBurst, orAbort_of_failure hflush (by decide), burstPoint_traffic, levelAfterRuns_flushRun]
  rfl

theorem sendBurst_selectFails (hbus : s.par.bus = .spi) (hr : e.ready = .answer true :: r)
    (hd : e.drives = .answer .fail :: d) :
    sendBurst (burstPoint s e n) = .done .errIo
      (((((s.setDev .initializing).setRst (levelAfterPulse s.par s.rst)).setBatch [] none).traffic
        (bootEvents s.par ++ [.busReady true, .selectCmd .fail]) .unknown { e with ready := r, drives := d }
        (n + 2)).setDev .aborted) := by
  have hflush := flush_answered_selectFail (s := burstPoint s e n) (t := .cmd) hl hb (.inl rfl) hbus hr hd
  rw [sendBurst, orAbort_of_failure hflush (by decide), burstPoint_traffic]
  rfl

/-- With its burst sent INIT sends the initial image. -/
theorem sendBurst_sent (hr : e.ready = .answer true :: r) (hw : e.writes = .answer .ok :: w)
    (hd : e.drives = okDrives (drivesPerRun s.par.bus) ++ d) :
    sendBurst (burstPoint s e n) = sendImage
      (imagePoint s { e with ready := r, writes := w, drives := d } (n + 2 + drivesPerRun s.par.bus)) := by
  have hflush := flush_answered_ok (s := burstPoint s e n) (t := .cmd) hl hb (.inl rfl) hr hw hd
  rw [sendBurst, orAbort_of_ok hflush, burstPoint_traffic]
  rfl

theorem sendImage_unavailable (hr : e.ready = .answer false :: r) :
    sendImage (imagePoint s e n) = .done .errUnavailable
      ((((((s.setDev .initializing).setRst (levelAfterPulse s.par s.rst)).setBatch []
        (some (flushRun s.par .data (initialImage s.par)))).setBuf (initialImage s.par)).traffic (bootEvents s.par
          ++ .busReady true :: runEvents s.par.bus (flushRun s.par .cmd (burst s.par s.cfg)) .ok ++ [.busReady false])
        (if s.par.bus = .spi then .low else s.dc) { e with ready := r } (n + 1)).setDev .aborted) := by
  have hflush := flush_answered_unavailable (s := imagePoint s e n) (t := .data) hl hb
    (.inr (initialImage_length s.par)) hr
  rw [sendImage, imagePoint_par, orAbort_of_failure hflush (by decide), imagePoint_traffic, imagePoint_dc,
    levelAfterRuns_flushRun]
  rfl

theorem sendImage_writeFails {k : Nat} (hr : e.ready = .answer true :: r) (hw : e.writes = .answer (.fail k) :: w)
    (hd : e.drives = okDrives (drivesPerRun s.par.bus) ++ d) :
    sendImage (imagePoint s e n) = .done .errIo
      ((((((s.setDev .initializing).setRst (levelAfterPulse s.par s.rst)).setBatch [] none).setBuf
        (initialImage s.par)).traffic (bootEvents s.par
          ++ .busReady true :: runEvents s.par.bus (flushRun s.par .cmd (burst s.par s.cfg)) .ok
          ++ .busReady true :: runEvents s.par.bus (flushRun s.par .data (initialImage s.par))
            (.fail (min k (frameBytes s.par.bus .data (initialImage s.par)).length)))
        (if s.par.bus = .spi then .high else s.dc) { e with ready := r, writes := w, drives := d }
        (n + 2 + drivesPerRun s.par.bus)).setDev .aborted) := by
  have hflush := flush_answered_fail (s := imagePoint s e n) (t := .data) hl hb (.inr (initialImage_length s.par)) hr hw hd
  rw [sendImage, imagePoint_par, orAbort_of_failure hflush (by decide), imagePoint_traffic, imagePoint_dc, imagePoint_par,
    levelAfterImage]
  rfl

theorem sendImage_selectFails (hbus : s.par.bus = .spi) (hr : e.ready = .answer true :: r)
    (hd : e.drives = .answer .fail :: d) :
    sendImage (imagePoint s e n) = .done .errIo
      ((((((s.setDev .initializing).setRst (levelAfterPulse s.par s.rst)).setBatch [] none).setBuf
        (initialImage s.par)).traffic (bootEvents s.par
          ++ .busReady true :: runEvents s.par.bus (flushRun s.par .cmd (burst s.par s.cfg)) .ok
          ++ [.busReady true, .selectData .fail])
        .unknown { e with ready := r, drives := d } (n + 2)).setDev .aborted) := by
  have hflush := flush_answered_selectFail (s := imagePoint s e n) (t := .data) hl hb
    (.inr (initialImage_length s.par)) hbus hr hd
  rw [sendImage, imagePoint_par, orAbort_of_failure hflush (by decide), imagePoint_traffic]
  rfl

/-- With its image sent INIT waits for the panel to settle, and is Ready (41_device R144, R145). -/
theorem sendImage_sent (hr : e.ready = .answer true :: r) (hw : e.writes = .answer .ok :: w)
    (hd : e.drives = okDrives (drivesPerRun s.par.bus) ++ d) :
    sendImage (imagePoint s e n) = .done .ok
      ((((((s.setDev .initializing).setRst (levelAfterPulse s.par s.rst)).setBatch [] none).setBuf
        (initialImage s.par)).traffic (bootEvents s.par
          ++ .busReady true :: runEvents s.par.bus (flushRun s.par .cmd (burst s.par s.cfg)) .ok
          ++ .busReady true :: runEvents s.par.bus (flushRun s.par .data (initialImage s.par)) .ok
          ++ [.delay .settle s.par.tSettle])
        (if s.par.bus = .spi then .high else s.dc) { e with ready := r, writes := w, drives := d }
        (n + 2 + drivesPerRun s.par.bus)).setDev .ready) := by
  have hflush := flush_answered_ok (s := imagePoint s e n) (t := .data) hl hb (.inr (initialImage_length s.par)) hr hw hd
  rw [sendImage, imagePoint_par, orAbort_of_ok hflush, imagePoint_traffic, imagePoint_dc, imagePoint_par,
    levelAfterImage, settle, delay, State.emit_eq_traffic _ _ (by exact hb), State.traffic_traffic]
  rfl

/-- INIT with its check, pulse and burst all answered ok (41_device R131). -/
theorem initSequence_burstSent (hd : s.dev = .unknown) (hr : s.env.ready = .answer true :: .answer true :: r)
    (hw : s.env.writes = .answer .ok :: w)
    (hp : s.env.drives = okDrives (pulseDrives s.par) ++ (okDrives (drivesPerRun s.par.bus) ++ d)) :
    initSequence s = sendImage (imagePoint s { s.env with ready := r, writes := w, drives := d }
      (s.draws + 1 + pulseDrives s.par + 2 + drivesPerRun s.par.bus)) := by
  rw [initSequence_pulsed hb hd hr hp, sendBurst_sent hl hb rfl (by exact hw) rfl]

end

theorem okDrives_add (m n : Nat) : okDrives (m + n) = okDrives m ++ okDrives n := List.replicate_add ..

/-! ## The obligations -/

/-- Settles O28 (`initSequence_refused`). -/
theorem initOnlyInUnknown : Obligations.InitOnlyInUnknown := by
  unfold Obligations.InitOnlyInUnknown
  intro s hd
  rw [exec_init, initSequence_refused (s := s.accept) hd]
  rfl

/-- Settles O29 (`initSequence_unusable`). -/
theorem unusableTransportAbortsInit : Obligations.UnusableTransportAbortsInit := by
  unfold Obligations.UnusableTransportAbortsInit
  intro s r hd hr
  rw [exec_init, initSequence_unusable (s := s.accept) rfl hd hr]
  rfl

/-- Settles O30: each drive's failure ends the pulse (`resetPulse_assertFails`, `resetPulse_releaseFails`). -/
theorem failedResetDriveAbortsInit : Obligations.FailedResetDriveAbortsInit := by
  unfold Obligations.FailedResetDriveAbortsInit
  refine ⟨fun s r d hd hl hr hp => ?_, fun s r d hd hl hr hp => ?_⟩
  · have hpulse := resetPulse_assertFails
      (s := pulsePoint s.accept { s.accept.env with ready := r } (s.accept.draws + 1)) rfl hl hp
    rw [exec_init, initSequence_usable (s := s.accept) rfl hd hr, orAbort_of_failure hpulse (by decide), pulsePoint,
      setRst_traffic, State.traffic_traffic]
    rfl
  · have hpulse := resetPulse_releaseFails
      (s := pulsePoint s.accept { s.accept.env with ready := r } (s.accept.draws + 1)) rfl hl hp
    rw [exec_init, initSequence_usable (s := s.accept) rfl hd hr, orAbort_of_failure hpulse (by decide), pulsePoint,
      setRst_traffic, State.traffic_traffic]
    rfl

/-- Settles O31: INIT reaches its burst (`initSequence_pulsed`), and each failure of the burst's flush aborts it. -/
theorem unsentBurstAbortsInit : Obligations.UnsentBurstAbortsInit := by
  unfold Obligations.UnsentBurstAbortsInit
  refine ⟨fun s r d hl hd hr hp => ?_, fun s k r w d hl hd hr hw hp => ?_, fun s r d hl hd hbus hr hp => ?_⟩
  · have hdraws : s.draws + 2 + pulseDrives s.par = s.draws + 1 + pulseDrives s.par + 1 := by omega
    rw [exec_init, initSequence_pulsed (s := s.accept) rfl hd hr hp, sendBurst_unavailable (s := s.accept) hl rfl rfl,
      hdraws]
    rfl
  · have hdraws : s.draws + 3 + pulseDrives s.par + drivesPerRun s.par.bus
        = s.draws + 1 + pulseDrives s.par + 2 + drivesPerRun s.par.bus := by omega
    rw [okDrives_add, List.append_assoc] at hp
    rw [exec_init, initSequence_pulsed (s := s.accept) rfl hd hr hp,
      sendBurst_writeFails (s := s.accept) hl rfl rfl (by exact hw) rfl, hdraws]
    rfl
  · have hdraws : s.draws + 3 + pulseDrives s.par = s.draws + 1 + pulseDrives s.par + 2 := by omega
    rw [exec_init, initSequence_pulsed (s := s.accept) rfl hd hr hp,
      sendBurst_selectFails (s := s.accept) hl rfl hbus rfl rfl, hdraws]
    rfl

/-- Settles O32: INIT reaches its image (`initSequence_burstSent`), and each failure of the image's flush aborts it. -/
theorem unsentImageAbortsInit : Obligations.UnsentImageAbortsInit := by
  unfold Obligations.UnsentImageAbortsInit
  refine ⟨fun s k r w d hl hd hr hw hp => ?_, fun s r w d hl hd hr hw hp => ?_,
    fun s r w d hl hd hbus hr hw hp => ?_⟩
  · have hdraws : s.draws + 5 + pulseDrives s.par + drivesPerRun s.par.bus * 2
        = s.draws + 1 + pulseDrives s.par + 2 + drivesPerRun s.par.bus + 2 + drivesPerRun s.par.bus := by omega
    rw [Nat.mul_two, okDrives_add, okDrives_add, List.append_assoc, List.append_assoc] at hp
    rw [exec_init, initSequence_burstSent (s := s.accept) hl rfl hd hr hw hp,
      sendImage_writeFails (s := s.accept) hl rfl rfl rfl rfl, hdraws]
    rfl
  · have hdraws : s.draws + 4 + pulseDrives s.par + drivesPerRun s.par.bus
        = s.draws + 1 + pulseDrives s.par + 2 + drivesPerRun s.par.bus + 1 := by omega
    rw [okDrives_add, List.append_assoc] at hp
    rw [exec_init, initSequence_burstSent (s := s.accept) hl rfl hd hr hw hp,
      sendImage_unavailable (s := s.accept) hl rfl rfl, hdraws]
    rfl
  · have hdraws : s.draws + 6 + pulseDrives s.par
        = s.draws + 1 + pulseDrives s.par + 2 + drivesPerRun s.par.bus + 2 := by
      rw [hbus, drivesPerRun]
      omega
    have hp' : s.env.drives = okDrives (pulseDrives s.par) ++ (okDrives (drivesPerRun s.par.bus) ++ .answer .fail :: d) := by
      rw [hp, okDrives_add, List.append_assoc, hbus, drivesPerRun]
    rw [exec_init, initSequence_burstSent (s := s.accept) hl rfl hd hr hw hp',
      sendImage_selectFails (s := s.accept) hl rfl hbus rfl rfl, hdraws, ← hbus]
    rfl

/-- Settles O27: INIT reaches its image (`initSequence_burstSent`) and sends it (`sendImage_sent`). -/
theorem initReachesReady : Obligations.InitReachesReady := by
  unfold Obligations.InitReachesReady
  intro s r w d hl hd hr hw hp
  have hdraws : s.draws + 5 + pulseDrives s.par + drivesPerRun s.par.bus * 2
      = s.draws + 1 + pulseDrives s.par + 2 + drivesPerRun s.par.bus + 2 + drivesPerRun s.par.bus := by omega
  rw [Nat.mul_two, okDrives_add, okDrives_add, List.append_assoc, List.append_assoc] at hp
  rw [exec_init, initSequence_burstSent (s := s.accept) hl rfl hd hr hw hp,
    sendImage_sent (s := s.accept) hl rfl rfl rfl rfl, hdraws]
  rfl

end Sys2Proof.Machine
end

section
/-! PROOFS. What holds of INIT however it ends (41_device R130 to R146): the statuses it answers, its trace when it answers
`OK`, what comes before its first write, and what it leaves unchanged. -/

namespace Sys2Proof.Machine

/-! ## Which statuses a stage answers (60_exceptions R172) -/

theorem FlushEnds.status {x : Run} {s u : State} {st : Status} (h : FlushEnds x s (.done st u)) :
    st = .ok ∨ st = .errUnavailable ∨ st = .errIo := by
  cases h with
  | unavailable e n => exact .inr (.inl rfl)
  | sent e n => exact .inl rfl
  | writeFailed k e n _ => exact .inr (.inr rfl)
  | selectFailed e n _ => exact .inr (.inr rfl)

theorem PulseEnds.status {s u : State} {st : Status} (h : PulseEnds s (.done st u)) : st = .ok ∨ st = .errIo := by
  cases h with
  | noLine _ => exact .inl rfl
  | pulsed _ e n => exact .inl rfl
  | assertFailed _ e n => exact .inr rfl
  | releaseFailed _ e n => exact .inr rfl

/-- A failed stage that ended left the device Aborted, with the stage's status (60_exceptions R176). -/
theorem failed_aborted {r : Res Status} {st : Status} {t : State} (h : r.failed = .done st t)
    (hok : ∀ u, r ≠ .done .ok u)
    (hst : ∀ st u, r = .done st u → st = .ok ∨ st = .errUnavailable ∨ st = .errIo) :
    t.dev = .aborted ∧ (st = .errUnavailable ∨ st = .errIo) := by
  cases r with
  | done st' u =>
    obtain ⟨rfl, rfl⟩ := Res.done.inj h
    obtain rfl | hst := hst _ u rfl
    · exact absurd rfl (hok u)
    · exact ⟨rfl, hst⟩
  | hung u => nomatch h

/-- INIT's events when it answers `OK`, in R145's order. -/
def readyEvents (p : Params) (c : ControllerConfig) : List Event :=
  bootEvents p ++ .busReady true :: runEvents p.bus (flushRun p .cmd (burst p c)) .ok
    ++ .busReady true :: runEvents p.bus (flushRun p .data (initialImage p)) .ok ++ [.delay .settle p.tSettle]

/-- An INIT in Unknown that is answered reached Ready with R145's trace, or aborted (41_device R139, R146). -/
theorem InitEnds.answered {s t : State} {r : Res Status} {st : Status} (h : InitEnds s r) (hr : r = .done st t) :
    (st = .ok ∧ t.dev = .ready ∧ t.trace = s.trace ++ readyEvents s.par s.cfg)
      ∨ (t.dev = .aborted ∧ (st = .errUnavailable ∨ st = .errIo)) := by
  cases h with
  | heldAtCheck e n => nomatch hr
  | unusable e n =>
    obtain ⟨rfl, rfl⟩ := Res.done.inj hr
    exact .inr ⟨rfl, .inl rfl⟩
  | atPulse e n r h hok => exact .inr (failed_aborted hr hok fun st u hru => (hru ▸ h).status.imp_right .inr)
  | atBurst e n r h hok => exact .inr (failed_aborted hr hok fun st u hru => (hru ▸ h).status)
  | atImage e n r h hok => exact .inr (failed_aborted hr hok fun st u hru => (hru ▸ h).status)
  | ready e n =>
    obtain ⟨rfl, rfl⟩ := Res.done.inj hr
    exact .inl ⟨rfl, rfl, by simp [readyEvents]⟩

/-! ## What comes before a write (41_device R133) -/

/-- Before any write among the events come the check, the pulse and the wait. -/
def WaitsFirst (p : Params) (es : List Event) : Prop :=
  ∀ before bytes a rest, es = before ++ .busWrite bytes a :: rest → bootEvents p <+: before

theorem waitsFirst_of_no_write (p : Params) {es : List Event} (h : ∀ bytes a, .busWrite bytes a ∉ es) :
    WaitsFirst p es := by
  rintro before bytes a rest rfl
  exact absurd (List.mem_append_cons_self) (h bytes a)

theorem busWrite_not_mem_bootEvents (p : Params) (bytes : List Byte) (a : WriteAnswer) :
    .busWrite bytes a ∉ bootEvents p := by
  cases hl : p.hasResetLine <;> simp [bootEvents, pulseEvents, hl]

/-- What follows the wait may write as it likes. -/
theorem waitsFirst_bootEvents_append (p : Params) (es : List Event) : WaitsFirst p (bootEvents p ++ es) := by
  intro before bytes a rest h
  obtain ⟨later, hbefore, _⟩ | ⟨later, hboot, hrest⟩ := List.append_eq_append_iff.mp h
  · exact ⟨later, hbefore.symm⟩
  · cases later with
    | nil => exact ⟨[], by rw [hboot]; simp⟩
    | cons v later =>
      obtain ⟨rfl, _⟩ := List.cons.inj hrest
      exact absurd (hboot ▸ List.mem_append_cons_self) (busWrite_not_mem_bootEvents p bytes a)

/-- A completed pulse leaves its events and the line's level (41_device R132). -/
theorem PulseEnds.completed {s u : State} (h : PulseEnds s (.done .ok u)) :
    ∃ e n, u = (s.setRst (levelAfterPulse s.par s.rst)).traffic (pulseEvents s.par) s.dc e n := by
  cases h with
  | noLine hl =>
    refine ⟨s.env, s.draws, ?_⟩
    rw [pulseEvents, levelAfterPulse, hl]
    exact (State.traffic_nil s).symm
  | pulsed hl e n =>
    refine ⟨e, n, ?_⟩
    rw [levelAfterPulse, hl]
    rfl

/-- A pulse that is not completed writes nothing. -/
theorem PulseEnds.no_write {s : State} {r : Res Status} (h : PulseEnds s r) :
    ∃ es, (conclude r).trace = s.trace ++ es ∧ ∀ bytes a, .busWrite bytes a ∉ es := by
  cases h with
  | noLine _ => exact ⟨[], (List.append_nil _).symm, by simp⟩
  | pulsed hl e n => exact ⟨_, rfl, by simp [pulseEvents, hl]⟩
  | assertFailed _ e n => exact ⟨_, rfl, by simp⟩
  | releaseFailed _ e n => exact ⟨_, rfl, by simp⟩
  | heldAtAssert _ e n => exact ⟨_, rfl, by simp⟩
  | heldAtRelease _ e n => exact ⟨_, rfl, by simp⟩

/-- INIT from its burst on touches what `Touched` says, for any parameters. -/
theorem sendBurst_ran {s : State} (hb : s.busy = true) (hd : s.dev = .initializing) : InitRan s (sendBurst s) := by
  refine Ran.orAbort (.flush .cmd _ (.refl _ s) hd rfl hb) fun t ht hdt hwt => ?_
  have himage : Touched .initializing s (t.setBuf (initialImage t.par)) :=
    ht.setBuf (by rw [initialImage_length, ht.par])
  refine Ran.orAbort (.flush .data _ himage hdt hwt (ht.busy.trans hb)) fun u hu hdu hwu => ?_
  have hsettle : Touched .initializing s (delay .settle u.par.tSettle u) := by
    rw [delay, State.emit_eq_traffic _ _ (hu.busy.trans hb)]
    exact hu.trans (hdu ▸ Touched.traffic _ _ _ _ (fun _ => rfl))
  exact .ready _ (hsettle.setDev _) rfl hwu

theorem InitRan.touched {s : State} {r : Res Status} (h : InitRan s r) : Touched .initializing s r.state := by
  cases h with
  | ready t h _ _ => exact h
  | aborted st t h _ _ => exact h
  | hung t h _ _ => exact h

theorem conclude_trace (r : Res Status) : (conclude r).trace = r.state.trace := by
  cases r <;> rfl

/-- The events between two states write nothing before the wait is over. -/
def AddsWaitsFirst (s t : State) : Prop := ∃ es, t.trace = s.trace ++ es ∧ WaitsFirst s.par es

/-- From its reset pulse on INIT writes nothing until the wait is over. -/
theorem pulse_addsWaitsFirst {s : State} (hb : s.busy = true) (e : Env) (n : Nat) :
    AddsWaitsFirst s (conclude ((resetPulse (pulsePoint s e n)).orAbort
      fun s => sendBurst (delay .rstWait s.par.tRstWait s))) := by
  have hpulse := resetPulse_ends (pulsePoint s e n) hb
  by_cases hok : ∀ u, resetPulse (pulsePoint s e n) ≠ .done .ok u
  · obtain ⟨es, htrace, hes⟩ := hpulse.no_write
    have hadded : (conclude (resetPulse (pulsePoint s e n))).trace = s.trace ++ .busReady true :: es := by
      rw [htrace, pulsePoint, State.traffic_trace, List.append_assoc]
      rfl
    refine ⟨.busReady true :: es, ?_, waitsFirst_of_no_write _ (by simpa using hes)⟩
    rw [orAbort_failed hok]
    obtain h | h := conclude_failed (resetPulse (pulsePoint s e n)) <;> rw [h]
    · exact hadded
    · exact hadded
  · push Not at hok
    obtain ⟨u, hu⟩ := hok
    obtain ⟨e', n', rfl⟩ := (hu ▸ hpulse).completed
    obtain ⟨es, hes, _⟩ := (sendBurst_ran (s := burstPoint s e' n') hb rfl).touched.events
    refine ⟨bootEvents s.par ++ es, ?_, waitsFirst_bootEvents_append s.par es⟩
    rw [orAbort_of_ok hu, ← List.append_assoc, ← burstPoint_trace s e' n', ← hes, ← conclude_trace,
      ← wait_eq_burstPoint hb e e' n n']
    rfl

/-- INIT writes nothing until the wait is over, for any parameters (41_device R133). -/
theorem initSequence_addsWaitsFirst {s : State} (hb : s.busy = true) :
    AddsWaitsFirst s (conclude (initSequence s)) := by
  by_cases hd : s.dev = .unknown
  · obtain ⟨b, e, hcheck⟩ | ⟨e, hcheck⟩ := busReady_cases (s.setDev .initializing)
    · cases b with
      | true =>
        rw [State.drawn_emit (s.setDev .initializing) _ _ hb] at hcheck
        rw [initSequence_of_check (n := s.draws + 1) hd hcheck]
        exact pulse_addsWaitsFirst hb e (s.draws + 1)
      | false =>
        rw [initSequence, if_neg (by simp [hd]), usabilityCheck, hcheck]
        exact ⟨[.busReady false], rfl, waitsFirst_of_no_write _ (by simp)⟩
    · rw [initSequence, if_neg (by simp [hd]), usabilityCheck, hcheck]
      exact ⟨[], (List.append_nil _).symm, waitsFirst_of_no_write _ (by simp)⟩
  · rw [initSequence_refused hd]
    exact ⟨[], (List.append_nil _).symm, waitsFirst_of_no_write _ (by simp)⟩

/-! ## What INIT leaves unchanged (41_device R131) -/

section
variable {dev : DeviceState} {s t : State}

theorem Ended.rx (h : Ended dev s t) : t.rx = s.rx := by
  cases h with
  | answered u st h _ => exact h.rx
  | held _ h _ => exact h.rx

/-- No operation writes a byte outside the DeviceBuffer (20_memory R51). -/
theorem Ended.outside (h : Ended dev s t) (hw : Memory.within s.par.bufLen s.buf = true) {a : Nat}
    (ha : s.par.bufLen ≤ a) : Memory.read t.buf a = Memory.read s.buf a := by
  cases h with
  | answered u st h _ => exact h.outside a ha hw
  | held _ h _ => exact h.outside a ha hw

/-- The parameters, the configuration registers and the request stream are what no operation writes. -/
theorem Ended.frame (h : Ended dev s t) :
    t = { s with dev := t.dev, busy := t.busy, runs := t.runs, cur := t.cur, buf := t.buf, dc := t.dc, rst := t.rst
                 trace := t.trace, responses := t.responses, samples := t.samples, waiting := t.waiting, env := t.env
                 draws := t.draws } := by
  rw [← h.par, ← h.cfg, ← h.rx]

end

/-! ## The obligations -/

/-- Settles O33, by cases on the startup image. -/
theorem initialImageFitsBuffer : Obligations.InitialImageFitsBuffer := by
  unfold Obligations.InitialImageFitsBuffer
  intro s
  refine ⟨initialImage_length s.par, fun img hsome hlen => ?_, fun img hsome hlen => ?_, fun hnone => ?_,
    bufBytes_setBuf (initialImage_length s.par)⟩
  · simp only [initialImage, hsome, hlen, if_true]
  · simp only [initialImage, hsome, hlen, if_false, zeros]
  · simp only [initialImage, hnone, zeros]

/-- Settles O34: an INIT that is answered ended as `InitEnds.answered` says, and one that is held as `InitRan` does. -/
theorem initEndsReadyOrAborted : Obligations.InitEndsReadyOrAborted := by
  unfold Obligations.InitEndsReadyOrAborted
  intro s t hl hd h
  obtain rfl := Host.Outcome.next.inj h
  have hends := initSequence_ends (s := s.accept) hl rfl hd
  have hran := initSequence_ran (s := s.accept) rfl hd
  generalize initSequence s.accept = r at hends hran
  cases r with
  | done st u =>
    have hresponses : u.responses = s.responses := hran.touched.responses
    obtain ⟨rfl, hdev, htrace⟩ | ⟨hdev, rfl | rfl⟩ := hends.answered rfl
    · exact .inl ⟨rfl, hdev, congrArg (· ++ [0x00]) hresponses, htrace⟩
    · exact .inr (.inl ⟨rfl, hdev, .inl (congrArg (· ++ [0x01]) hresponses)⟩)
    · exact .inr (.inl ⟨rfl, hdev, .inr (congrArg (· ++ [0x03]) hresponses)⟩)
  | hung u =>
    cases hran with
    | hung _ hu hdev _ => exact .inr (.inr ⟨hu.busy, hdev, hu.responses⟩)

/-- Settles O35: INIT adds to the trace what `initSequence_addsWaitsFirst` says. -/
theorem initWaitsBeforeWriting : Obligations.InitWaitsBeforeWriting := by
  unfold Obligations.InitWaitsBeforeWriting
  intro s t new before rest bytes a h htrace hnew
  obtain rfl := Host.Outcome.next.inj h
  obtain ⟨es, hes, hwaits⟩ := initSequence_addsWaitsFirst (s := s.accept) rfl
  obtain rfl : es = new := List.append_cancel_left (hes.symm.trans htrace)
  exact hwaits before bytes a rest hnew

/-- Settles O38: INIT writes no more than any operation may (`Ended`). -/
theorem initFrame : Obligations.InitFrame := by
  unfold Obligations.InitFrame
  intro s t h
  obtain ⟨d, hended⟩ := ended_of_exec h
  exact ⟨hended.frame, hended.dc, hended.rst, fun hw a ha => hended.outside hw ha⟩

/-- Settles O56: a step that is not an operation's keeps the device state, and of the operations only INIT moves it. -/
theorem onlyInitMovesDeviceState : Obligations.OnlyInitMovesDeviceState := by
  unfold Obligations.OnlyInitMovesDeviceState
  intro s t h hmoved
  obtain rfl | ⟨_, rest, rfl⟩ | ⟨_, i, rest, hdecode, he⟩ := step_cases h
  · exact absurd rfl hmoved
  · exact absurd rfl hmoved
  · obtain hkept | ⟨rfl, hd, hdev⟩ := exec_dev he
    · exact absurd hkept hmoved
    · exact ⟨hd, ⟨rest, hdecode⟩, hdev⟩

end Sys2Proof.Machine
end

section
/-! PROOFS. The pixel decision (42_transcoder R150, R151) and the image it packs (R154, R158, R159). -/

namespace Sys2Proof.Machine

/-! ## The pixel decision -/

section
variable {p : Params} {v : Byte}

theorem pixelOn_iff : pixelOn p v = true ↔ distance v p.fgRef < distance v p.bgRef := decide_eq_true_iff

theorem pixelOn_eq_false_iff : pixelOn p v = false ↔ distance v p.bgRef ≤ distance v p.fgRef := by
  rw [← Bool.not_eq_true, pixelOn_iff, not_lt]

/-- With the brighter foreground a pixel is on above the references' midpoint (42_transcoder R151). -/
theorem pixelOn_iff_of_bgRef_lt (h : p.bgRef.toNat < p.fgRef.toNat) :
    pixelOn p v = true ↔ p.fgRef.toNat + p.bgRef.toNat < 2 * v.toNat := by
  rw [pixelOn_iff, distance, distance]
  omega

/-- With the darker foreground a pixel is on below the references' midpoint (42_transcoder R151). -/
theorem pixelOn_iff_of_fgRef_lt (h : p.fgRef.toNat < p.bgRef.toNat) :
    pixelOn p v = true ↔ 2 * v.toNat < p.fgRef.toNat + p.bgRef.toNat := by
  rw [pixelOn_iff, distance, distance]
  omega

/-- The tie lies at the midpoint of two different references (42_transcoder R151). -/
theorem distance_eq_iff {a b : Byte} (h : a ≠ b) :
    distance v a = distance v b ↔ 2 * v.toNat = a.toNat + b.toNat := by
  have hne : a.toNat ≠ b.toNat := mt BitVec.eq_of_toNat_eq h
  rw [distance, distance]
  omega

/-- A tie is off (42_transcoder R150). -/
theorem pixelOn_midpoint (h : 2 * v.toNat = p.fgRef.toNat + p.bgRef.toNat) : pixelOn p v = false := by
  rw [pixelOn_eq_false_iff, distance, distance]
  omega

theorem distance_self (a : Byte) : distance a a = 0 := by simp [distance]

theorem distance_pos {a b : Byte} (h : a ≠ b) : 0 < distance a b := by
  have hne : a.toNat ≠ b.toNat := mt BitVec.eq_of_toNat_eq h
  rw [distance]
  omega

theorem pixelOn_fgRef (h : p.fgRef ≠ p.bgRef) : pixelOn p p.fgRef = true := by
  rw [pixelOn_iff, distance_self]
  exact distance_pos h

theorem pixelOn_bgRef (p : Params) : pixelOn p p.bgRef = false := by
  rw [pixelOn_eq_false_iff, distance_self]
  exact Nat.zero_le _

end

/-- Settles O39: the closed forms on either side of the midpoint, with the examples of R151 at their references. -/
theorem pixelDecisionClosedForm : Obligations.PixelDecisionClosedForm := by
  unfold Obligations.PixelDecisionClosedForm
  intro p v
  refine ⟨pixelOn_iff_of_bgRef_lt, pixelOn_iff_of_fgRef_lt, fun hfg hbg => ?_, fun hfg hbg hv => ?_, distance_eq_iff,
    pixelOn_midpoint, fun hne => ⟨pixelOn_fgRef hne, pixelOn_bgRef p⟩⟩
  · rw [pixelOn_iff_of_bgRef_lt (by rw [hfg, hbg]; decide), hfg, hbg]
    have hsum : (0xFF : Byte).toNat + (0x00 : Byte).toNat = 255 := rfl
    omega
  · exact pixelOn_midpoint (by rw [hfg, hbg, hv]; rfl)

/-! ## The packed image -/

/-- Settles O40: the image's byte of a page and column (`getD_transcode`), and its bits (`getLsbD_packByte`). -/
theorem transcodePacksPixels : Obligations.TranscodePacksPixels := by
  unfold Obligations.TranscodePacksPixels
  intro p px
  refine ⟨transcode_length p px, fun page col r hpage hcol hr => ?_⟩
  rw [getD_transcode p px page col hpage hcol, getLsbD_packByte p px page col r hr, pixRead]

section
variable {p : Params} {px : List Byte}

/-- A byte with the decisions on its pixels as its bits is the packed one (42_transcoder R154). -/
theorem packByte_eq {page col : Nat} {b : Byte}
    (h : ∀ r < 8, pixelOn p (pixRead px ((page * 8 + r) * p.width + col)) = b.getLsbD r) :
    packByte p px page col = b :=
  BitVec.eq_of_getLsbD_eq fun r hr => (getLsbD_packByte p px page col r hr).trans (h r hr)

/-- A byte list with the packed bytes by page and column is the image (42_transcoder R154). -/
theorem transcode_eq {bs : List Byte} (hlen : bs.length = p.bufLen)
    (h : ∀ page col, page < p.pages → col < p.width → packByte p px page col = bs.getD (page * p.width + col) 0) :
    transcode p px = bs := by
  refine List.ext_getElem ((transcode_length p px).trans hlen.symm) fun i hi hi' => ?_
  have hlt : i < p.width * p.pages := hlen.subst (motive := (i < ·)) hi'
  have hpage : i / p.width < p.pages := Nat.div_lt_of_lt_mul hlt
  have hcol : i % p.width < p.width := Nat.mod_lt _ (Nat.pos_of_lt_mul_right hlt)
  have hbyte := (getD_transcode p px _ _ hpage hcol).trans (h _ _ hpage hcol)
  rwa [Nat.div_add_mod', List.getD_eq_getElem _ _ hi, List.getD_eq_getElem _ _ hi'] at hbyte

/-- Every pixel of the panel has its place in a surface of the panel's size (42_transcoder R154). -/
theorem pixelIndex_lt (hmod : p.height % 8 = 0) {page col r : Nat} (hpage : page < p.pages) (hcol : col < p.width)
    (hr : r < 8) : (page * 8 + r) * p.width + col < p.width * p.height := by
  have hrow : page * 8 + r < p.height := by
    rw [Params.pages] at hpage
    omega
  rw [Nat.mul_comm _ p.width, Nat.mul_comm p.width p.height]
  exact Nat.mul_add_lt_mul_of_lt_of_lt hrow hcol

theorem pixRead_mem {i : Nat} (hi : i < px.length) : pixRead px i ∈ px := by
  rw [pixRead, List.getD_eq_getElem _ _ hi]
  exact List.getElem_mem hi

/-- A surface of one intensity packs to bytes whose bits are all the decision on it (42_transcoder R158). -/
theorem transcode_uniform (hmod : p.height % 8 = 0) (hlen : px.length = p.width * p.height) {v b : Byte}
    (hpx : ∀ u ∈ px, u = v) (hb : ∀ r < 8, pixelOn p v = b.getLsbD r) :
    transcode p px = List.replicate p.bufLen b := by
  refine transcode_eq List.length_replicate fun page col hpage hcol => ?_
  have hi : page * p.width + col < p.bufLen := by
    rw [Params.bufLen, Nat.mul_comm p.width, Nat.mul_comm page]
    exact Nat.mul_add_lt_mul_of_lt_of_lt hpage hcol
  rw [List.getD_replicate _ hi]
  refine packByte_eq fun r hr => ?_
  rw [hpx _ (pixRead_mem (hlen ▸ pixelIndex_lt hmod hpage hcol hr)), hb r hr]

end

/-- Settles O45: the foreground reference is on and the background one off, at every bit. -/
theorem uniformSurfacePacksUniformly : Obligations.UniformSurfacePacksUniformly := by
  unfold Obligations.UniformSurfacePacksUniformly
  intro p c px hl hlen
  obtain ⟨_, _, _, _, hmod, hne, _⟩ := hl
  refine ⟨fun hfg => transcode_uniform hmod hlen hfg ?_, fun hbg => transcode_uniform hmod hlen hbg ?_⟩
  · rw [pixelOn_fgRef hne]
    decide
  · rw [pixelOn_bgRef]
    decide

/-- The byte of one column whose first `n` rows are foreground, for the two `n` of 42_transcoder R159. -/
def firstRowsByte (n : Nat) : Byte := if n = 8 then 0xFF else 0x01

theorem getLsbD_firstRowsByte {n : Nat} (hn : n = 8 ∨ n = 1) :
    ∀ r < 8, (firstRowsByte n).getLsbD r = decide (r < n) := by
  obtain rfl | rfl := hn <;> decide

/-- Settles O46: bit r of a page's byte is on exactly if its row is one of the first `n` and its column is 0. -/
theorem firstColumnScenario : Obligations.FirstColumnScenario := by
  unfold Obligations.FirstColumnScenario
  intro p px n hw hh hne _ hn hpx
  have hpages : p.pages = 8 := by rw [Params.pages, hh]
  have hon : ∀ page col, page < 8 → col < 128 → ∀ r < 8,
      pixelOn p (pixRead px ((page * 8 + r) * p.width + col)) = decide (page * 8 + r < n ∧ col = 0) := by
    intro page col hpage hcol r hr
    rw [hw, pixRead, hpx _ _ (by omega) hcol]
    by_cases hfirst : page * 8 + r < n ∧ col = 0
    · rw [if_pos hfirst, pixelOn_fgRef hne, decide_eq_true hfirst]
    · rw [if_neg hfirst, pixelOn_bgRef, decide_eq_false hfirst]
  change transcode p px = firstRowsByte n :: List.replicate 1023 0x00
  refine transcode_eq (by rw [List.length_cons, List.length_replicate, Params.bufLen, hw, hpages])
    fun page col hpage hcol => ?_
  rw [hpages] at hpage
  rw [hw] at hcol ⊢
  refine packByte_eq fun r hr => (hon page col hpage hcol r hr).trans ?_
  by_cases hzero : page * 128 + col = 0
  · obtain ⟨rfl, rfl⟩ : page = 0 ∧ col = 0 := by omega
    rw [Nat.zero_mul, List.getD_cons_zero, getLsbD_firstRowsByte hn r hr, Nat.zero_add]
    exact decide_eq_decide.2 (and_iff_left rfl)
  · obtain ⟨i, hi⟩ : ∃ i, page * 128 + col = i + 1 := ⟨_, (Nat.succ_pred hzero).symm⟩
    rw [hi, List.getD_cons_succ, List.getD_replicate _ (by omega), decide_eq_false (by omega)]
    exact BitVec.getLsbD_zero.symm

end Sys2Proof.Machine
end

section
/-! PROOFS. DISPLAY and CLEAR (42_transcoder R153, R155 to R162): both commit an image and flush it; how that ends under
answers that the environment fixes, and what both leave unchanged however they end. -/

namespace Sys2Proof.Machine

theorem exec_display (s : State) : exec .display s = .next (conclude (displaySurface s.accept)) := rfl

theorem exec_clear (s : State) : exec .clear s = .next (conclude (clearSurface s.accept)) := rfl

/-! ## The commit point (42_transcoder R156, R160) -/

/-- The state in which DISPLAY and CLEAR flush: their event with the pixels is over, and the image is in the buffer. -/
def commitPoint (s : State) (v : Event) (bs : List Byte) (e : Env) (n : Nat) : State :=
  (s.traffic [v] s.dc e n).setBuf bs

theorem commitPoint_traffic (s : State) (v : Event) (bs : List Byte) (e e' : Env) (n n' : Nat) (rs : List Run)
    (c : Option Run) (es : List Event) (l : SelectLevel) :
    ((commitPoint s v bs e n).setBatch rs c).traffic es l e' n'
      = ((s.setBuf bs).setBatch rs c).traffic (v :: es) l e' n' :=
  State.traffic_traffic ((s.setBuf bs).setBatch rs c) [v] es s.dc l e e' n n'

theorem bufBytes_commitPoint {s : State} {bs : List Byte} (h : bs.length = s.par.bufLen) (v : Event) (e : Env)
    (n : Nat) : (commitPoint s v bs e n).bufBytes = bs :=
  bufBytes_setBuf (s := s.traffic [v] s.dc e n) h

/-- A flush writes neither the buffer nor the reset line, whatever the transport answers (40_batcher R118). -/
theorem flush_commitPoint_panel {s : State} (hb : s.busy = true) (v : Event) (bs : List Byte) (e : Env) (n : Nat) :
    (conclude (flush .data bs (commitPoint s v bs e n))).rst = s.rst
      ∧ (conclude (flush .data bs (commitPoint s v bs e n))).buf = Memory.ofBytes bs :=
  (flush_sent .data bs (commitPoint s v bs e n) hb).conclude_panel

section
variable {s : State} (hl : s.par.Legal s.cfg) (hb : s.busy = true) {v : Event} {bs : List Byte}
  (hbs : bs.length = s.par.bufLen) {e : Env} {n : Nat} {r : List (Reply Bool)} {w : List (Reply WriteAnswer)}
  {d : List (Reply DriveAnswer)}
include hl hb hbs

/-- The image's flush when its write is answered, ok or not. -/
theorem flush_commitPoint_written {a : WriteAnswer} (hr : e.ready = .answer true :: r) (hw : e.writes = .answer a :: w)
    (hd : e.drives = okDrives (drivesPerRun s.par.bus) ++ d) :
    flush .data bs (commitPoint s v bs e n) = .done (if a = .ok then .ok else .errIo)
      (((s.setBuf bs).setBatch [] none).traffic (v :: .busReady true
          :: runEvents s.par.bus (flushRun s.par .data bs) (clampAnswer (frameBytes s.par.bus .data bs) a))
        (if s.par.bus = .spi then .high else s.dc) { e with ready := r, writes := w, drives := d }
        (n + 2 + drivesPerRun s.par.bus)) := by
  have hlevel : levelAfterRuns s.par.bus [flushRun s.par .data bs] s.dc = if s.par.bus = .spi then .high else s.dc :=
    levelAfterRuns_flushRun s.par .data bs s.dc
  rw [← commitPoint_traffic s v bs e _ n, ← hlevel]
  cases a with
  | ok => exact flush_answered_ok (s := commitPoint s v bs e n) hl hb (.inr hbs) hr hw hd
  | fail k => exact flush_answered_fail (s := commitPoint s v bs e n) hl hb (.inr hbs) hr hw hd

theorem flush_commitPoint_selectFails (hbus : s.par.bus = .spi) (hr : e.ready = .answer true :: r)
    (hd : e.drives = .answer .fail :: d) :
    flush .data bs (commitPoint s v bs e n) = .done .errIo
      (((s.setBuf bs).setBatch [] none).traffic [v, .busReady true, .selectData .fail] .unknown
        { e with ready := r, drives := d } (n + 2)) := by
  rw [← commitPoint_traffic s v bs e _ n]
  exact flush_answered_selectFail (s := commitPoint s v bs e n) hl hb (.inr hbs) hbus hr hd

theorem flush_commitPoint_unavailable (hr : e.ready = .answer false :: r) :
    flush .data bs (commitPoint s v bs e n) = .done .errUnavailable
      (((s.setBuf bs).setBatch [] (some (flushRun s.par .data bs))).traffic [v, .busReady false] s.dc
        { e with ready := r } (n + 1)) := by
  rw [← commitPoint_traffic s v bs e _ n]
  exact flush_answered_unavailable (s := commitPoint s v bs e n) hl hb (.inr hbs) hr

end

/-! ## DISPLAY up to its flush (42_transcoder R155) -/

section
variable {s : State} {x : Snapshot} {xs : List Snapshot}

theorem displaySurface_refused (hd : s.dev ≠ .ready) : displaySurface s = .done .errState s := if_pos hd

/-- In Ready DISPLAY reads a snapshot, and refuses it or commits and flushes its image. -/
theorem displaySurface_of_getPixels (hd : s.dev = .ready) {e : Env} {n : Nat}
    (h : getPixels s = (x, s.traffic [.getPixels x] s.dc e n)) :
    displaySurface s = if snapshotFits s.par x = false then .done .errGeometry (s.traffic [.getPixels x] s.dc e n)
      else flush .data (transcode s.par x.px) (commitPoint s (.getPixels x) (transcode s.par x.px) e n) := by
  have hbuf := bufBytes_commitPoint (transcode_length s.par x.px) (.getPixels x) e n
  rw [displaySurface, if_neg (not_not_intro hd), h]
  exact congrArg (fun bs => ite _ _ (flush .data bs _)) hbuf

theorem getPixels_traffic (hb : s.busy = true) (hx : s.env.pixels = x :: xs) :
    getPixels s = (x, s.traffic [.getPixels x] s.dc { s.env with pixels := xs } (s.draws + 1)) := by
  rw [getPixels_answer hx, State.drawn_emit s _ _ hb]

theorem displaySurface_mismatch (hb : s.busy = true) (hd : s.dev = .ready) (hx : s.env.pixels = x :: xs)
    (hfit : snapshotFits s.par x = false) :
    displaySurface s = .done .errGeometry
      (s.traffic [.getPixels x] s.dc { s.env with pixels := xs } (s.draws + 1)) := by
  rw [displaySurface_of_getPixels hd (getPixels_traffic hb hx), if_pos hfit]

/-- DISPLAY of a fitting snapshot comes to the flush of its image. -/
theorem exec_display_fits (hd : s.dev = .ready) (hx : s.env.pixels = x :: xs) (hfit : snapshotFits s.par x = true) :
    exec .display s = .next (conclude (flush .data (transcode s.par x.px) (commitPoint s.accept (.getPixels x)
      (transcode s.par x.px) { s.env with pixels := xs } (s.draws + 1)))) := by
  rw [exec_display, displaySurface_fits (s := s.accept) rfl hd hx hfit]
  rfl

/-- DISPLAY drives no reset line (10_state R41). -/
theorem displaySurface_rst (hb : s.busy = true) : (conclude (displaySurface s)).rst = s.rst := by
  by_cases hd : s.dev = .ready
  · obtain ⟨x, e, hx⟩ := getPixels_cases s
    rw [State.drawn_emit s _ _ hb] at hx
    rw [displaySurface_of_getPixels hd hx]
    split
    · rfl
    · exact (flush_commitPoint_panel hb _ _ _ _).1
  · rw [displaySurface_refused hd]
    rfl

/-! ## CLEAR up to its flush (42_transcoder R160) -/

theorem clearSurface_refused (hd : s.dev ≠ .ready) : clearSurface s = .done .errState s := if_pos hd

/-- In Ready CLEAR commits zeros and flushes them. -/
theorem clearSurface_ready (hb : s.busy = true) (hd : s.dev = .ready) :
    clearSurface s = flush .data (zeros s.par.bufLen)
      (commitPoint s .surfaceClear (zeros s.par.bufLen) s.env s.draws) := by
  rw [clearSurface, if_neg (not_not_intro hd), surfaceClear, State.emit_eq_traffic (s.setBuf _) _ hb]
  exact congrArg (flush .data · _) (bufBytes_commitPoint (zeros_length _) _ _ _)

/-- In Ready CLEAR comes to the flush of its zeros. -/
theorem exec_clear_ready (hd : s.dev = .ready) :
    exec .clear s = .next (conclude (flush .data (zeros s.par.bufLen)
      (commitPoint s.accept .surfaceClear (zeros s.par.bufLen) s.env s.draws))) := by
  rw [exec_clear, clearSurface_ready (s := s.accept) rfl hd]
  rfl

/-- Zeros in the buffer are no listed byte (10_state R37). -/
theorem setBuf_zeros (s : State) (n : Nat) : s.setBuf (zeros n) = { s with buf := [] } := by
  rw [State.setBuf, Memory.ofBytes_zeros]

/-- After a CLEAR in Ready no byte is listed, whatever the transport answers (42_transcoder R161). -/
theorem exec_clear_buf {t : State} (hd : s.dev = .ready) (h : exec .clear s = .next t) : t.buf = [] := by
  rw [exec_clear_ready hd, Host.Outcome.next.injEq] at h
  rw [← h, ← Memory.ofBytes_zeros s.par.bufLen]
  exact (flush_commitPoint_panel (s := s.accept) rfl _ _ _ _).2

/-- A buffer without a listed byte reads as zeros (10_state R37). -/
theorem bufBytes_of_buf_nil {t : State} (h : t.buf = []) : t.bufBytes = zeros t.par.bufLen := by
  have hzeros := bufBytes_setBuf (s := t) (zeros_length t.par.bufLen)
  rwa [setBuf_zeros, ← h] at hzeros

/-- CLEAR drives no reset line (10_state R41). -/
theorem clearSurface_rst (hb : s.busy = true) : (conclude (clearSurface s)).rst = s.rst := by
  by_cases hd : s.dev = .ready
  · rw [clearSurface_ready hb hd]
    exact (flush_commitPoint_panel hb _ _ _ _).1
  · rw [clearSurface_refused hd]
    rfl

end

/-! ## The obligations -/

/-- Settles O47 (`displaySurface_refused`, `clearSurface_refused`). -/
theorem displayAndClearNeedReady : Obligations.DisplayAndClearNeedReady := by
  unfold Obligations.DisplayAndClearNeedReady
  intro s hd
  rw [exec_display, displaySurface_refused (s := s.accept) hd, exec_clear, clearSurface_refused (s := s.accept) hd]
  exact ⟨rfl, rfl⟩

/-- Settles O42 (`displaySurface_mismatch`). -/
theorem mismatchedSurfaceIsRefused : Obligations.MismatchedSurfaceIsRefused := by
  unfold Obligations.MismatchedSurfaceIsRefused
  intro s x xs hd hx hmismatch
  have hfit : snapshotFits s.par x = false := by
    rw [← Bool.not_eq_true, snapshotFits_iff]
    tauto
  rw [exec_display, displaySurface_mismatch (s := s.accept) rfl hd hx hfit, ← hd]
  rfl

/-- Settles O41: DISPLAY comes to its flush (`exec_display_fits`), whose write is answered ok. -/
theorem displaySendsPackedImage : Obligations.DisplaySendsPackedImage := by
  unfold Obligations.DisplaySendsPackedImage
  intro s x xs r w d hl hd hx hwidth hheight hlen hr hw hdr
  rw [exec_display_fits hd hx ((snapshotFits_iff _ _).2 ⟨hwidth, hheight, hlen⟩),
    flush_commitPoint_written (s := s.accept) (e := { s.env with pixels := xs }) hl rfl
      (transcode_length s.par x.px) hr hw hdr, ← hd]
  rfl

/-- Settles O43: DISPLAY comes to its flush (`exec_display_fits`), which fails in one of three ways. -/
theorem unsentImageStaysInBuffer : Obligations.UnsentImageStaysInBuffer := by
  unfold Obligations.UnsentImageStaysInBuffer
  intro s x xs hl hd hx hwidth hheight hlen
  rw [exec_display_fits hd hx ((snapshotFits_iff _ _).2 ⟨hwidth, hheight, hlen⟩), ← hd]
  refine ⟨fun r hr => ?_, fun k r w d hr hw hdr => ?_, fun r d hbus hr hdr => ?_⟩
  · rw [flush_commitPoint_unavailable (s := s.accept) (e := { s.env with pixels := xs }) hl rfl
      (transcode_length s.par x.px) hr]
    rfl
  · rw [flush_commitPoint_written (s := s.accept) (e := { s.env with pixels := xs }) hl rfl
      (transcode_length s.par x.px) hr hw hdr]
    rfl
  · rw [flush_commitPoint_selectFails (s := s.accept) (e := { s.env with pixels := xs }) hl rfl
      (transcode_length s.par x.px) hbus hr hdr]
    rfl

/-- Settles O49: the buffer by `exec_clear_buf`, and the one flush by how it ends. -/
theorem clearAlwaysZeroes : Obligations.ClearAlwaysZeroes := by
  unfold Obligations.ClearAlwaysZeroes
  refine ⟨fun s t hd h => ?_, fun s r a w d hl hd hr hw hdr => ?_, fun s r d hl hd hbus hr hdr => ?_,
    fun s r hl hd hr => ?_⟩
  · have hbuf := exec_clear_buf hd h
    obtain ⟨_, hended⟩ := ended_of_exec h
    refine ⟨?_, fun a => by rw [hbuf]; rfl⟩
    rw [bufBytes_of_buf_nil hbuf, hended.par, zeros]
  · rw [exec_clear_ready hd, flush_commitPoint_written (s := s.accept) hl rfl (zeros_length s.par.bufLen) hr hw hdr,
      setBuf_zeros, ← hd]
    cases a <;> rfl
  · rw [exec_clear_ready hd, flush_commitPoint_selectFails (s := s.accept) hl rfl (zeros_length s.par.bufLen) hbus
      hr hdr, setBuf_zeros, ← hd]
    rfl
  · rw [exec_clear_ready hd, flush_commitPoint_unavailable (s := s.accept) hl rfl (zeros_length s.par.bufLen) hr,
      setBuf_zeros, ← hd]
    rfl

/-- Settles O48: of CLEAR's writes (`clearAlwaysZeroes`), the one that is answered ok. -/
theorem clearSendsZeros : Obligations.ClearSendsZeros := by
  unfold Obligations.ClearSendsZeros
  intro s r w d hl hd hr hw hdr
  obtain ⟨_, hwritten, _⟩ := clearAlwaysZeroes
  exact hwritten s r .ok w d hl hd hr hw hdr

/-- Neither DISPLAY nor CLEAR drives the reset line (10_state R41). -/
theorem exec_displayOrClear_rst {i : Instr} {s t : State} (hi : i = .display ∨ i = .clear) (h : exec i s = .next t) :
    t.rst = s.rst := by
  obtain rfl | rfl := hi
  · exact Host.Outcome.next.inj h ▸ displaySurface_rst (s := s.accept) rfl
  · exact Host.Outcome.next.inj h ▸ clearSurface_rst (s := s.accept) rfl

/-- Settles O50: neither moves the device state (`exec_dev`) or the reset line, and no operation the rest (`Ended`). -/
theorem displayAndClearFrame : Obligations.DisplayAndClearFrame := by
  unfold Obligations.DisplayAndClearFrame
  intro i s t hi h
  obtain ⟨_, hended⟩ := ended_of_exec h
  have hdev : t.dev = s.dev := (exec_dev h).resolve_right fun ⟨hinit, _⟩ => by simp [hinit] at hi
  have hrst : t.rst = s.rst := exec_displayOrClear_rst hi h
  refine ⟨hended.frame.trans ?_, hended.dc, fun hw a ha => hended.outside hw ha⟩
  rw [hdev, hrst]

end Sys2Proof.Machine
end

section
/-! PROOFS. Which operation can answer which status (60_exceptions R172): the statuses of each procedure, and of the operation
that runs it. -/

namespace Sys2Proof.Machine

/-! ## The statuses of each procedure (60_exceptions R172) -/

theorem append_status (t : Tag) (bs : List Byte) (s : State) : (append t bs s).1 ∈ [.ok, .errOverflow] := by
  obtain ⟨h, _⟩ | ⟨h, _⟩ | ⟨h, _⟩ := append_cases t bs s <;> simp [h]

theorem setBatchTo_status (t : Tag) (bs : List Byte) (s : State) : (setBatchTo t bs s).1 ∈ [.ok, .errOverflow] := by
  unfold setBatchTo
  split
  · simp
  · exact append_status t bs (batchReset s)

theorem SendRunsEnds.status {rs : List Run} {s u : State} {st : Status} (h : SendRunsEnds rs s (.done st u)) :
    st = .ok ∨ st = .errIo := by
  cases h with
  | sent e n => exact .inl rfl
  | writeFailed before after x k e n _ _ => exact .inr rfl
  | selectFailed before after x e n _ _ => exact .inr rfl

theorem SendEnds.status {s u : State} {st : Status} (h : SendEnds s (.done st u)) : st ∈ statusesOf .send := by
  cases h with
  | unavailable e n => simp [statusesOf]
  | empty e n _ => simp [statusesOf]
  | loop e n _ _ hr => obtain rfl | rfl := hr.status <;> simp [statusesOf]

/-- Outside Unknown INIT answers `ERR_STATE` alone (41_device R138), and in Unknown any other status of its row. -/
theorem initSequence_status {s u : State} {st : Status} (hl : s.par.Legal s.cfg) (hb : s.busy = true)
    (h : initSequence s = .done st u) : st ∈ statusesOf .init := by
  by_cases hd : s.dev = .unknown
  · obtain ⟨rfl, _⟩ | ⟨_, rfl | rfl⟩ := (initSequence_ends hl hb hd).answered h <;> simp [statusesOf]
  · rw [initSequence_refused hd] at h
    obtain ⟨rfl, _⟩ := Res.done.inj h
    simp [statusesOf]

theorem DisplayEnds.status {s u : State} {st : Status} (h : DisplayEnds s (.done st u)) : st ∈ statusesOf .display := by
  cases h with
  | notReady _ => simp [statusesOf]
  | mismatch x e n _ _ => simp [statusesOf]
  | flushed x e n _ _ _ hr => obtain rfl | rfl | rfl := hr.status <;> simp [statusesOf]

theorem ClearEnds.status {s u : State} {st : Status} (h : ClearEnds s (.done st u)) : st ∈ statusesOf .clear := by
  cases h with
  | notReady _ => simp [statusesOf]
  | flushed _ _ hr => obtain rfl | rfl | rfl := hr.status <;> simp [statusesOf]

/-! ## The response an operation delivers -/

theorem Ran.touched {d : DeviceState} {s : State} {r : Res Status} (h : Ran d s r) : Touched d s r.state := by
  cases h with
  | done st t h _ _ => exact h
  | hung t h _ _ => exact h

/-- INIT in any device state touches what `Touched` says. -/
theorem initSequence_touched {s : State} (hb : s.busy = true) : ∃ d, Touched d s (initSequence s).state := by
  by_cases hd : s.dev = .unknown
  · exact ⟨_, (initSequence_ran hb hd).touched⟩
  · rw [initSequence_refused hd]
    exact ⟨_, .refl s.dev s⟩

/-- An accepted operation that is idle again was not held, so its response is the status its procedure ended with. -/
theorem Touched.response_mem {d : DeviceState} {s : State} {r : Res Status} {sts : List Status}
    (h : Touched d s.accept r.state) (hst : ∀ st u, r = .done st u → st ∈ sts) (hidle : (conclude r).busy = false) :
    ∃ st ∈ sts, (conclude r).responses = s.responses ++ [st.code] := by
  cases r with
  | done st u => exact ⟨st, hst st u rfl, congrArg (· ++ [st.code]) h.responses⟩
  | hung u =>
    have hbusy : u.busy = true := h.busy
    exact absurd (hbusy.symm.trans hidle) (by decide)

/-- An operation runs one procedure, and that ends with a status of the operation's row, if it ends. -/
theorem exec_status (i : Instr) {s : State} (hl : s.par.Legal s.cfg) :
    ∃ r, exec i s = .next (conclude r) ∧ (∃ d, Touched d s.accept r.state)
      ∧ ∀ st u, r = .done st u → st ∈ statusesOf i := by
  cases i with
  | appendCmd bs =>
    exact ⟨_, rfl, ⟨_, (append_ran .cmd bs s.accept).touched⟩, by rintro _ _ ⟨⟩; exact append_status ..⟩
  | appendData bs =>
    exact ⟨_, rfl, ⟨_, (append_ran .data bs s.accept).touched⟩, by rintro _ _ ⟨⟩; exact append_status ..⟩
  | setCmd bs =>
    exact ⟨_, rfl, ⟨_, (setBatchTo_ran .cmd bs s.accept).touched⟩, by rintro _ _ ⟨⟩; exact setBatchTo_status ..⟩
  | setData bs =>
    exact ⟨_, rfl, ⟨_, (setBatchTo_ran .data bs s.accept).touched⟩, by rintro _ _ ⟨⟩; exact setBatchTo_status ..⟩
  | send =>
    exact ⟨_, rfl, ⟨_, (send_sent s.accept rfl).ran.touched⟩, fun st u hr => (hr ▸ send_ends s.accept rfl).status⟩
  | batchReset =>
    exact ⟨_, rfl, ⟨_, (Touched.refl s.dev s.accept).setBatch [] none⟩, by rintro _ _ ⟨⟩; exact List.mem_singleton_self _⟩
  | init =>
    exact ⟨_, rfl, initSequence_touched (s := s.accept) rfl, fun st u hr => initSequence_status (s := s.accept) hl rfl hr⟩
  | display =>
    exact ⟨_, rfl, ⟨_, (displaySurface_ran (s := s.accept) rfl).touched⟩,
      fun st u hr => (hr ▸ displaySurface_ends (s := s.accept) hl rfl).status⟩
  | clear =>
    exact ⟨_, rfl, ⟨_, (clearSurface_ran (s := s.accept) rfl).touched⟩,
      fun st u hr => (hr ▸ clearSurface_ends (s := s.accept) hl rfl).status⟩

/-! ## The obligation -/

/-- Settles O9: the operation's procedure ended with a status of its row (`exec_status`), and that is the response. The
parameters are legal, so a device operation's flush holds its one run (`flush_ends`), and no `ERR_EMPTY` comes of it. -/
theorem statusesPerOperation : Obligations.StatusesPerOperation := by
  unfold Obligations.StatusesPerOperation
  intro i s t hl h hidle
  obtain ⟨r, he, ⟨d, htouched⟩, hst⟩ := exec_status i hl
  obtain rfl : t = conclude r := Host.Outcome.next.inj (h.symm.trans he)
  exact htouched.response_mem hst hidle

end Sys2Proof.Machine
end

section
/-! PROOFS. The reset values (70_reset R200): `State.reset` is a constructed block, and every constructed block meets
`State.Inv`. -/

namespace Sys2Proof.Machine

/-- Construction accepts the parameter set of `State.reset` (log 1). -/
theorem resetParams_legal : resetParams.Legal (resetConfigArgs.resolve resetParams) := by decide

theorem construct_reset : State.construct resetParams resetConfigArgs = some State.reset :=
  construct_eq_some.mpr ⟨resetParams_legal, rfl⟩

/-- Settles O54: the parameter set is legal (`construct_reset`), and the running fields are those of `State.fresh`. -/
theorem resetIsAConstructedBlock : Obligations.ResetIsAConstructedBlock := by
  unfold Obligations.ResetIsAConstructedBlock
  exact ⟨construct_reset, rfl, rfl, rfl, rfl, rfl, rfl, rfl, rfl, rfl⟩

/-- A fresh block over legal parameters meets the invariant: its batch and its buffer are empty, it is Unknown, and nothing
has happened yet. -/
theorem fresh_inv {p : Params} {c : ControllerConfig} (h : p.Legal c) : (State.fresh p c).Inv where
  legal := h
  runs_ok := (BatchOk.nil p).runs_ok
  runs_alternate := (BatchOk.nil p).alternate
  open_run_first _ _ := rfl
  batch_fits := (BatchOk.nil p).fits
  buf_wf := rfl
  buf_within := rfl
  busy_iff_waiting := rfl
  initializing_busy := nofun
  i2c_select_unknown _ := rfl
  no_line_reset_unknown _ := rfl
  unknown_buf_zero _ := rfl
  unknown_reset_unknown _ := rfl
  ready_released := nofun
  samples_length := rfl
  samples_busy := nofun
  codes_known := nofun

theorem construct_inv {p : Params} {a : ConfigArgs} {s : State} (h : State.construct p a = some s) : s.Inv := by
  obtain ⟨hlegal, rfl⟩ := construct_eq_some.mp h
  exact fresh_inv hlegal

/-- Settles O59: a constructed block is fresh over a legal set (`construct_inv`), and so is `State.reset`. -/
theorem constructedBlockMeetsInvariant : Obligations.ConstructedBlockMeetsInvariant := by
  unfold Obligations.ConstructedBlockMeetsInvariant
  exact ⟨construct_inv construct_reset, fun _ _ _ => construct_inv⟩

end Sys2Proof.Machine
end
